-- ==== Sys2Proof/Word.lean ====
section
/-! DEFINITION. The block's word types (00_scope.md R5, R6). -/

namespace Sys2Proof

/-- `U8`/`S8`: an operand byte, a sensor register byte (R6). -/
abbrev Byte := BitVec 8

/-- `U16`/`S16`: a 16-bit calibration constant or word operand (R6). -/
abbrev Half := BitVec 16

/-- `U32`/`S32`: a command word, a host-port word, a datapath value (R6). -/
abbrev Word := BitVec 32

/-- `B64`: the pattern of a binary64 value (R6). -/
abbrev DWord := BitVec 64

end Sys2Proof
end

