-- ==== Sys2Proof/Config.lean ====
section
/-! DEFINITION. The parameters of 00_scope.md R4, and the free values: what the transport agent answers (60_exceptions.md R119)
and what the calibration store holds after a load that failed (41_calibration.md R94). -/

namespace Sys2Proof

/-- `HUM_PACK` (R4, D31): how H4 and H5 are packed from registers 0xE4..0xE6. -/
inductive HumPack where
  | source
  | datasheet
deriving DecidableEq, Repr, Inhabited

/-- The two parameters of R4 that a command reads. They are fixed for a machine; State carries them unchanged so that a claim
over all states is a claim over all their values (DESIGN CHOICE, log 7). -/
structure Params where
  /-- `BLK_MAX`, capacity of BLK_BUF in bytes. -/
  blkMax : Nat
  humPack : HumPack
deriving DecidableEq, Repr

/-- R4: `1 <= BLK_MAX <= 48`. -/
abbrev Params.ok (p : Params) : Prop := 1 ≤ p.blkMax ∧ p.blkMax ≤ 48

/-- R4's suggested `BLK_MAX` and default `HUM_PACK` (DESIGN CHOICE, log 7). -/
def Params.suggested : Params := { blkMax := 32, humPack := .source }

/-- A failure code of a transport call: `1 <= c <= 0xFFFFFFFF` (R10). -/
structure FailCode where
  code : Word
  pos : 0 < code
deriving DecidableEq, Repr

/-- `SHORT_CODE` (R4, D14): the code of a transfer that moved fewer bytes than asked. -/
def Config.shortCode : FailCode := ⟨0xFFFFFFFF#32, by decide⟩

/-- What the transport agent answers to a call that returns (R10, R119). -/
inductive Answer where
  /-- The call succeeded. A read of one byte replies `[b0]`, a read of two bytes `[b0, b1]`; other calls carry no reply
  (log 5). -/
  | ok (b0 b1 : Byte)
  /-- The transfer moved fewer bytes than asked: `Fail(SHORT_CODE)` (log 6). -/
  | short
  /-- The call failed with the transport's code. -/
  | fail (c : FailCode)
deriving DecidableEq, Repr, Inhabited

/-- One draw of the transport agent: an answer, or a call that never returns (R120). -/
inductive Draw where
  | returns (a : Answer)
  | never
deriving DecidableEq, Repr, Inhabited

/-- FREE VALUE (R119, R120, U5 to U7; log 3): the draw for transport call number `k` where State's `script` does not give one. -/
opaque Config.freeDraw (k : Nat) : Draw

/-- FREE VALUE (R94, U4; log 9): the byte that stands for sensor register `reg` in the unspecified store left by the LDCAL whose
failing call was number `k`. -/
opaque Config.freeCalByte (k : Nat) (reg : Byte) : Byte

/-- FREE VALUE (`DEV_PATH`, R4, D46, U18; log 8): the device node the transport opens for a bus number. The block passes the bus
number to BusOpen, and no rule of the block reads the path. -/
opaque Config.devPath (bus : Byte) : String

end Sys2Proof
end

