-- ==== Sys2Proof/Syntax.lean ====
section
/-! DEFINITION. The thirteen commands (30_encoding.md R65), the host's actions (R72, 20_memory.md R59), and the assembler's
lines (R72, R73). -/

namespace Sys2Proof

/-- The commands of the opcode map (R65), each with the operands R71 assembles. -/
inductive Instr where
  /-- OPEN bus, addr -/
  | openBus (bus addr : Byte)
  /-- CLOSE -/
  | close
  /-- RDB reg -/
  | rdb (reg : Byte)
  /-- RDW reg -/
  | rdw (reg : Byte)
  /-- RDWS reg -/
  | rdws (reg : Byte)
  /-- WRB reg, value -/
  | wrb (reg value : Byte)
  /-- WRW reg, value16 -/
  | wrw (reg : Byte) (value : Half)
  /-- WRC byte -/
  | wrc (cmd : Byte)
  /-- WRBLK -/
  | wrblk
  /-- LDCAL -/
  | ldcal
  /-- CMPT msb, lsb, xsb -/
  | cmpt (msb lsb xsb : Byte)
  /-- CMPH msb, lsb -/
  | cmph (msb lsb : Byte)
  /-- CMPP msb, lsb, xsb -/
  | cmpp (msb lsb xsb : Byte)
deriving DecidableEq, Repr

/-- One access of the host to the register port: a byte offset and a width in bits, since R59 also speaks of accesses that are not
one aligned 32-bit word. -/
inductive HostAction where
  /-- `HW offset, value` (R72) when `width = 32`. -/
  | write (offset width : Nat) (value : Word)
  /-- `HR offset` (R72) when `width = 32`. -/
  | read (offset width : Nat)
deriving DecidableEq, Repr

/-- A command as an assembler line names it (R72) or a pseudo-instruction (R73): operands are numbers, which may not fit. -/
inductive Asm where
  | openBus (bus addr : Nat)
  | close
  | rdb (reg : Nat)
  | rdw (reg : Nat)
  | rdws (reg : Nat)
  | wrb (reg value : Nat)
  | wrw (reg value16 : Nat)
  | wrc (byte : Nat)
  | wrblk
  | ldcal
  | cmpt (msb lsb xsb : Nat)
  | cmph (msb lsb : Nat)
  | cmpp (msb lsb xsb : Nat)
  | cmpt20 (raw : Nat)
  | cmpp20 (raw : Nat)
  | cmph16 (raw : Nat)
deriving DecidableEq, Repr

/-- One line of assembler text (R72): a command, or a host action written `HW offset, value` or `HR offset`. -/
inductive AsmLine where
  | command (a : Asm)
  | hw (offset value : Nat)
  | hr (offset : Nat)
deriving DecidableEq, Repr

end Sys2Proof
end

