-- ==== Sys2Proof/WellFormed.lean ====
section
/-! DEFINITION. What is well formed: an assembler operand fits its field (30_encoding.md R72, R73), a host access is one aligned
32-bit word (20_memory.md R59). An `Instr` carries its operands at the widths of its fields, so every term of it is well formed. -/

namespace Sys2Proof

/-- The operands of a command with the width of the field each goes to (R64, R71). -/
def Instr.operands : Instr → List (Nat × Nat)
  | .openBus bus addr => [(8, bus.toNat), (8, addr.toNat)]
  | .close => []
  | .rdb reg => [(8, reg.toNat)]
  | .rdw reg => [(8, reg.toNat)]
  | .rdws reg => [(8, reg.toNat)]
  | .wrb reg value => [(8, reg.toNat), (8, value.toNat)]
  | .wrw reg value => [(8, reg.toNat), (16, value.toNat)]
  | .wrc cmd => [(8, cmd.toNat)]
  | .wrblk => []
  | .ldcal => []
  | .cmpt msb lsb xsb => [(8, msb.toNat), (8, lsb.toNat), (8, xsb.toNat)]
  | .cmph msb lsb => [(8, msb.toNat), (8, lsb.toNat)]
  | .cmpp msb lsb xsb => [(8, msb.toNat), (8, lsb.toNat), (8, xsb.toNat)]

/-- Every operand fits its field (R72). -/
def Instr.wf (i : Instr) : Bool := i.operands.all fun o => o.2 < 2 ^ o.1

/-- The operands of an assembler line with the width each must fit (R72; R73's conditions on `raw`). -/
def Asm.operands : Asm → List (Nat × Nat)
  | .openBus bus addr => [(8, bus), (8, addr)]
  | .close => []
  | .rdb reg => [(8, reg)]
  | .rdw reg => [(8, reg)]
  | .rdws reg => [(8, reg)]
  | .wrb reg value => [(8, reg), (8, value)]
  | .wrw reg value16 => [(8, reg), (16, value16)]
  | .wrc byte => [(8, byte)]
  | .wrblk => []
  | .ldcal => []
  | .cmpt msb lsb xsb => [(8, msb), (8, lsb), (8, xsb)]
  | .cmph msb lsb => [(8, msb), (8, lsb)]
  | .cmpp msb lsb xsb => [(8, msb), (8, lsb), (8, xsb)]
  | .cmpt20 raw => [(20, raw)]
  | .cmpp20 raw => [(20, raw)]
  | .cmph16 raw => [(16, raw)]

/-- Every operand of the line fits (R72: an operand that does not fit is an assembly error, not a truncation). -/
def Asm.wf (a : Asm) : Bool := a.operands.all fun o => o.2 < 2 ^ o.1

/-- A line fits: a command's operands, or the 32-bit value of a host-port write (R72). -/
def AsmLine.wf : AsmLine → Bool
  | .command a => a.wf
  | .hw _ value => value < 2 ^ 32
  | .hr _ => true

end Sys2Proof
end

