-- ==== Sys2Proof/Decode.lean ====
section
/-! DEFINITION. Decoding and encoding of the command word (30_encoding.md R63 to R74) and the assembler's translation of a line
to a command. -/

namespace Sys2Proof

/-- Field OPC, bits [31:24] (R64). -/
def Word.opc (w : Word) : Byte := w.extractLsb' 24 8

/-- Field A, bits [23:16] (R64). -/
def Word.fieldA (w : Word) : Byte := w.extractLsb' 16 8

/-- Field B, bits [15:8] (R64). -/
def Word.fieldB (w : Word) : Byte := w.extractLsb' 8 8

/-- Field C, bits [7:0] (R64). -/
def Word.fieldC (w : Word) : Byte := w.extractLsb' 0 8

/-- Why a word is ILLEGAL. -/
inductive Reject where
  /-- The opcode is not assigned (R67). -/
  | unassignedOpcode
  /-- The opcode is assigned and a reserved field is not 0 (R66). -/
  | reservedField
deriving DecidableEq, Repr

/-- A command whose reserved fields must be 0 (R66). -/
def decodeReserved (zero : Bool) (i : Instr) : Except Reject Instr :=
  if zero then .ok i else .error .reservedField

/-- R70: the decoder, total on all words, a function of the word alone. -/
def decode (w : Word) : Except Reject Instr :=
  let a := Word.fieldA w
  let b := Word.fieldB w
  let c := Word.fieldC w
  match (Word.opc w).toNat with
  | 0x01 => decodeReserved (c == 0) (.openBus a b)
  | 0x02 => decodeReserved (a == 0 && b == 0 && c == 0) .close
  | 0x10 => decodeReserved (b == 0 && c == 0) (.rdb a)
  | 0x11 => decodeReserved (b == 0 && c == 0) (.rdw a)
  | 0x12 => decodeReserved (b == 0 && c == 0) (.rdws a)
  | 0x18 => decodeReserved (c == 0) (.wrb a b)
  | 0x19 => .ok (.wrw a (b ++ c))
  | 0x1A => decodeReserved (b == 0 && c == 0) (.wrc a)
  | 0x1B => decodeReserved (a == 0 && b == 0 && c == 0) .wrblk
  | 0x20 => decodeReserved (a == 0 && b == 0 && c == 0) .ldcal
  | 0x30 => .ok (.cmpt a b c)
  | 0x31 => decodeReserved (c == 0) (.cmph a b)
  | 0x32 => .ok (.cmpp a b c)
  | _ => .error .unassignedOpcode

/-- The host's view of the decoder: the instruction whose low `nbits` bits are `w`, the bits above being 0 (the command word is one
32-bit word, R63). -/
def decodeTableWord (nbits w : Nat) : Option Instr :=
  (decode (BitVec.ofNat 32 (w % 2 ^ nbits))).toOption

/-- A command word from its four fields (R64). -/
def commandWord (opc a b c : Byte) : Word := opc ++ a ++ b ++ c

/-- The encoding of a command (R65, R72): reserved fields assemble as 0. -/
def encode : Instr → Word
  | .openBus bus addr => commandWord 0x01 bus addr 0
  | .close => commandWord 0x02 0 0 0
  | .rdb reg => commandWord 0x10 reg 0 0
  | .rdw reg => commandWord 0x11 reg 0 0
  | .rdws reg => commandWord 0x12 reg 0 0
  | .wrb reg value => commandWord 0x18 reg value 0
  | .wrw reg value => commandWord 0x19 reg (value.extractLsb' 8 8) (value.extractLsb' 0 8)
  | .wrc cmd => commandWord 0x1A cmd 0 0
  | .wrblk => commandWord 0x1B 0 0 0
  | .ldcal => commandWord 0x20 0 0 0
  | .cmpt msb lsb xsb => commandWord 0x30 msb lsb xsb
  | .cmph msb lsb => commandWord 0x31 msb lsb 0
  | .cmpp msb lsb xsb => commandWord 0x32 msb lsb xsb

/-- A row of the opcode map (R65): the bits a word must show, and which bits those are. -/
structure OpcodeRow where
  mnemonic : String
  pattern : Word
  mask : Word
deriving DecidableEq, Repr

/-- The opcode map (R65) as masks and patterns: OPC and the reserved fields are fixed bits. -/
def opcodeMap : List OpcodeRow :=
  [ ⟨"OPEN",  0x01000000, 0xFF0000FF⟩,
    ⟨"CLOSE", 0x02000000, 0xFFFFFFFF⟩,
    ⟨"RDB",   0x10000000, 0xFF00FFFF⟩,
    ⟨"RDW",   0x11000000, 0xFF00FFFF⟩,
    ⟨"RDWS",  0x12000000, 0xFF00FFFF⟩,
    ⟨"WRB",   0x18000000, 0xFF0000FF⟩,
    ⟨"WRW",   0x19000000, 0xFF000000⟩,
    ⟨"WRC",   0x1A000000, 0xFF00FFFF⟩,
    ⟨"WRBLK", 0x1B000000, 0xFFFFFFFF⟩,
    ⟨"LDCAL", 0x20000000, 0xFFFFFFFF⟩,
    ⟨"CMPT",  0x30000000, 0xFF000000⟩,
    ⟨"CMPH",  0x31000000, 0xFF0000FF⟩,
    ⟨"CMPP",  0x32000000, 0xFF000000⟩ ]

/-- The word shows the row's fixed bits. -/
def OpcodeRow.covers (r : OpcodeRow) (w : Word) : Bool := w &&& r.mask == r.pattern

/-- The row of the opcode map a command belongs to. -/
def Instr.mnemonic : Instr → String
  | .openBus _ _ => "OPEN"
  | .close => "CLOSE"
  | .rdb _ => "RDB"
  | .rdw _ => "RDW"
  | .rdws _ => "RDWS"
  | .wrb _ _ => "WRB"
  | .wrw _ _ => "WRW"
  | .wrc _ => "WRC"
  | .wrblk => "WRBLK"
  | .ldcal => "LDCAL"
  | .cmpt _ _ _ => "CMPT"
  | .cmph _ _ => "CMPH"
  | .cmpp _ _ _ => "CMPP"

/-- The command an assembler line stands for, its operands put into their fields (R72), a pseudo-instruction expanded (R73). -/
def Asm.expand : Asm → Instr
  | .openBus bus addr => .openBus (BitVec.ofNat 8 bus) (BitVec.ofNat 8 addr)
  | .close => .close
  | .rdb reg => .rdb (BitVec.ofNat 8 reg)
  | .rdw reg => .rdw (BitVec.ofNat 8 reg)
  | .rdws reg => .rdws (BitVec.ofNat 8 reg)
  | .wrb reg value => .wrb (BitVec.ofNat 8 reg) (BitVec.ofNat 8 value)
  | .wrw reg value16 => .wrw (BitVec.ofNat 8 reg) (BitVec.ofNat 16 value16)
  | .wrc byte => .wrc (BitVec.ofNat 8 byte)
  | .wrblk => .wrblk
  | .ldcal => .ldcal
  | .cmpt msb lsb xsb => .cmpt (BitVec.ofNat 8 msb) (BitVec.ofNat 8 lsb) (BitVec.ofNat 8 xsb)
  | .cmph msb lsb => .cmph (BitVec.ofNat 8 msb) (BitVec.ofNat 8 lsb)
  | .cmpp msb lsb xsb => .cmpp (BitVec.ofNat 8 msb) (BitVec.ofNat 8 lsb) (BitVec.ofNat 8 xsb)
  | .cmpt20 raw =>
    .cmpt (BitVec.ofNat 8 (raw / 4096)) (BitVec.ofNat 8 (raw / 16 % 256)) (BitVec.ofNat 8 (raw % 16 * 16))
  | .cmpp20 raw =>
    .cmpp (BitVec.ofNat 8 (raw / 4096)) (BitVec.ofNat 8 (raw / 16 % 256)) (BitVec.ofNat 8 (raw % 16 * 16))
  | .cmph16 raw => .cmph (BitVec.ofNat 8 (raw / 256)) (BitVec.ofNat 8 (raw % 256))

/-- R72: a line assembles to its command, or is an assembly error where an operand does not fit. -/
def Asm.assemble (a : Asm) : Option Instr := if a.wf then some a.expand else none

/-- R72: `HW 0x000, w` is the same as issuing the command w; a line becomes one host action. -/
def AsmLine.action (l : AsmLine) : Option HostAction :=
  if l.wf then
    match l with
    | .command a => some (.write 0x000 32 (encode a.expand))
    | .hw offset value => some (.write offset 32 (BitVec.ofNat 32 value))
    | .hr offset => some (.read offset 32)
  else none

end Sys2Proof
end

