-- ==== Sys2Proof/Machine/State.lean ====
section
/-! DEFINITION. The architectural state (10_state.md), its reset value (R34), and the reasons a step can stop. -/

namespace Sys2Proof.Machine

/-- `H_TX` (R18): the transport-side handle. -/
inductive Tx where
  | none
  | live
deriving DecidableEq, Repr

/-- The outcome of BusOpen, BusSelect and BusWrite (R10). -/
inductive CallOutcome where
  | ok
  | fail (c : FailCode)
deriving DecidableEq, Repr

/-- The outcome of BusRead (R10). -/
inductive ReadOutcome where
  | ok (bytes : List Byte)
  | fail (c : FailCode)
deriving DecidableEq, Repr

/-- A transport event (R30): a call, its arguments and its outcome. -/
inductive Event where
  | open_ (bus : Byte) (o : CallOutcome)
  | select (addr : Byte) (o : CallOutcome)
  | write (bytes : List Byte) (o : CallOutcome)
  | read (n : Nat) (o : ReadOutcome)
  | close
deriving DecidableEq, Repr

/-- The calibration store (R19, R20, R21), each constant at its width; `t1`, `p1`, `h1`, `h3` are unsigned, the others
two's complement. `h4` and `h5` are 12-bit values held in S16. -/
structure Cal where
  t1 : Half
  t2 : Half
  t3 : Half
  p1 : Half
  p2 : Half
  p3 : Half
  p4 : Half
  p5 : Half
  p6 : Half
  p7 : Half
  p8 : Half
  p9 : Half
  h1 : Byte
  h2 : Half
  h3 : Byte
  h4 : Half
  h5 : Half
  h6 : Byte
deriving DecidableEq, Repr

/-- The store after reset (R34). -/
def Cal.reset : Cal :=
  { t1 := 0, t2 := 0, t3 := 0, p1 := 0, p2 := 0, p3 := 0, p4 := 0, p5 := 0, p6 := 0, p7 := 0, p8 := 0, p9 := 0,
    h1 := 0, h2 := 0, h3 := 0, h4 := 0, h5 := 0, h6 := 0 }

/-- Bytes by index. An index that is not listed reads 0, which is what BLK_BUF holds after reset (R34). -/
abbrev Memory := List Host.Cell

/-- The one canonical form: indexes strictly rising, no entry equal to what an unlisted index reads as (log 10). -/
abbrev Memory.wf (m : Memory) : Prop := m.Pairwise (fun c d => c.1 < d.1) ∧ ∀ c ∈ m, c.2 ≠ 0#8

/-- Why the machine stops. -/
inductive Fault where
  /-- Raised by `step` when the host has no action left: the run has ended (R122; log 1). Safe: the block itself would wait. -/
  | runEnded
  /-- Raised by every command that makes a transport call, when the call never returns: the run is stuck, with no final state
  (R120, R122; log 4). Safe: the machine stops where the hardware has no step either. -/
  | transportNeverReturns
deriving DecidableEq, Repr

/-- What the machine gives no meaning. -/
inductive Refusal where
  /-- Raised by `exec` for an instruction with no meaning yet; no arm answers so in this model. Safe. -/
  | notModelled (mnemonic : String)
  /-- Raised by a host access that is not 32 bits wide (R59, U9). Safe: the spec gives such an access no step. -/
  | accessWidth (width : Nat)
  /-- Raised by a host access whose offset is not a multiple of 4 (R59, U9). Safe: the spec gives such an access no step. -/
  | accessMisaligned (offset : Nat)
  /-- Raised by a host access to an offset R58 does not list (R59, U9). Safe: the spec gives such an access no step. -/
  | accessUnmapped (offset : Nat)
deriving DecidableEq, Repr

/-- The state of the block (10_state.md R16 to R33), and below it the model's own fields: the parameters and the two agents
outside the block. -/
structure State where
  /-- `H_OPEN` (R16) -/
  hOpen : Bool
  /-- `H_BUS` (R17) -/
  hBus : Byte
  /-- `H_ADDR` (R17) -/
  hAddr : Byte
  /-- `H_TX` (R18), hidden -/
  hTx : Tx
  /-- `CAL` (R19, R20, R21) -/
  cal : Cal
  /-- `CAL_VALID` (R22) -/
  calValid : Bool
  /-- `TF` (R23), an S32 -/
  tf : Word
  /-- `TF_VALID` (R24) -/
  tfValid : Bool
  /-- `RES` (R25) -/
  res : Word
  /-- `RESF` (R26) -/
  resf : DWord
  /-- `ERR` (R27) -/
  err : BitVec 4
  /-- `ERRINFO` (R28) -/
  errinfo : Word
  /-- `OVF` (R29) -/
  ovf : Bool
  /-- `ZDIV` (R29) -/
  zdiv : Bool
  /-- `SAT` (R29) -/
  sat : Bool
  /-- `SOVF` (R29), sticky -/
  sovf : Bool
  /-- `TH` (R30), oldest event first -/
  th : List Event
  /-- `BLK_LEN` (R31), an S32 -/
  blkLen : Word
  /-- `BLK_BUF` (R32) -/
  blkBuf : Memory
  /-- `CMD_LAST` (R33) -/
  cmdLast : Word
  /-- The parameters of R4 (log 7); no step changes them. -/
  params : Params
  /-- The host's actions still to come, next one first (R122; log 1). -/
  host : List HostAction
  /-- The offset and the word of every read the host has made, oldest first (log 11). -/
  hostReads : List (Nat × Word)
  /-- The transport agent's draws by call number, as far as they are fixed (R119; log 3); no step changes them. -/
  script : List Draw
  /-- How many transport calls have been made; it numbers the draws (log 3). -/
  calls : Nat
deriving DecidableEq, Repr

/-- The machine right after power-on reset (R34, R130, R131). The last five fields are the model's own (log 1, 3, 7, 11). -/
def State.reset : State :=
  { hOpen := false, hBus := 0, hAddr := 0, hTx := .none, cal := Cal.reset, calValid := false, tf := 0, tfValid := false,
    res := 0, resf := 0, err := 0, errinfo := 0, ovf := false, zdiv := false, sat := false, sovf := false, th := [],
    blkLen := 0, blkBuf := [], cmdLast := 0,
    params := Params.suggested, host := [], hostReads := [], script := [], calls := 0 }

/-- What a command, or a host action, answers. -/
abbrev Result := Host.Outcome State Fault Refusal

end Sys2Proof.Machine
end

