-- ==== Sys2Proof/Machine/Ops.lean ====
section
/-! DEFINITION. The named operations the commands share: completing and raising (00_scope.md R11), the transport primitives
(R10, 60_exceptions.md R119, R120), and the bytes of BLK_BUF (10_state.md R32). -/

namespace Sys2Proof.Machine

/-! ### Completion codes -/

/-- The completion codes of R111. -/
inductive ErrCode where
  | ok
  | invalidArgument
  | busUnavailable
  | addressSelectFailed
  | transportError
  /-- Reserved for the host's identity check; the block never raises it (R129). -/
  | unexpectedDeviceId
  | preconditionViolation
  | calibrationReadFailed
  | illegalCommand
  /-- Reserved for the host's bounded polling; the block never raises it (R124, R129). -/
  | timeout
deriving DecidableEq, Repr

/-- The number R111 gives a code. -/
def ErrCode.code : ErrCode → BitVec 4
  | .ok => 0
  | .invalidArgument => 1
  | .busUnavailable => 2
  | .addressSelectFailed => 3
  | .transportError => 4
  | .unexpectedDeviceId => 5
  | .preconditionViolation => 6
  | .calibrationReadFailed => 7
  | .illegalCommand => 8
  | .timeout => 9

/-- `ERR <- code(e); ERRINFO <- info`, and nothing else. -/
def setErr (e : ErrCode) (info : Word) (s : State) : State := { s with err := e.code, errinfo := info }

/-- A command that ends without `raise` (R11). -/
def complete (s : State) : Result := .next (setErr .ok 0 s)

/-- `raise e(info)` (R11, R112): the one way an error ends a command. Control returns to the host as after a success. -/
def raise (e : ErrCode) (info : Word) (s : State) : Result := .next (setErr e info s)

/-- R66, R67: what an ILLEGAL word does. -/
def illegal (s : State) : Result := raise .illegalCommand 0 s

/-! ### The transport -/

/-- The draw for the transport call `i` calls after the next one: `script` while it lasts, then a free draw (R119; log 3). -/
def State.draw (s : State) (i : Nat) : Draw :=
  match s.script[s.calls + i]? with
  | some d => d
  | none => Config.freeDraw (s.calls + i)

/-- The failure code of an answer, if it is a failure (R10; `short` is `Fail(SHORT_CODE)`, log 6). -/
def answerFailure : Answer → Option FailCode
  | .ok _ _ => none
  | .short => some Config.shortCode
  | .fail c => some c

/-- The reply bytes a read of `n` bytes takes from a successful answer; the block reads 1 or 2 (R38; log 5). -/
def answerReply (n : Nat) : Answer → List Byte
  | .ok b0 b1 => [b0, b1].take n
  | .short => []
  | .fail _ => []

/-- What a transport call, or a sequence of them, comes to. -/
inductive Xfer (α : Type) where
  /-- Every call succeeded. -/
  | ok (a : α) (s : State)
  /-- The last call made failed with `c`. -/
  | fail (c : FailCode) (s : State)
  /-- The last call made never returns (R120). -/
  | never
deriving Repr

/-- The state after one more transport call, whose event is `e` (R30). -/
def State.called (e : Event) (s : State) : State := { s with th := s.th ++ [e], calls := s.calls + 1 }

/-- A call that succeeds with nothing to return or fails (BusOpen, BusSelect, BusWrite), its event made from its outcome. -/
def busCall (event : CallOutcome → Event) (s : State) : Xfer Unit :=
  match s.draw 0 with
  | .never => .never
  | .returns a =>
    match answerFailure a with
    | none => .ok () (s.called (event .ok))
    | some c => .fail c (s.called (event (.fail c)))

/-- `BusOpen(bus)` (R10): opens `Config.devPath bus` on the transport's side. -/
def busOpen (bus : Byte) (s : State) : Xfer Unit := busCall (.open_ bus) s

/-- `BusSelect(addr)` (R10). -/
def busSelect (addr : Byte) (s : State) : Xfer Unit := busCall (.select addr) s

/-- `BusWrite(bytes)` (R10). -/
def busWrite (bytes : List Byte) (s : State) : Xfer Unit := busCall (.write bytes) s

/-- `BusRead(n)` (R10). -/
def busRead (n : Nat) (s : State) : Xfer (List Byte) :=
  match s.draw 0 with
  | .never => .never
  | .returns a =>
    match answerFailure a with
    | none => .ok (answerReply n a) (s.called (.read n (.ok (answerReply n a))))
    | some c => .fail c (s.called (.read n (.fail c)))

/-- `BusClose()` (R10), then `k`: its answer is not read (R79), though it too may never return (R120; log 14). -/
def busClose (s : State) (k : State → Result) : Result :=
  match s.draw 0 with
  | .never => .fault .transportNeverReturns
  | .returns _ => k (s.called .close)

/-- The number of a big-endian byte sequence, first byte highest (R10, R46). -/
def bigEndian (bytes : List Byte) : Nat := bytes.foldl (fun n b => n * 256 + b.toNat) 0

/-- `MemRead(reg, n)` (R10): address write, then read, the reply big-endian. -/
def memRead (reg : Byte) (n : Nat) (s : State) : Xfer Nat :=
  match busWrite [reg] s with
  | .never => .never
  | .fail c s' => .fail c s'
  | .ok _ s' =>
    match busRead n s' with
    | .never => .never
    | .fail c s'' => .fail c s''
    | .ok bytes s'' => .ok (bigEndian bytes) s''

/-- Ends a command by its last transport call: `k` on success, `onFail` at the first failing call (R76), stuck if a call never
returns (R120). -/
def Xfer.finish {α : Type} (onFail : FailCode → State → Result) (k : α → State → Result) : Xfer α → Result
  | .ok a s => k a s
  | .fail c s => onFail c s
  | .never => .fault .transportNeverReturns

/-- `raise TransportError(c)` (R10, R76). -/
def transportError (c : FailCode) (s : State) : Result := raise .transportError c.code s

/-- The handle check of R75: InvalidArgument, and no transport call, unless a handle is open. -/
def withHandle (s : State) (k : State → Result) : Result :=
  if s.hOpen then k s else raise .invalidArgument 0 s

/-! ### Bytes of BLK_BUF -/

/-- The byte at index `i`. -/
def Memory.read (m : Memory) (i : Nat) : Byte :=
  match m with
  | [] => 0#8
  | (a, v) :: rest => if i = a then v else Memory.read rest i

/-- The memory with byte `v` at index `i`, in canonical form if `m` is (log 10). -/
def Memory.write (m : Memory) (i : Nat) (v : Byte) : Memory :=
  match m with
  | [] => if v = 0#8 then [] else [(i, v)]
  | (a, u) :: rest =>
    if i < a then (if v = 0#8 then (a, u) :: rest else (i, v) :: (a, u) :: rest)
    else if i = a then (if v = 0#8 then rest else (i, v) :: rest)
    else (a, u) :: Memory.write rest i v

end Sys2Proof.Machine
end

