-- ==== Sys2Proof/Machine/Operands.lean ====
section
/-! DEFINITION. Operand forms: raw counts (42_compensation.md R97, R98), word operands (30_encoding.md R71), the block of WRBLK
(40_transaction.md R86), the widenings of the read commands (R80 to R82) and of the host port (20_memory.md R58). -/

namespace Sys2Proof.Machine

/-- R97: the 20-bit raw count of temperature and pressure; the low nibble of `xsb` is dropped. -/
def raw20 (msb lsb xsb : Byte) : Nat := msb.toNat * 4096 + lsb.toNat * 16 + xsb.toNat / 16

/-- R98: the 16-bit raw count of humidity. -/
def raw16 (msb lsb : Byte) : Nat := msb.toNat * 256 + lsb.toNat

/-- `value[15:8]` (R84). -/
def highByte (v : Half) : Byte := v.extractLsb' 8 8

/-- `value[7:0]` (R84). -/
def lowByte (v : Half) : Byte := v.extractLsb' 0 8

/-- The bytes `MemWrite(reg, 2, value)` sends (R10, R47, R84). -/
def wordWriteBytes (reg : Byte) (value : Half) : List Byte := [reg, highByte value, lowByte value]

/-- The first `n` bytes of BLK_BUF, BLK_BUF[0] first (R32, R86). -/
def blockBytes (m : Memory) (n : Nat) : List Byte := (List.range n).map (Memory.read m)

/-- `zext_32` of an 8- or 16-bit value (R7). -/
def zext32 {w : Nat} (v : BitVec w) : Word := v.setWidth 32

/-- `sext_32` of an 8- or 16-bit value (R7). -/
def sext32 {w : Nat} (v : BitVec w) : Word := v.signExtend 32

end Sys2Proof.Machine
end

