-- ==== Sys2Proof/Machine/Calibration.lean ====
section
/-! DEFINITION. LDCAL and the assembly of the calibration store (41_calibration.md). -/

namespace Sys2Proof.Machine

/-- R89: the 32 addresses, in order: 0x88..0x9F, 0xA1, 0xE1..0xE7. -/
def calAddresses : List Byte :=
  (List.range 24).map (fun i => BitVec.ofNat 8 (0x88 + i))
    ++ [0xA1#8]
    ++ (List.range 7).map (fun i => BitVec.ofNat 8 (0xE1 + i))

/-- R90: `pair(a)`, the byte at the lower address low. -/
def pair (r : Byte → Byte) (a : Byte) : Half := r (a + 1) ++ r a

/-- A byte's low nibble in front of another byte: the 12-bit H4 of `HUM_PACK = SOURCE` (R92). -/
def packNibbleByte (nibbleOf low : Byte) : Half :=
  BitVec.ofNat 16 (nibbleOf.toNat % 16 * 256 + low.toNat)

/-- A byte in front of a nibble, unsigned (R92, SOURCE). -/
def packByteNibble (high : Byte) (nibble : Nat) : Half :=
  BitVec.ofNat 16 (high.toNat * 16 + nibble)

/-- A signed byte in front of a nibble (R92, DATASHEET). -/
def packSignedByteNibble (high : Byte) (nibble : Nat) : Half :=
  BitVec.ofInt 16 (high.toInt * 16 + nibble)

/-- CAL.H4 (R92). -/
def packH4 (pack : HumPack) (r : Byte → Byte) : Half :=
  match pack with
  | .source => packNibbleByte (r 0xE5#8) (r 0xE4#8)
  | .datasheet => packSignedByteNibble (r 0xE4#8) ((r 0xE5#8).toNat % 16)

/-- CAL.H5 (R92). -/
def packH5 (pack : HumPack) (r : Byte → Byte) : Half :=
  match pack with
  | .source => packByteNibble (r 0xE6#8) ((r 0xE5#8).toNat / 16)
  | .datasheet => packSignedByteNibble (r 0xE6#8) ((r 0xE5#8).toNat / 16)

/-- R91 and R92: the store from the bytes read, `r a` being `R[a]`. -/
def assembleCal (pack : HumPack) (r : Byte → Byte) : Cal :=
  { t1 := pair r 0x88#8, t2 := pair r 0x8A#8, t3 := pair r 0x8C#8
    p1 := pair r 0x8E#8, p2 := pair r 0x90#8, p3 := pair r 0x92#8, p4 := pair r 0x94#8, p5 := pair r 0x96#8
    p6 := pair r 0x98#8, p7 := pair r 0x9A#8, p8 := pair r 0x9C#8, p9 := pair r 0x9E#8
    h1 := r 0xA1#8, h2 := pair r 0xE1#8, h3 := r 0xE3#8
    h4 := packH4 pack r, h5 := packH5 pack r, h6 := r 0xE7#8 }

/-- What reading the calibration registers comes to. -/
inductive CalRead where
  /-- Every read succeeded: the local table R of (address, byte). -/
  | done (table : List (Byte × Byte)) (s : State)
  /-- The write or the read of `reg` failed with `c`. -/
  | failed (reg : Byte) (c : FailCode) (s : State)
  /-- A call never returns (R120). -/
  | never
deriving Repr

/-- The loop of R93 over the addresses still to read, `table` holding what is read so far. -/
def readCal (table : List (Byte × Byte)) (s : State) : List Byte → CalRead
  | [] => .done table s
  | reg :: rest =>
    match memRead reg 1 s with
    | .never => .never
    | .fail c s' => .failed reg c s'
    | .ok v s' => readCal (table ++ [(reg, BitVec.ofNat 8 v)]) s' rest

/-- `R[a]` from the local table; LDCAL looks up only addresses it has read. -/
def tableByte (table : List (Byte × Byte)) (a : Byte) : Byte := (table.lookup a).getD 0

/-- R93: an LDCAL whose reads all succeeded. -/
def loadCal (table : List (Byte × Byte)) (s : State) : Result :=
  complete { s with cal := assembleCal s.params.humPack (tableByte table), calValid := true }

/-- R94: `fail(reg, c)`. The store is left unspecified: a free value of each constant's type, made by R91 and R92 from free
bytes (log 9). -/
def failCal (reg : Byte) (c : FailCode) (s : State) : Result :=
  raise .calibrationReadFailed c.code
    { s with
      res := zext32 reg, cal := assembleCal s.params.humPack (Config.freeCalByte s.calls),
      calValid := false, tfValid := false }

/-- R93: both valid bits are cleared before the first call. -/
def beginLoad (s : State) : State := { s with tfValid := false, calValid := false }

/-- The end of an LDCAL, by what its reads came to. -/
def finishLoad : CalRead → Result
  | .done table s => loadCal table s
  | .failed reg c s => failCal reg c s
  | .never => .fault .transportNeverReturns

/-- LDCAL (R93). -/
def execLdcal (s : State) : Result :=
  withHandle s fun s => finishLoad (readCal [] (beginLoad s) calAddresses)

end Sys2Proof.Machine
end

