-- ==== Sys2Proof/Machine/Arith.lean ====
section
/-! DEFINITION. The 32-bit datapath of the compensation engine (42_compensation.md R99 to R102). Every value carries the overflow
indicator of the operations it came from, so that a formula's `ovf` is the OR over the S32 operations it evaluated (R102). -/

namespace Sys2Proof.Machine

/-- An S32 value, and whether some S32 operation it came from overflowed. -/
structure S32 where
  bits : Word
  ovf : Bool
deriving DecidableEq, Repr

/-- A U32 value, and whether some S32 operation it came from overflowed. -/
structure U32 where
  bits : Word
  ovf : Bool
deriving DecidableEq, Repr

/-- The integer an S32 stands for. -/
def S32.int (a : S32) : Int := a.bits.toInt

/-- An integer that fits in S32, entered with no overflow (R102). -/
def S32.lit (z : Int) : S32 := { bits := BitVec.ofInt 32 z, ovf := false }

/-- A U8 or U16 constant entering a formula (R102). -/
def S32.ofUnsigned {w : Nat} (v : BitVec w) : S32 := S32.lit v.toNat

/-- An S8, S16 or S32 register entering a formula (R102). -/
def S32.ofSigned {w : Nat} (v : BitVec w) : S32 := S32.lit v.toInt

/-- The exact result does not fit S32 (R99). -/
def overflows (r : Int) : Bool := r < -2 ^ 31 || 2 ^ 31 - 1 < r

/-- R99: the exact result `r` wrapped, the indicator set if it does not fit, `o` being what the operands carried. -/
def S32.narrow (r : Int) (o : Bool) : S32 := { bits := BitVec.ofInt 32 r, ovf := o || overflows r }

/-- `a +s b` (R99). -/
def S32.add (a b : S32) : S32 := S32.narrow (a.int + b.int) (a.ovf || b.ovf)

/-- `a -s b` (R99). -/
def S32.sub (a b : S32) : S32 := S32.narrow (a.int - b.int) (a.ovf || b.ovf)

/-- `a *s b` (R99). -/
def S32.mul (a b : S32) : S32 := S32.narrow (a.int * b.int) (a.ovf || b.ovf)

/-- `a <<s k` (R99). -/
def S32.shl (a : S32) (k : Nat) : S32 := S32.narrow (a.int * 2 ^ k) a.ovf

/-- `a >>s k` (R100): floor division, no overflow. -/
def S32.shr (a : S32) (k : Nat) : S32 := { bits := BitVec.ofInt 32 (a.int / 2 ^ k), ovf := a.ovf }

/-- `u32(a)`: the bit pattern is kept (R101). -/
def S32.toU32 (a : S32) : U32 := { bits := a.bits, ovf := a.ovf }

/-- `s32(a)`: the bit pattern is kept (R101). -/
def U32.toS32 (a : U32) : S32 := { bits := a.bits, ovf := a.ovf }

/-- An unsigned literal. -/
def U32.lit (n : Nat) : U32 := { bits := BitVec.ofNat 32 n, ovf := false }

/-- `a -u b` (R101). -/
def U32.sub (a b : U32) : U32 := { bits := a.bits - b.bits, ovf := a.ovf || b.ovf }

/-- `a +u b` (R101). -/
def U32.add (a b : U32) : U32 := { bits := a.bits + b.bits, ovf := a.ovf || b.ovf }

/-- `a *u b` (R101). -/
def U32.mul (a b : U32) : U32 := { bits := a.bits * b.bits, ovf := a.ovf || b.ovf }

/-- `a <<u k` (R101). -/
def U32.shl (a : U32) (k : Nat) : U32 := { bits := a.bits <<< k, ovf := a.ovf }

/-- `a >>u k` (R101). -/
def U32.shr (a : U32) (k : Nat) : U32 := { bits := a.bits >>> k, ovf := a.ovf }

/-- `a /u b`, for b > 0 (R101); R108 never divides by 0. -/
def U32.div (a b : U32) : U32 := { bits := a.bits / b.bits, ovf := a.ovf || b.ovf }

/-- `a <u b` (R101). -/
def U32.lt (a b : U32) : Bool := a.bits.ult b.bits

end Sys2Proof.Machine
end

