-- ==== Sys2Proof/Machine/Binary64.lean ====
section
/-! DEFINITION. `bits64(f64(q))` (00_scope.md R12): the IEEE 754 binary64 pattern nearest to a rational, ties to the even
significand. The layout of the pattern is IEEE 754's (log 16). -/

namespace Sys2Proof.Machine

/-- `n / d` rounded to the nearest integer, ties to the even one (`d > 0`). -/
def roundHalfEven (n d : Nat) : Nat :=
  let q := n / d
  let r := n % d
  if 2 * r < d then q else if d < 2 * r then q + 1 else q + q % 2

/-- `2^a <= n/d` for an integer exponent `a` (`n, d > 0`). -/
def atLeastTwoPow (n d : Nat) (a : Int) : Bool := d * 2 ^ a.toNat ≤ n * 2 ^ (-a).toNat

/-- The `a` with `2^a <= n/d < 2^(a+1)` (`n, d > 0`). -/
def floorLog2 (n d : Nat) : Int :=
  let a : Int := (Nat.log2 n : Int) - (Nat.log2 d : Int)
  if atLeastTwoPow n d a then a else a - 1

/-- The exponent and sign-less pattern: with exponent `e` (not below -1022) the significand is counted in units of `2^(e-52)`, and
a carry out of it runs into the exponent field; past the largest finite value the pattern is infinity's. -/
def magnitude64 (n d : Nat) : Nat :=
  if n = 0 then 0
  else
    let e := max (floorLog2 n d) (-1022)
    let m := roundHalfEven (n * 2 ^ (52 - e).toNat) (d * 2 ^ (e - 52).toNat)
    min ((e + 1022).toNat * 2 ^ 52 + m) (0x7FF * 2 ^ 52)

/-- `bits64(f64(num / den))`, `den > 0` (R12); `f64(0)` is +0.0. -/
def bits64 (num : Int) (den : Nat) : DWord :=
  BitVec.ofNat 64 ((if num < 0 then 2 ^ 63 else 0) + magnitude64 num.natAbs den)

end Sys2Proof.Machine
end

