-- ==== Sys2Proof/Machine/Flags.lean ====
section
/-! DEFINITION. The STAT flags (10_state.md R29, 42_compensation.md R103) and the STAT word (20_memory.md R58). -/

namespace Sys2Proof.Machine

/-- The flags a compensation command that succeeds writes together; SOVF collects OVF until reset (R29, R103). -/
def setFlags (ovf zdiv sat : Bool) (s : State) : State :=
  { s with ovf := ovf, zdiv := zdiv, sat := sat, sovf := s.sovf || ovf }

/-- The result writes of a compensation command that completes (R103). -/
def compensated (res : Word) (resf : DWord) (ovf zdiv sat : Bool) (s : State) : Result :=
  complete (setFlags ovf zdiv sat { s with res := res, resf := resf })

/-- The STAT word (R58): bit 0 H_OPEN, 1 CAL_VALID, 2 TF_VALID, 3 OVF, 4 ZDIV, 5 SAT, 6 SOVF. -/
def statWord (s : State) : Word :=
  (BitVec.ofBool s.sovf ++ BitVec.ofBool s.sat ++ BitVec.ofBool s.zdiv ++ BitVec.ofBool s.ovf
    ++ BitVec.ofBool s.tfValid ++ BitVec.ofBool s.calValid ++ BitVec.ofBool s.hOpen).setWidth 32

end Sys2Proof.Machine
end

