-- ==== Sys2Proof/Machine/Compensation.lean ====
section
/-! DEFINITION. CMPT, CMPH and CMPP (42_compensation.md R106 to R108). The formulas are the spec's, step by step. -/

namespace Sys2Proof.Machine

/-- R106: fine-temperature `tf` from the raw count. -/
def fineTemperature (cal : Cal) (raw : Nat) : S32 :=
  let r := S32.lit raw
  let t1 := S32.ofUnsigned cal.t1
  let v1 := (((r.shr 3).sub (t1.shl 1)).mul (S32.ofSigned cal.t2)).shr 11
  let d := (r.shr 4).sub t1
  let v2 := (((d.mul d).shr 12).mul (S32.ofSigned cal.t3)).shr 14
  v1.add v2

/-- R106: `T`, hundredths of a degree Celsius, from fine-temperature. -/
def temperature (tf : S32) : S32 := ((tf.mul (S32.lit 5)).add (S32.lit 128)).shr 8

/-- R105: the precondition of CMPT. -/
def withCal (s : State) (k : State → Result) : Result :=
  if s.calValid then k s else raise .preconditionViolation 0 s

/-- R105: the precondition of CMPH and CMPP. -/
def withCalAndTf (s : State) (k : State → Result) : Result :=
  if s.calValid && s.tfValid then k s else raise .preconditionViolation 0 s

/-- CMPT msb, lsb, xsb (R106). -/
def execCmpt (msb lsb xsb : Byte) (s : State) : Result :=
  withCal s fun s =>
    let tf := fineTemperature s.cal (raw20 msb lsb xsb)
    let t := temperature tf
    compensated t.bits (bits64 t.int 100) t.ovf false false { s with tf := tf.bits, tfValid := true }

/-- R107: the value `y` before the clamp. -/
def humidity (cal : Cal) (tf : Word) (raw : Nat) : S32 :=
  let x := (S32.ofSigned tf).sub (S32.lit 76800)
  let a := (((((S32.lit raw).shl 14).sub ((S32.ofSigned cal.h4).shl 20)).sub
    ((S32.ofSigned cal.h5).mul x)).add (S32.lit 16384)).shr 15
  let b := (x.mul (S32.ofSigned cal.h6)).shr 10
  let c := ((x.mul (S32.ofUnsigned cal.h3)).shr 11).add (S32.lit 32768)
  let d := ((b.mul c).shr 10).add (S32.lit 2097152)
  let e := ((d.mul (S32.ofSigned cal.h2)).add (S32.lit 8192)).shr 14
  let y := a.mul e
  let q := y.shr 15
  y.sub ((((q.mul q).shr 7).mul (S32.ofUnsigned cal.h1)).shr 4)

/-- R107: the clamp to the closed interval [0, 419430400]. -/
def clampHumidity (y : Int) : Int := if y < 0 then 0 else if y > 419430400 then 419430400 else y

/-- CMPH msb, lsb (R107). -/
def execCmph (msb lsb : Byte) (s : State) : Result :=
  withCalAndTf s fun s =>
    let y := humidity s.cal s.tf (raw16 msb lsb)
    let h := clampHumidity y.int
    compensated (BitVec.ofInt 32 h) (bits64 h 4194304) y.ovf false (h != y.int) s

/-- R108: the first `v1`, from fine-temperature. -/
def pressureV1 (tf : Word) : S32 := ((S32.ofSigned tf).shr 1).sub (S32.lit 64000)

/-- R108: `v2`. -/
def pressureV2 (cal : Cal) (tf : Word) : S32 :=
  let v1 := pressureV1 tf
  let s := v1.shr 2
  let v2 := ((s.mul s).shr 11).mul (S32.ofSigned cal.p6)
  let v2 := v2.add ((v1.mul (S32.ofSigned cal.p5)).shl 1)
  (v2.shr 2).add ((S32.ofSigned cal.p4).shl 16)

/-- R108: the denominator term, the last `v1`. -/
def pressureDenominator (cal : Cal) (tf : Word) : S32 :=
  let v1 := pressureV1 tf
  let s := v1.shr 2
  let v1 := ((((S32.ofSigned cal.p3).mul ((s.mul s).shr 13)).shr 3).add
    (((S32.ofSigned cal.p2).mul v1).shr 1)).shr 18
  (((S32.lit 32768).add v1).mul (S32.ofUnsigned cal.p1)).shr 15

/-- R108: the numerator of the division. -/
def pressureNumerator (v2 : S32) (raw : Nat) : U32 :=
  (((S32.lit 1048576).sub (S32.lit raw)).toU32.sub (v2.shr 12).toU32).mul (U32.lit 3125)

/-- R108: the division, its branch kept bit for bit. -/
def pressureQuotient (p : U32) (den : S32) : U32 :=
  if p.lt (U32.lit 0x80000000) then (p.shl 1).div den.toU32 else (p.div den.toU32).mul (U32.lit 2)

/-- R108: the two correction terms and the result in pascals. -/
def pressureCorrected (cal : Cal) (p : U32) : U32 :=
  let w1 := ((S32.ofSigned cal.p9).mul (((p.shr 3).mul (p.shr 3)).shr 13).toS32).shr 12
  let w2 := ((p.shr 2).toS32.mul (S32.ofSigned cal.p8)).shr 13
  (p.toS32.add (((w1.add w2).add (S32.ofSigned cal.p7)).shr 4)).toU32

/-- R108: the pressure in pascals when the denominator term is not 0. -/
def pressure (cal : Cal) (tf : Word) (raw : Nat) : U32 :=
  pressureCorrected cal
    (pressureQuotient (pressureNumerator (pressureV2 cal tf) raw) (pressureDenominator cal tf))

/-- CMPP msb, lsb, xsb (R108). On the zero guard the S32 operations evaluated are those of the two terms. -/
def execCmpp (msb lsb xsb : Byte) (s : State) : Result :=
  withCalAndTf s fun s =>
    let den := pressureDenominator s.cal s.tf
    if den.bits = 0 then
      compensated 0 (bits64 0 100) (den.ovf || (pressureV2 s.cal s.tf).ovf) true false s
    else
      let p := pressure s.cal s.tf (raw20 msb lsb xsb)
      compensated p.bits (bits64 p.bits.toNat 100) p.ovf false false s

end Sys2Proof.Machine
end

