-- ==== Sys2Proof/Machine/Handle.lean ====
section
/-! DEFINITION. OPEN and CLOSE (40_transaction.md R78, R79). -/

namespace Sys2Proof.Machine

/-- R78: what OPEN does after BusSelect failed with `c`: one BusClose, then AddressSelectFailed. -/
def openCleanUp (c : FailCode) (s : State) : Result :=
  busClose s (raise .addressSelectFailed c.code)

/-- R78: the writes of an OPEN that succeeds. -/
def openHandle (bus addr : Byte) (s : State) : Result :=
  complete { s with hOpen := true, hBus := bus, hAddr := addr, hTx := .live }

/-- OPEN bus, addr (R78). -/
def execOpen (bus addr : Byte) (s : State) : Result :=
  if s.hOpen then raise .invalidArgument 0 s
  else
    (busOpen bus s).finish (fun c s' => raise .busUnavailable c.code s') fun _ s' =>
      (busSelect addr s').finish openCleanUp fun _ s'' => openHandle bus addr s''

/-- CLOSE (R79): a no-op but for ERR and ERRINFO when no handle is open. -/
def execClose (s : State) : Result :=
  if s.hOpen then
    busClose s fun s' => complete { s' with hOpen := false, hTx := .none }
  else complete s

end Sys2Proof.Machine
end

