-- ==== Sys2Proof/Machine/Transaction.lean ====
section
/-! DEFINITION. The read and write commands (40_transaction.md R80 to R86). Each begins with the handle check of R75 and raises
TransportError at its first failing call (R76). -/

namespace Sys2Proof.Machine

/-- A command whose one transport call is a write of `bytes` (R83 to R86). -/
def sendBytes (bytes : List Byte) (s : State) : Result :=
  (busWrite bytes s).finish transportError fun _ s' => complete s'

/-- A command that reads `n` bytes from `reg` and puts `f` of the big-endian number into RES (R80 to R82). -/
def readInto (reg : Byte) (n : Nat) (f : Nat → Word) (s : State) : Result :=
  (memRead reg n s).finish transportError fun v s' => complete { s' with res := f v }

/-- RDB reg (R80). -/
def execRdb (reg : Byte) (s : State) : Result :=
  withHandle s (readInto reg 1 fun v => zext32 (BitVec.ofNat 8 v))

/-- RDW reg (R81). -/
def execRdw (reg : Byte) (s : State) : Result :=
  withHandle s (readInto reg 2 fun v => zext32 (BitVec.ofNat 16 v))

/-- RDWS reg (R82). -/
def execRdws (reg : Byte) (s : State) : Result :=
  withHandle s (readInto reg 2 fun v => sext32 (BitVec.ofNat 16 v))

/-- WRB reg, value (R83). -/
def execWrb (reg value : Byte) (s : State) : Result :=
  withHandle s (sendBytes [reg, value])

/-- WRW reg, value16 (R84). -/
def execWrw (reg : Byte) (value : Half) (s : State) : Result :=
  withHandle s (sendBytes (wordWriteBytes reg value))

/-- WRC byte (R85). -/
def execWrc (cmd : Byte) (s : State) : Result :=
  withHandle s (sendBytes [cmd])

/-- R86 after the handle check: the length checks, then one write, or none when the length is 0. -/
def sendBlock (s : State) : Result :=
  if s.blkLen.toInt < 0 then raise .invalidArgument 0 s
  else if (s.params.blkMax : Int) < s.blkLen.toInt then raise .invalidArgument 0 s
  else if s.blkLen.toInt = 0 then complete s
  else sendBytes (blockBytes s.blkBuf s.blkLen.toNat) s

/-- WRBLK (R86). -/
def execWrblk (s : State) : Result := withHandle s sendBlock

end Sys2Proof.Machine
end

