-- ==== Sys2Proof/Machine/Dispatch.lean ====
section
/-! DEFINITION. One arm per command (30_encoding.md R65). -/

namespace Sys2Proof.Machine

def exec (i : Instr) (s : State) : Host.Outcome State Fault Refusal :=
  match i with
  -- bus handle (40_transaction.md)
  | .openBus bus addr => Sys2Proof.Machine.execOpen bus addr s
  | .close => Sys2Proof.Machine.execClose s
  -- reads
  | .rdb reg => Sys2Proof.Machine.execRdb reg s
  | .rdw reg => Sys2Proof.Machine.execRdw reg s
  | .rdws reg => Sys2Proof.Machine.execRdws reg s
  -- writes
  | .wrb reg value => Sys2Proof.Machine.execWrb reg value s
  | .wrw reg value => Sys2Proof.Machine.execWrw reg value s
  | .wrc cmd => Sys2Proof.Machine.execWrc cmd s
  | .wrblk => Sys2Proof.Machine.execWrblk s
  -- calibration (41_calibration.md)
  | .ldcal => Sys2Proof.Machine.execLdcal s
  -- compensation (42_compensation.md)
  | .cmpt msb lsb xsb => Sys2Proof.Machine.execCmpt msb lsb xsb s
  | .cmph msb lsb => Sys2Proof.Machine.execCmph msb lsb s
  | .cmpp msb lsb xsb => Sys2Proof.Machine.execCmpp msb lsb xsb s

end Sys2Proof.Machine
end

