-- ==== Sys2Proof/Machine/HostPort.lean ====
section
/-! DEFINITION. The host register port (20_memory.md R57 to R61) and what one host action does. -/

namespace Sys2Proof.Machine

/-- The names of the calibration constants, in the order of their port registers (R58). -/
inductive CalName where
  | t1 | t2 | t3 | p1 | p2 | p3 | p4 | p5 | p6 | p7 | p8 | p9 | h1 | h2 | h3 | h4 | h5 | h6
deriving DecidableEq, Repr

/-- The registers of the port (R58). -/
inductive PortReg where
  | cmd
  | err
  | errinfo
  | res
  | resfLo
  | resfHi
  | stat
  | tf
  | blkLen
  | handle
  | cal (c : CalName)
  | blkBuf (i : Nat)
deriving DecidableEq, Repr

/-- The registers at the offsets below 0x100 (R58). -/
def portMap : List (Nat × PortReg) :=
  [ (0x000, .cmd), (0x004, .err), (0x008, .errinfo), (0x00C, .res), (0x010, .resfLo), (0x014, .resfHi),
    (0x018, .stat), (0x01C, .tf), (0x020, .blkLen), (0x024, .handle) ]
  ++
  [ (0x040, .cal .t1), (0x044, .cal .t2), (0x048, .cal .t3),
    (0x04C, .cal .p1), (0x050, .cal .p2), (0x054, .cal .p3), (0x058, .cal .p4), (0x05C, .cal .p5),
    (0x060, .cal .p6), (0x064, .cal .p7), (0x068, .cal .p8), (0x06C, .cal .p9),
    (0x070, .cal .h1), (0x074, .cal .h2), (0x078, .cal .h3), (0x07C, .cal .h4), (0x080, .cal .h5),
    (0x084, .cal .h6) ]

/-- The register at an offset that is a multiple of 4, if R58 lists one: BLK_BUF_i stands at `0x100 + 4i` for `i < BLK_MAX`. -/
def portRegAt (blkMax offset : Nat) : Option PortReg :=
  if 0x100 ≤ offset then
    if (offset - 0x100) / 4 < blkMax then some (.blkBuf ((offset - 0x100) / 4)) else none
  else portMap.lookup offset

/-- The port word of a calibration constant, zero- or sign-extended by its type (R58). -/
def calWord (c : Cal) : CalName → Word
  | .t1 => zext32 c.t1
  | .t2 => sext32 c.t2
  | .t3 => sext32 c.t3
  | .p1 => zext32 c.p1
  | .p2 => sext32 c.p2
  | .p3 => sext32 c.p3
  | .p4 => sext32 c.p4
  | .p5 => sext32 c.p5
  | .p6 => sext32 c.p6
  | .p7 => sext32 c.p7
  | .p8 => sext32 c.p8
  | .p9 => sext32 c.p9
  | .h1 => zext32 c.h1
  | .h2 => sext32 c.h2
  | .h3 => zext32 c.h3
  | .h4 => sext32 c.h4
  | .h5 => sext32 c.h5
  | .h6 => sext32 c.h6

/-- What a read of a port register gives (R58); it has no side effect (R60). -/
def portWord (s : State) : PortReg → Word
  | .cmd => s.cmdLast
  | .err => zext32 s.err
  | .errinfo => s.errinfo
  | .res => s.res
  | .resfLo => s.resf.extractLsb' 0 32
  | .resfHi => s.resf.extractLsb' 32 32
  | .stat => statWord s
  | .tf => s.tf
  | .blkLen => s.blkLen
  | .handle => zext32 (s.hAddr ++ s.hBus)
  | .cal c => calWord s.cal c
  | .blkBuf i => zext32 (Memory.read s.blkBuf i)

/-- A write to CMD (R33, R57, R58): the word goes to CMD_LAST, then runs as a command, or as ILLEGAL (R66, R67). -/
def issue (w : Word) (s : State) : Result :=
  match decode w with
  | .ok i => exec i { s with cmdLast := w }
  | .error _ => illegal { s with cmdLast := w }

/-- What a write of `v` to a port register does (R58, R60); a read-only register ignores it (R59). -/
def portWrite (v : Word) (s : State) : PortReg → Result
  | .cmd => issue v s
  | .blkLen => .next { s with blkLen := v }
  | .blkBuf i => .next { s with blkBuf := Memory.write s.blkBuf i (v.setWidth 8) }
  | .err => .next s
  | .errinfo => .next s
  | .res => .next s
  | .resfLo => .next s
  | .resfHi => .next s
  | .stat => .next s
  | .tf => .next s
  | .handle => .next s
  | .cal _ => .next s

/-- The register a host access reaches, or why R59 refuses the access (log 15). -/
def portAccess (blkMax offset width : Nat) : Except Refusal PortReg :=
  if width ≠ 32 then .error (.accessWidth width)
  else if offset % 4 ≠ 0 then .error (.accessMisaligned offset)
  else
    match portRegAt blkMax offset with
    | some r => .ok r
    | none => .error (.accessUnmapped offset)

/-- One host action (R59, R60). -/
def perform (a : HostAction) (s : State) : Result :=
  match a with
  | .write offset width v =>
    match portAccess s.params.blkMax offset width with
    | .ok r => portWrite v s r
    | .error e => .refused e
  | .read offset width =>
    match portAccess s.params.blkMax offset width with
    | .ok r => .next { s with hostReads := s.hostReads ++ [(offset, portWord s r)] }
    | .error e => .refused e

end Sys2Proof.Machine
end

