-- ==== Sys2Proof/Machine/Step.lean ====
section
/-! DEFINITION. One step of the machine: the host's next action (60_exceptions.md R122). -/

namespace Sys2Proof.Machine

/-- The next action of the host, done on the state in which it is no longer to come; with none left the run has ended (R122). -/
def step (s : State) : Host.Outcome State Fault Refusal :=
  match s.host with
  | [] => .fault .runEnded
  | a :: rest => perform a { s with host := rest }

/-- The state whose next host action writes the command word to CMD (R57, R58; log 2): bits at and above `nbits` are 0. -/
def State.withFetchWord (s : State) (nbits w : Nat) : State :=
  { s with host := .write 0x000 32 (BitVec.ofNat 32 (w % 2 ^ nbits)) :: s.host }

end Sys2Proof.Machine
end

