-- ==== Sys2Proof/Machine/Assembler.lean ====
section
/-! DEFINITION. Assembler text (30_encoding.md R72, R73): one line, a mnemonic and then operands separated by commas, each a number
in decimal or `0x` hexadecimal. Blanks around a part are ignored (log 17). A line is a list of characters. -/

namespace Sys2Proof.Machine

/-- The words a line may begin with: the thirteen mnemonics, the pseudo-instructions, and the host actions. -/
inductive LineWord where
  | open_ | close | rdb | rdw | rdws | wrb | wrw | wrc | wrblk | ldcal | cmpt | cmph | cmpp
  | cmpt20 | cmpp20 | cmph16 | hw | hr
deriving DecidableEq, Repr

/-- The spelling of each word. -/
def lineWords : List (List Char × LineWord) :=
  [ (['O', 'P', 'E', 'N'], .open_), (['C', 'L', 'O', 'S', 'E'], .close),
    (['R', 'D', 'B'], .rdb), (['R', 'D', 'W'], .rdw), (['R', 'D', 'W', 'S'], .rdws),
    (['W', 'R', 'B'], .wrb), (['W', 'R', 'W'], .wrw), (['W', 'R', 'C'], .wrc),
    (['W', 'R', 'B', 'L', 'K'], .wrblk), (['L', 'D', 'C', 'A', 'L'], .ldcal),
    (['C', 'M', 'P', 'T'], .cmpt), (['C', 'M', 'P', 'H'], .cmph), (['C', 'M', 'P', 'P'], .cmpp) ]
  ++
  [ (['C', 'M', 'P', 'T', '2', '0'], .cmpt20), (['C', 'M', 'P', 'P', '2', '0'], .cmpp20),
    (['C', 'M', 'P', 'H', '1', '6'], .cmph16), (['H', 'W'], .hw), (['H', 'R'], .hr) ]

/-- The line a word and its operands make; a wrong number of operands is an error. -/
def lineOf : LineWord → List Nat → Option AsmLine
  | .open_, [bus, addr] => some (.command (.openBus bus addr))
  | .close, [] => some (.command .close)
  | .rdb, [reg] => some (.command (.rdb reg))
  | .rdw, [reg] => some (.command (.rdw reg))
  | .rdws, [reg] => some (.command (.rdws reg))
  | .wrb, [reg, value] => some (.command (.wrb reg value))
  | .wrw, [reg, value] => some (.command (.wrw reg value))
  | .wrc, [byte] => some (.command (.wrc byte))
  | .wrblk, [] => some (.command .wrblk)
  | .ldcal, [] => some (.command .ldcal)
  | .cmpt, [msb, lsb, xsb] => some (.command (.cmpt msb lsb xsb))
  | .cmph, [msb, lsb] => some (.command (.cmph msb lsb))
  | .cmpp, [msb, lsb, xsb] => some (.command (.cmpp msb lsb xsb))
  | .cmpt20, [raw] => some (.command (.cmpt20 raw))
  | .cmpp20, [raw] => some (.command (.cmpp20 raw))
  | .cmph16, [raw] => some (.command (.cmph16 raw))
  | .hw, [offset, value] => some (.hw offset value)
  | .hr, [offset] => some (.hr offset)
  | _, _ => none

/-- The digits of hexadecimal numbers, with their values. -/
def digitValues : List (Char × Nat) :=
  [ ('0', 0), ('1', 1), ('2', 2), ('3', 3), ('4', 4), ('5', 5), ('6', 6), ('7', 7), ('8', 8), ('9', 9) ]
  ++
  [ ('a', 10), ('b', 11), ('c', 12), ('d', 13), ('e', 14), ('f', 15),
    ('A', 10), ('B', 11), ('C', 12), ('D', 13), ('E', 14), ('F', 15) ]

/-- The number that digits of a base write, `n` being what the digits before them wrote. -/
def digits (base n : Nat) : List Char → Option Nat
  | [] => some n
  | c :: rest =>
    match digitValues.lookup c with
    | some d => if d < base then digits base (n * base + d) rest else none
    | none => none

/-- A number in decimal or `0x` hexadecimal. -/
def number : List Char → Option Nat
  | [] => none
  | ['0', 'x'] => none
  | '0' :: 'x' :: rest => digits 16 0 rest
  | cs => digits 10 0 cs

/-- A part of a line without the blanks around it. -/
def trimBlanks (cs : List Char) : List Char :=
  ((cs.dropWhile (· == ' ')).reverse.dropWhile (· == ' ')).reverse

/-- The parts between commas. -/
def splitCommas : List Char → List (List Char)
  | [] => [[]]
  | c :: rest =>
    if c = ',' then [] :: splitCommas rest
    else
      match splitCommas rest with
      | [] => [[c]]
      | part :: parts => (c :: part) :: parts

/-- The operands of a line: none, or numbers separated by commas. -/
def operandList (cs : List Char) : Option (List Nat) :=
  if trimBlanks cs = [] then some [] else (splitCommas cs).mapM fun part => number (trimBlanks part)

/-- The line that a text spells, if it spells one. -/
def parseLine (text : List Char) : Option AsmLine :=
  let cs := trimBlanks text
  match lineWords.lookup (cs.takeWhile (· != ' ')), operandList (cs.dropWhile (· != ' ')) with
  | some w, some operands => lineOf w operands
  | _, _ => none

/-- The host action that a line of text assembles to (R72). -/
def assembleLine (text : List Char) : Option HostAction := (parseLine text).bind AsmLine.action

end Sys2Proof.Machine
end

