-- ==== Sys2Proof/Safety.lean ====
section
/-! DEFINITION. The terms claims are stated in: the invariant that every step keeps, and the exact arithmetic that the formulas of
42_compensation.md compute when nothing overflows. -/

namespace Sys2Proof.Machine

/-! ### The invariant -/

/-- A BusOpen that succeeded. -/
def Event.opens : Event → Bool
  | .open_ _ .ok => true
  | _ => false

/-- A BusClose. -/
def Event.closes : Event → Bool
  | .close => true
  | _ => false

/-- R10: a write carries at least one byte, and a read that succeeds as many as asked. -/
def Event.sized : Event → Bool
  | .write bytes _ => bytes != []
  | .read n (.ok bytes) => bytes.length == n
  | _ => true

/-- The completion codes the block writes (R111, R129). -/
def writtenCodes : List (BitVec 4) := [0, 1, 2, 3, 4, 6, 7, 8]

/-- The completion codes that carry a transport code (R28, R113). -/
def transportCodes : List (BitVec 4) := [2, 3, 4, 7]

/-- R21: a 12-bit value held in S16, unsigned under SOURCE, signed under DATASHEET. -/
abbrev twelveBit (pack : HumPack) (v : Half) : Prop :=
  (pack = .source → v.toNat ≤ 4095) ∧ (pack = .datasheet → -2048 ≤ v.toInt ∧ v.toInt ≤ 2047)

/-- What holds of the block in every state a run reaches, and every step keeps. -/
structure State.Inv (s : State) : Prop where
  /-- R4 -/
  params : s.params.ok
  /-- R18: H_TX is none exactly when H_OPEN = 0. -/
  handle : s.hTx = .live ↔ s.hOpen = true
  /-- R18: exactly one live transport handle while H_OPEN = 1, none otherwise: each BusOpen that succeeded was closed once, but for
  the one that is live. -/
  oneHandle : s.th.countP Event.opens = s.th.countP Event.closes + s.hOpen.toNat
  /-- R10 -/
  sized : s.th.all Event.sized = true
  /-- R22, R24: fine-temperature is set only over a valid store. -/
  tfNeedsCal : s.tfValid = true → s.calValid = true
  /-- R29: SOVF is set whenever OVF is. -/
  sticky : s.ovf = true → s.sovf = true
  /-- R29: the guard and the clamp belong to different commands. -/
  guardOrClamp : ¬ (s.zdiv = true ∧ s.sat = true)
  /-- R111, R129: codes 5, 9 and 10..15 are never written. -/
  errWritten : s.err ∈ writtenCodes
  /-- R28: ERRINFO is a transport code after the errors that carry one, and 0 after any other outcome. -/
  errCarries : s.errinfo ≠ 0 ↔ s.err ∈ transportCodes
  /-- R21; in the store that a failed LDCAL leaves, the model's choice (log 9; U4, R94). -/
  h4 : twelveBit s.params.humPack s.cal.h4
  /-- As H4. -/
  h5 : twelveBit s.params.humPack s.cal.h5
  /-- The canonical form of BLK_BUF's bytes. -/
  bufForm : Memory.wf s.blkBuf
  /-- R32: BLK_BUF has indexes 0 to BLK_MAX - 1. -/
  bufRange : ∀ c ∈ s.blkBuf, c.1 < s.params.blkMax

/-! ### What the transport agent does -/

/-- The call `i` calls after the next one succeeds. -/
def State.callOk (s : State) (i : Nat) : Prop := ∃ b0 b1, s.draw i = .returns (.ok b0 b1)

/-- The call `i` calls after the next one fails with `c`: a failure reported by the transport, or a short transfer, which is
`Fail(SHORT_CODE)` (R10). -/
def State.callFails (s : State) (i : Nat) (c : FailCode) : Prop :=
  s.draw i = .returns (.fail c) ∨ (s.draw i = .returns .short ∧ c.code = 0xFFFFFFFF)

/-- The command makes its call `k`, counted from 0 (R38; BusClose is one, log 14): it passes its checks, and the
calls before came out as they must for it to be made (R76, R78, R93). -/
def State.makesCall (s : State) (i : Instr) (k : Nat) : Prop :=
  match i with
  | .openBus _ _ =>
    s.hOpen = false ∧ (k = 0 ∨ (k = 1 ∧ s.callOk 0) ∨ (k = 2 ∧ s.callOk 0 ∧ ∃ c, s.callFails 1 c))
  | .close => s.hOpen = true ∧ k = 0
  | .rdb _ => s.hOpen = true ∧ (k = 0 ∨ (k = 1 ∧ s.callOk 0))
  | .rdw _ => s.hOpen = true ∧ (k = 0 ∨ (k = 1 ∧ s.callOk 0))
  | .rdws _ => s.hOpen = true ∧ (k = 0 ∨ (k = 1 ∧ s.callOk 0))
  | .wrb _ _ => s.hOpen = true ∧ k = 0
  | .wrw _ _ => s.hOpen = true ∧ k = 0
  | .wrc _ => s.hOpen = true ∧ k = 0
  | .wrblk => s.hOpen = true ∧ 0 < s.blkLen.toInt ∧ s.blkLen.toInt ≤ s.params.blkMax ∧ k = 0
  | .ldcal => s.hOpen = true ∧ k < 64 ∧ ∀ j, j < k → s.callOk j
  | .cmpt _ _ _ => False
  | .cmph _ _ => False
  | .cmpp _ _ _ => False

/-- The next calls read the registers `regs` one by one, each an address write that succeeds and a one-byte read that replies with
the register's byte in `r` (R38, R93). -/
def State.callsRead (s : State) (regs : List Byte) (r : Byte → Byte) : Prop :=
  ∀ k a, regs[k]? = some a → s.callOk (2 * k) ∧ ∃ b1, s.draw (2 * k + 1) = .returns (.ok (r a) b1)

/-- The state after the transport calls whose events are `evs` (R30); the model's count of calls advances with TH (log 3). -/
def State.after (evs : List Event) (s : State) : State := { s with th := s.th ++ evs, calls := s.calls + evs.length }

/-- The events those calls leave in TH (R30, R93). -/
def readsOf (regs : List Byte) (r : Byte → Byte) : List Event :=
  regs.flatMap fun a => [.write [a] .ok, .read 1 (.ok [r a])]

/-- The host's next action issues the command `i` (R58). -/
def State.issues (s : State) (i : Instr) : Prop :=
  ∃ w rest, s.host = .write 0x000 32 w :: rest ∧ decode w = .ok i

/-! ### Exact arithmetic -/

/-- `s32(r)` (R7) as an integer. -/
def wrap32 (r : Int) : Int := Int.bmod r (2 ^ 32)

/-- `r` fits in S32 (R99). -/
def fits32 (r : Int) : Bool := -2 ^ 31 ≤ r && r ≤ 2 ^ 31 - 1

/-- Some exact result does not fit, so that `ovf` is set (R99, R102). -/
def someOverflow (rs : List Int) : Bool := rs.any fun r => !fits32 r

/-- R106 in exact integers: fine-temperature. -/
def exactFineTemperature (raw t1 t2 t3 : Int) : Int :=
  (raw / 8 - t1 * 2) * t2 / 2 ^ 11
    + ((raw / 16 - t1) * (raw / 16 - t1) / 2 ^ 12) * t3 / 2 ^ 14

/-- R106 in exact integers: hundredths of a degree. -/
def exactTemperature (tf : Int) : Int := (tf * 5 + 128) / 2 ^ 8

/-- R107 in exact integers: `y` before the clamp. -/
def exactHumidity (tf raw h1 h2 h3 h4 h5 h6 : Int) : Int :=
  let x := tf - 76800
  let a := (raw * 2 ^ 14 - h4 * 2 ^ 20 - h5 * x + 16384) / 2 ^ 15
  let d := (x * h6 / 2 ^ 10) * (x * h3 / 2 ^ 11 + 32768) / 2 ^ 10 + 2097152
  let y := a * ((d * h2 + 8192) / 2 ^ 14)
  y - ((y / 2 ^ 15) * (y / 2 ^ 15) / 2 ^ 7) * h1 / 2 ^ 4

/-- The rational a finite binary64 pattern stands for, the sign bit left out (R12). -/
def magnitudeValue (b : DWord) : Rat :=
  let e := (b.extractLsb' 52 11).toNat
  let f := (b.extractLsb' 0 52).toNat
  if e = 0 then (f : Rat) / 2 ^ 1074 else ((2 ^ 52 + f : Nat) : Rat) * 2 ^ e / 2 ^ 1075

/-- The rational a finite binary64 pattern stands for (R12). -/
def value64 (b : DWord) : Rat := if b.msb then - magnitudeValue b else magnitudeValue b

/-- The pattern is finite. -/
def finite64 (b : DWord) : Bool := b.extractLsb' 52 11 != 0x7FF#11

end Sys2Proof.Machine
end

