-- ==== Sys2Proof/Certificates/Slice0/Obligations.lean ====
section
/-! DEFINITION. The statements for the provers. Each docstring names the rule of spec/ it formalises. -/

open Sys2Proof Sys2Proof.Machine

/-! ### Encoding (30_encoding.md) -/

/-- R74: the decoder is total; decoding a command's encoding gives the command back, for every command the assembler can spell,
which is every command; two commands never share a word. -/
def Obligations.DecodeOfEncodeIsTheCommand : Prop :=
  (∀ w, (∃! i, decode w = .ok i) ∨ (∃ e, decode w = .error e)) ∧
  (∀ a i, Asm.assemble a = some i → decode (encode i) = .ok i) ∧
  (∀ i, ∃ a, Asm.assemble a = some i) ∧
  (∀ i j, encode i = encode j → i = j)

/-- R66, R68: each legal word is the encoding of the command it decodes to, so no bit of it is ignored. -/
def Obligations.LegalWordIsItsEncoding : Prop :=
  ∀ w i, decode w = .ok i → encode i = w

/-- R68: every word matches exactly one row of the opcode map, and decodes to a command of that row, or matches none and is
ILLEGAL. -/
def Obligations.WordMatchesOneRowOrIsIllegal : Prop :=
  ∀ w : Word,
    (∃ i, ∃ r ∈ opcodeMap, decode w = .ok i ∧ i.mnemonic = r.mnemonic ∧ r.covers w = true
      ∧ ∀ r' ∈ opcodeMap, r'.covers w = true → r' = r) ∨
    ((∃ e, decode w = .error e) ∧ ∀ r ∈ opcodeMap, r.covers w = false)

/-- R70, R71: the decoder, row by row, on the word with fields o, a, b, c. -/
def Obligations.DecoderFollowsTheOpcodeMap : Prop :=
  ∀ a b c : Byte,
    decode (commandWord 0x01 a b c) = (if c = 0 then .ok (.openBus a b) else .error .reservedField) ∧
    decode (commandWord 0x02 a b c) = (if a = 0 ∧ b = 0 ∧ c = 0 then .ok .close else .error .reservedField) ∧
    decode (commandWord 0x10 a b c) = (if b = 0 ∧ c = 0 then .ok (.rdb a) else .error .reservedField) ∧
    decode (commandWord 0x11 a b c) = (if b = 0 ∧ c = 0 then .ok (.rdw a) else .error .reservedField) ∧
    decode (commandWord 0x12 a b c) = (if b = 0 ∧ c = 0 then .ok (.rdws a) else .error .reservedField) ∧
    decode (commandWord 0x18 a b c) = (if c = 0 then .ok (.wrb a b) else .error .reservedField) ∧
    decode (commandWord 0x19 a b c) = .ok (.wrw a (BitVec.ofNat 16 (b.toNat * 256 + c.toNat))) ∧
    decode (commandWord 0x1A a b c) = (if b = 0 ∧ c = 0 then .ok (.wrc a) else .error .reservedField) ∧
    decode (commandWord 0x1B a b c) = (if a = 0 ∧ b = 0 ∧ c = 0 then .ok .wrblk else .error .reservedField) ∧
    decode (commandWord 0x20 a b c) = (if a = 0 ∧ b = 0 ∧ c = 0 then .ok .ldcal else .error .reservedField) ∧
    decode (commandWord 0x30 a b c) = .ok (.cmpt a b c) ∧
    decode (commandWord 0x31 a b c) = (if c = 0 then .ok (.cmph a b) else .error .reservedField) ∧
    decode (commandWord 0x32 a b c) = .ok (.cmpp a b c) ∧
    (∀ o : Byte, o ∉ [0x01#8, 0x02#8, 0x10#8, 0x11#8, 0x12#8, 0x18#8, 0x19#8, 0x1A#8, 0x1B#8, 0x20#8, 0x30#8, 0x31#8, 0x32#8] →
      decode (commandWord o a b c) = .error .unassignedOpcode)

/-- R66, R67: a word with an assigned opcode and a nonzero reserved field, and a word with an unassigned opcode, complete with
ERR = 8, ERRINFO = 0 and no other effect; CMD_LAST holds the word (R33). -/
def Obligations.IllegalCommandOnlyReports : Prop :=
  ∀ (w : Word) (rest : List HostAction) (s : State), s.host = .write 0x000 32 w :: rest →
    (∀ r ∈ opcodeMap, Word.opc w = Word.opc r.pattern → r.covers w = false →
      step s = .next { s with host := rest, cmdLast := w, err := 8, errinfo := 0 }) ∧
    ((∀ r ∈ opcodeMap, Word.opc w ≠ Word.opc r.pattern) →
      step s = .next { s with host := rest, cmdLast := w, err := 8, errinfo := 0 })

/-- 95_test_vectors.md DE1 to DE17: words of the spec and what they decode to. -/
def Obligations.SpecWordsDecode : Prop :=
  decode 0x01017600#32 = .ok (.openBus 0x01 0x76) ∧ decode 0x02000000#32 = .ok .close ∧
  decode 0x10D00000#32 = .ok (.rdb 0xD0) ∧ decode 0x11880000#32 = .ok (.rdw 0x88) ∧
  decode 0x128C0000#32 = .ok (.rdws 0x8C) ∧ decode 0x18F42700#32 = .ok (.wrb 0xF4 0x27) ∧
  decode 0x19F4FFFF#32 = .ok (.wrw 0xF4 0xFFFF) ∧ decode 0x1AB60000#32 = .ok (.wrc 0xB6) ∧
  decode 0x1B000000#32 = .ok .wrblk ∧ decode 0x20000000#32 = .ok .ldcal ∧
  decode 0x30FFFFFF#32 = .ok (.cmpt 0xFF 0xFF 0xFF) ∧ decode 0x31753000#32 = .ok (.cmph 0x75 0x30) ∧
  decode 0x32655AC0#32 = .ok (.cmpp 0x65 0x5A 0xC0) ∧ decode 0x00000000#32 = .error .unassignedOpcode ∧
  decode 0x10D00001#32 = .error .reservedField

/-- R73: under its condition each pseudo-instruction expands to one command, the raw count's bits in its fields, and the command
computes with exactly that raw count (R97, R98). -/
def Obligations.PseudoInstructionsKeepTheRawCount : Prop :=
  (∀ raw, raw < 2 ^ 20 → ∃ m l x : Byte,
    m.toNat = raw / 4096 ∧ l.toNat = raw / 16 % 256 ∧ x.toNat = raw % 16 * 16 ∧ raw20 m l x = raw ∧
    Asm.assemble (.cmpt20 raw) = some (.cmpt m l x) ∧ Asm.assemble (.cmpp20 raw) = some (.cmpp m l x)) ∧
  (∀ raw, raw < 2 ^ 16 → ∃ m l : Byte,
    m.toNat = raw / 256 ∧ l.toNat = raw % 256 ∧ raw16 m l = raw ∧ Asm.assemble (.cmph16 raw) = some (.cmph m l)) ∧
  (∀ raw, 2 ^ 20 ≤ raw → Asm.assemble (.cmpt20 raw) = none ∧ Asm.assemble (.cmpp20 raw) = none) ∧
  (∀ raw, 2 ^ 16 ≤ raw → Asm.assemble (.cmph16 raw) = none) ∧
  (Asm.assemble (.cmpt20 519888)).map encode = some 0x307EED00

/-- R72: an operand that does not fit its field (0 to 255; 0 to 65535 for WRW's value) is an assembly error, not a truncation, and so is
a host value of 2^32 or more; operands that fit assemble to the command that is named, each operand as written; and writing a
command's word to offset 0 is the same as issuing the command. That HW and HR take any number as their offset is the model's choice
(log 17); R72 gives no rule for it. Pseudo-instructions: `PseudoInstructionsKeepTheRawCount`. -/
def Obligations.AssemblerNeverTruncates : Prop :=
  (∀ bus addr, 256 ≤ bus ∨ 256 ≤ addr → Asm.assemble (.openBus bus addr) = none) ∧
  (∀ reg, 256 ≤ reg → Asm.assemble (.rdb reg) = none ∧ Asm.assemble (.rdw reg) = none ∧ Asm.assemble (.rdws reg) = none) ∧
  (∀ reg value, 256 ≤ reg ∨ 256 ≤ value → Asm.assemble (.wrb reg value) = none) ∧
  (∀ reg value, 256 ≤ reg ∨ 65536 ≤ value → Asm.assemble (.wrw reg value) = none) ∧
  (∀ byte, 256 ≤ byte → Asm.assemble (.wrc byte) = none) ∧
  (∀ msb lsb xsb, 256 ≤ msb ∨ 256 ≤ lsb ∨ 256 ≤ xsb →
    Asm.assemble (.cmpt msb lsb xsb) = none ∧ Asm.assemble (.cmpp msb lsb xsb) = none) ∧
  (∀ msb lsb, 256 ≤ msb ∨ 256 ≤ lsb → Asm.assemble (.cmph msb lsb) = none) ∧
  (∀ (a b c : Byte) (v : Half),
    Asm.assemble (.openBus a.toNat b.toNat) = some (.openBus a b) ∧ Asm.assemble .close = some .close ∧
    Asm.assemble (.rdb a.toNat) = some (.rdb a) ∧ Asm.assemble (.rdw a.toNat) = some (.rdw a) ∧
    Asm.assemble (.rdws a.toNat) = some (.rdws a) ∧ Asm.assemble (.wrb a.toNat b.toNat) = some (.wrb a b) ∧
    Asm.assemble (.wrw a.toNat v.toNat) = some (.wrw a v) ∧ Asm.assemble (.wrc a.toNat) = some (.wrc a) ∧
    Asm.assemble .wrblk = some .wrblk ∧ Asm.assemble .ldcal = some .ldcal ∧
    Asm.assemble (.cmpt a.toNat b.toNat c.toNat) = some (.cmpt a b c) ∧
    Asm.assemble (.cmph a.toNat b.toNat) = some (.cmph a b) ∧
    Asm.assemble (.cmpp a.toNat b.toNat c.toNat) = some (.cmpp a b c)) ∧
  (∀ a i, (∀ raw, a ≠ .cmpt20 raw ∧ a ≠ .cmpp20 raw ∧ a ≠ .cmph16 raw) → Asm.assemble a = some i →
    i.operands = a.operands) ∧
  (∀ a, a.wf = false → Asm.assemble a = none ∧ (AsmLine.command a).action = none) ∧
  (∀ offset value, 2 ^ 32 ≤ value → (AsmLine.hw offset value).action = none) ∧
  (∀ (offset : Nat) (w : Word), (AsmLine.hw offset w.toNat).action = some (.write offset 32 w)) ∧
  (∀ offset, (AsmLine.hr offset).action = some (.read offset 32)) ∧
  (∀ a i, Asm.assemble a = some i →
    (AsmLine.command a).action = some (.write 0x000 32 (encode i)) ∧
    (AsmLine.command a).action = (AsmLine.hw 0x000 (encode i).toNat).action)

/-! ### The host and its port (20_memory.md) -/

/-- R57, R58: a write of a command's word to CMD runs the command, CMD_LAST holding the word; nothing else happens around it but
that the host's action is done. -/
def Obligations.StepRunsTheDecodedCommand : Prop :=
  ∀ (w : Word) (i : Instr) (rest : List HostAction) (s : State),
    s.host = .write 0x000 32 w :: rest → decode w = .ok i → step s = exec i { s with host := rest, cmdLast := w }

/-- R58, R60: what a read of each listed register gives, at every offset of the map; a read has no side effect but that the host
has read the word. -/
def Obligations.HostReadsGiveTheMap : Prop :=
  ∀ (offset : Nat) (rest : List HostAction) (s : State), s.host = .read offset 32 :: rest →
    (∀ v, (offset, v) ∈
        [ (0x000, s.cmdLast), (0x004, BitVec.ofNat 32 s.err.toNat), (0x008, s.errinfo), (0x00C, s.res),
          (0x010, BitVec.ofNat 32 s.resf.toNat), (0x014, BitVec.ofNat 32 (s.resf.toNat / 2 ^ 32)),
          (0x018, BitVec.ofNat 32 (s.hOpen.toNat + 2 * s.calValid.toNat + 4 * s.tfValid.toNat + 8 * s.ovf.toNat
            + 16 * s.zdiv.toNat + 32 * s.sat.toNat + 64 * s.sovf.toNat)),
          (0x01C, s.tf), (0x020, s.blkLen), (0x024, BitVec.ofNat 32 (s.hBus.toNat + 256 * s.hAddr.toNat)),
          (0x040, BitVec.ofNat 32 s.cal.t1.toNat), (0x044, BitVec.ofInt 32 s.cal.t2.toInt),
          (0x048, BitVec.ofInt 32 s.cal.t3.toInt), (0x04C, BitVec.ofNat 32 s.cal.p1.toNat),
          (0x050, BitVec.ofInt 32 s.cal.p2.toInt), (0x054, BitVec.ofInt 32 s.cal.p3.toInt),
          (0x058, BitVec.ofInt 32 s.cal.p4.toInt), (0x05C, BitVec.ofInt 32 s.cal.p5.toInt),
          (0x060, BitVec.ofInt 32 s.cal.p6.toInt), (0x064, BitVec.ofInt 32 s.cal.p7.toInt),
          (0x068, BitVec.ofInt 32 s.cal.p8.toInt), (0x06C, BitVec.ofInt 32 s.cal.p9.toInt),
          (0x070, BitVec.ofNat 32 s.cal.h1.toNat), (0x074, BitVec.ofInt 32 s.cal.h2.toInt),
          (0x078, BitVec.ofNat 32 s.cal.h3.toNat), (0x07C, BitVec.ofInt 32 s.cal.h4.toInt),
          (0x080, BitVec.ofInt 32 s.cal.h5.toInt), (0x084, BitVec.ofInt 32 s.cal.h6.toInt) ] →
      step s = .next { s with host := rest, hostReads := s.hostReads ++ [(offset, v)] }) ∧
    (∀ i, i < s.params.blkMax → offset = 0x100 + 4 * i →
      step s = .next { s with
        host := rest, hostReads := s.hostReads ++ [(offset, BitVec.ofNat 32 (Memory.read s.blkBuf i).toNat)] })

/-- R58, R59, R60: a write to BLK_LEN stores the word; a write to BLK_BUF_i stores bits [7:0] at index i and changes no other
byte, in canonical form; a write to a read-only register changes nothing. -/
def Obligations.HostWritesDoWhatTheMapSays : Prop :=
  ∀ (offset : Nat) (v : Word) (rest : List HostAction) (s : State), s.host = .write offset 32 v :: rest →
    (offset = 0x020 → step s = .next { s with host := rest, blkLen := v }) ∧
    (∀ i, i < s.params.blkMax → offset = 0x100 + 4 * i → Memory.wf s.blkBuf →
      ∃ m, step s = .next { s with host := rest, blkBuf := m } ∧ Memory.wf m
        ∧ (Memory.read m i).toNat = v.toNat % 256 ∧ ∀ j, j ≠ i → Memory.read m j = Memory.read s.blkBuf j) ∧
    (offset ∈ [0x004, 0x008, 0x00C, 0x010, 0x014, 0x018, 0x01C, 0x024] ∨ (0x040 ≤ offset ∧ offset ≤ 0x084 ∧ offset % 4 = 0) →
      step s = .next { s with host := rest })

/-- R59: an access that is not 32 bits wide, or at an offset that is not a multiple of 4, or not listed in R58, has no step; every
listed read, the one of CMD among them, has one; every listed write has one, but that a write to CMD has the one its command has and
is never refused; a write to a read-only register changes nothing. The refusals' names and their order are the model's (log 15). -/
def Obligations.UnlistedAccessesAreRefused : Prop :=
  ∀ (offset width : Nat) (v : Word) (rest : List HostAction) (s : State),
    (∀ a ∈ [HostAction.write offset width v, HostAction.read offset width], s.host = a :: rest →
      (width ≠ 32 → step s = .refused (.accessWidth width)) ∧
      (width = 32 → offset % 4 ≠ 0 → step s = .refused (.accessMisaligned offset)) ∧
      (width = 32 → offset % 4 = 0 →
        (0x028 ≤ offset ∧ offset < 0x040) ∨ (0x088 ≤ offset ∧ offset < 0x100) ∨ 0x100 + 4 * s.params.blkMax ≤ offset →
        step s = .refused (.accessUnmapped offset)) ∧
      (width = 32 → offset % 4 = 0 →
        offset < 0x028 ∨ (0x040 ≤ offset ∧ offset < 0x088) ∨ (0x100 ≤ offset ∧ offset < 0x100 + 4 * s.params.blkMax) →
        (a = .read offset width ∨ 0 < offset → ∃ t, step s = .next t) ∧ ∀ r, step s ≠ .refused r)) ∧
    (s.host = .write offset 32 v :: rest →
      offset ∈ [0x004, 0x008, 0x00C, 0x010, 0x014, 0x018, 0x01C, 0x024] ∨ (0x040 ≤ offset ∧ offset ≤ 0x084 ∧ offset % 4 = 0) →
      step s = .next { s with host := rest })

/-- R122: the run ends when the last host action completes, and not before: with an action left, step performs it. The fault's name
is the model's (log 1). -/
def Obligations.RunEndsWithTheHostsActions : Prop :=
  ∀ s : State, step s = .fault .runEnded ↔ s.host = []

/-! ### Bus handle and transactions (40_transaction.md)

What a transport call answers is a draw (R119; log 3): a hypothesis `callOk`, `callFails` or `draw` fixes it. `s.after evs` is `s` with
the events `evs` at the end of TH. -/

/-- R78: OPEN. -/
def Obligations.OpenSelectsTheSlave : Prop :=
  ∀ (bus addr : Byte) (s : State),
    encode (.openBus bus addr) = commandWord 0x01 bus addr 0 ∧
    (s.hOpen = true → exec (.openBus bus addr) s = .next { s with err := 1, errinfo := 0 }) ∧
    (∀ c, s.hOpen = false → s.callFails 0 c →
      exec (.openBus bus addr) s = .next { s.after [.open_ bus (.fail c)] with
        err := 2, errinfo := c.code }) ∧
    (∀ c a, s.hOpen = false → s.callOk 0 → s.callFails 1 c → s.draw 2 = .returns a →
      exec (.openBus bus addr) s = .next { s.after [.open_ bus .ok, .select addr (.fail c), .close] with
        err := 3, errinfo := c.code }) ∧
    (s.hOpen = false → s.callOk 0 → s.callOk 1 →
      exec (.openBus bus addr) s = .next { s.after [.open_ bus .ok, .select addr .ok] with
        hOpen := true, hBus := bus, hAddr := addr, hTx := .live,
        err := 0, errinfo := 0 })

/-- R79: CLOSE. -/
def Obligations.CloseReleasesOnce : Prop :=
  ∀ s : State,
    encode .close = commandWord 0x02 0 0 0 ∧
    (s.hOpen = false → exec .close s = .next { s with err := 0, errinfo := 0 }) ∧
    (∀ a, s.hOpen = true → s.draw 0 = .returns a →
      exec .close s = .next { s.after [.close] with
        hOpen := false, hTx := .none, err := 0, errinfo := 0 })

/-- R80: RDB. -/
def Obligations.ReadByteCommand : Prop :=
  ∀ (reg : Byte) (s : State),
    encode (.rdb reg) = commandWord 0x10 reg 0 0 ∧
    (s.hOpen = false → exec (.rdb reg) s = .next { s with err := 1, errinfo := 0 }) ∧
    (∀ c, s.hOpen = true → s.callFails 0 c →
      exec (.rdb reg) s = .next { s.after [.write [reg] (.fail c)] with
        err := 4, errinfo := c.code }) ∧
    (∀ c, s.hOpen = true → s.callOk 0 → s.callFails 1 c →
      exec (.rdb reg) s = .next { s.after [.write [reg] .ok, .read 1 (.fail c)] with
        err := 4, errinfo := c.code }) ∧
    (∀ b0 b1, s.hOpen = true → s.callOk 0 → s.draw 1 = .returns (.ok b0 b1) →
      exec (.rdb reg) s = .next { s.after [.write [reg] .ok, .read 1 (.ok [b0])] with
        res := BitVec.ofNat 32 b0.toNat,
        err := 0, errinfo := 0 })

/-- R81, R46: RDW, big-endian, never sign-extended; a short reply is TransportError(0xFFFFFFFF). -/
def Obligations.ReadWordCommand : Prop :=
  ∀ (reg : Byte) (s : State),
    encode (.rdw reg) = commandWord 0x11 reg 0 0 ∧
    (s.hOpen = false → exec (.rdw reg) s = .next { s with err := 1, errinfo := 0 }) ∧
    (∀ c, s.hOpen = true → s.callFails 0 c →
      exec (.rdw reg) s = .next { s.after [.write [reg] (.fail c)] with
        err := 4, errinfo := c.code }) ∧
    (∀ c, s.hOpen = true → s.callOk 0 → s.callFails 1 c →
      exec (.rdw reg) s = .next { s.after [.write [reg] .ok, .read 2 (.fail c)] with
        err := 4, errinfo := c.code }) ∧
    (s.hOpen = true → s.callOk 0 → s.draw 1 = .returns .short →
      ∃ t, exec (.rdw reg) s = .next t ∧ t.err = 4 ∧ t.errinfo = 0xFFFFFFFF ∧ t.res = s.res) ∧
    (∀ b0 b1, s.hOpen = true → s.callOk 0 → s.draw 1 = .returns (.ok b0 b1) →
      exec (.rdw reg) s = .next { s.after [.write [reg] .ok, .read 2 (.ok [b0, b1])] with
        res := BitVec.ofNat 32 (b0.toNat * 256 + b1.toNat),
        err := 0, errinfo := 0 })

/-- R82: RDWS, big-endian, sign-extended from 16 bits. -/
def Obligations.ReadSignedWordCommand : Prop :=
  ∀ (reg : Byte) (s : State),
    encode (.rdws reg) = commandWord 0x12 reg 0 0 ∧
    (s.hOpen = false → exec (.rdws reg) s = .next { s with err := 1, errinfo := 0 }) ∧
    (∀ c, s.hOpen = true → s.callFails 0 c →
      exec (.rdws reg) s = .next { s.after [.write [reg] (.fail c)] with
        err := 4, errinfo := c.code }) ∧
    (∀ c, s.hOpen = true → s.callOk 0 → s.callFails 1 c →
      exec (.rdws reg) s = .next { s.after [.write [reg] .ok, .read 2 (.fail c)] with
        err := 4, errinfo := c.code }) ∧
    (s.hOpen = true → s.callOk 0 → s.draw 1 = .returns .short →
      ∃ t, exec (.rdws reg) s = .next t ∧ t.err = 4 ∧ t.errinfo = 0xFFFFFFFF ∧ t.res = s.res) ∧
    (∀ b0 b1, s.hOpen = true → s.callOk 0 → s.draw 1 = .returns (.ok b0 b1) →
      exec (.rdws reg) s = .next { s.after [.write [reg] .ok, .read 2 (.ok [b0, b1])] with
        res := BitVec.ofInt 32
          (if b0.toNat < 128 then (b0.toNat * 256 + b1.toNat : Int) else (b0.toNat * 256 + b1.toNat : Int) - 65536),
        err := 0, errinfo := 0 })

/-- R83: WRB. -/
def Obligations.WriteByteCommand : Prop :=
  ∀ (reg value : Byte) (s : State),
    encode (.wrb reg value) = commandWord 0x18 reg value 0 ∧
    (s.hOpen = false → exec (.wrb reg value) s = .next { s with err := 1, errinfo := 0 }) ∧
    (∀ c, s.hOpen = true → s.callFails 0 c →
      exec (.wrb reg value) s = .next { s.after [.write [reg, value] (.fail c)] with
        err := 4, errinfo := c.code }) ∧
    (s.hOpen = true → s.callOk 0 →
      exec (.wrb reg value) s = .next { s.after [.write [reg, value] .ok] with
        err := 0, errinfo := 0 })

/-- R84, R47: WRW sends the address, the high byte, the low byte. -/
def Obligations.WriteWordCommand : Prop :=
  ∀ (reg hi lo : Byte) (value : Half) (s : State), value.toNat = hi.toNat * 256 + lo.toNat →
    encode (.wrw reg value) = commandWord 0x19 reg hi lo ∧
    (s.hOpen = false → exec (.wrw reg value) s = .next { s with err := 1, errinfo := 0 }) ∧
    (∀ c, s.hOpen = true → s.callFails 0 c →
      exec (.wrw reg value) s = .next { s.after [.write [reg, hi, lo] (.fail c)] with
        err := 4, errinfo := c.code }) ∧
    (s.hOpen = true → s.callOk 0 →
      exec (.wrw reg value) s = .next { s.after [.write [reg, hi, lo] .ok] with
        err := 0, errinfo := 0 })

/-- R85: WRC sends its byte with no address. -/
def Obligations.WriteCommandCommand : Prop :=
  ∀ (cmd : Byte) (s : State),
    encode (.wrc cmd) = commandWord 0x1A cmd 0 0 ∧
    (s.hOpen = false → exec (.wrc cmd) s = .next { s with err := 1, errinfo := 0 }) ∧
    (∀ c, s.hOpen = true → s.callFails 0 c →
      exec (.wrc cmd) s = .next { s.after [.write [cmd] (.fail c)] with
        err := 4, errinfo := c.code }) ∧
    (s.hOpen = true → s.callOk 0 →
      exec (.wrc cmd) s = .next { s.after [.write [cmd] .ok] with
        err := 0, errinfo := 0 })

/-- R86: WRBLK, every length from below 0 to above BLK_MAX. -/
def Obligations.WriteBlockCommand : Prop :=
  ∀ s : State,
    encode .wrblk = commandWord 0x1B 0 0 0 ∧
    (s.hOpen = false → exec .wrblk s = .next { s with err := 1, errinfo := 0 }) ∧
    (s.hOpen = true → s.blkLen.toInt < 0 ∨ (s.params.blkMax : Int) < s.blkLen.toInt →
      exec .wrblk s = .next { s with err := 1, errinfo := 0 }) ∧
    (s.hOpen = true → s.blkLen.toInt = 0 → exec .wrblk s = .next { s with err := 0, errinfo := 0 }) ∧
    (∀ n : Nat, s.hOpen = true → s.blkLen.toInt = n → 0 < n → n ≤ s.params.blkMax →
      (∀ c, s.callFails 0 c →
        exec .wrblk s = .next { s.after [.write ((List.range n).map (Memory.read s.blkBuf)) (.fail c)] with
          err := 4, errinfo := c.code }) ∧
      (s.draw 0 = .returns .short → ∃ t, exec .wrblk s = .next t ∧ t.err = 4 ∧ t.errinfo = 0xFFFFFFFF) ∧
      (s.callOk 0 →
        exec .wrblk s = .next { s.after [.write ((List.range n).map (Memory.read s.blkBuf)) .ok] with
          err := 0, errinfo := 0 }))

/-- R75: with no handle open the seven transaction commands raise InvalidArgument and make no transport call, CLOSE completes, and
OPEN raises InvalidArgument exactly with a handle open. -/
def Obligations.HandleCheckComesFirst : Prop :=
  ∀ s : State,
    (s.hOpen = false →
      (∀ i, (∃ r, i = .rdb r ∨ i = .rdw r ∨ i = .rdws r ∨ i = .wrc r) ∨ (∃ r v, i = .wrb r v) ∨ (∃ r v, i = .wrw r v)
          ∨ i = .wrblk →
        exec i s = .next { s with err := 1, errinfo := 0 }) ∧
      exec .close s = .next { s with err := 0, errinfo := 0 }) ∧
    (∀ bus addr t, exec (.openBus bus addr) s = .next t → (t.err = 1 ↔ s.hOpen = true))

/-- R77: what a command of 40_transaction.md writes: ERR and ERRINFO, RES by a read, the handle by OPEN and CLOSE, TH; every other
register is unchanged, and a command that completes leaves ERRINFO = 0. -/
def Obligations.TransactionsLeaveTheEngineAlone : Prop :=
  ∀ (i : Instr) (s t : State), exec i s = .next t →
    i.mnemonic ∈ ["OPEN", "CLOSE", "RDB", "RDW", "RDWS", "WRB", "WRW", "WRC", "WRBLK"] →
    t = { s with
      err := t.err, errinfo := t.errinfo, th := t.th, calls := t.calls, res := t.res,
      hOpen := t.hOpen, hBus := t.hBus, hAddr := t.hAddr, hTx := t.hTx } ∧
    (t.err = 0 → t.errinfo = 0) ∧
    (i.mnemonic ∉ ["RDB", "RDW", "RDWS"] → t.res = s.res) ∧
    (i.mnemonic ∉ ["OPEN", "CLOSE"] →
      t.hOpen = s.hOpen ∧ t.hBus = s.hBus ∧ t.hAddr = s.hAddr ∧ t.hTx = s.hTx)

/-- R17: no step changes the bus number or the slave address of a handle that stays open, and CLOSE leaves both. -/
def Obligations.HandleIsFixedWhileOpen : Prop :=
  ∀ s t : State, step s = .next t → s.hOpen = true → t.hBus = s.hBus ∧ t.hAddr = s.hAddr

/-- R120, R122: a command stops exactly when a transport call that it makes never returns, at its first call as at any later one; it
never answers a refusal. The fault's name is the model's (log 4). That BusClose is such a call, so that CLOSE, and OPEN after a failed
select, may be stuck in it, is the model's deduction (log 14), beside R79's 'CLOSE always completes with ERR = 0'. -/
def Obligations.OnlyNeverReturningCallsStick : Prop :=
  (∀ i s f, exec i s = .fault f → f = .transportNeverReturns ∧ ∃ k, s.makesCall i k ∧ s.draw k = .never) ∧
  (∀ i (s : State) k, s.makesCall i k → s.draw k = .never → exec i s = .fault .transportNeverReturns) ∧
  (∀ i s r, exec i s ≠ .refused r) ∧
  (∀ s : State, s.draw 0 = .never →
    (∀ bus addr, s.hOpen = false → exec (.openBus bus addr) s = .fault .transportNeverReturns) ∧
    (∀ i, s.hOpen = true →
      (∃ r, i = .rdb r ∨ i = .rdw r ∨ i = .rdws r ∨ i = .wrc r) ∨ (∃ r v, i = .wrb r v) ∨ (∃ r v, i = .wrw r v)
        ∨ i = .close ∨ i = .ldcal ∨ (i = .wrblk ∧ 0 < s.blkLen.toInt ∧ s.blkLen.toInt ≤ s.params.blkMax) →
      exec i s = .fault .transportNeverReturns))

/-- R142: every command, in every state, completes when every transport call it makes returns; and the calls `makesCall` speaks of are
those counted when it completes. BusClose is one of them, and may not return, by the model's deduction (log 14). -/
def Obligations.EveryCommandCompletesIfItsCallsReturn : Prop :=
  (∀ (i : Instr) (s : State), (∀ k, s.makesCall i k → s.draw k ≠ .never) → ∃ t, exec i s = .next t) ∧
  (∀ (i : Instr) (s t : State), exec i s = .next t → ∀ k, s.makesCall i k ↔ s.calls + k < t.calls)

/-- R11, R62: a command that ends by raise writes ERR and ERRINFO, makes its transport events, and nothing else, except the writes
R94 names for LDCAL. -/
def Obligations.RaiseWritesNothingElse : Prop :=
  ∀ (i : Instr) (s t : State), exec i s = .next t → t.err ≠ 0 →
    (i ≠ .ldcal → t = { s with err := t.err, errinfo := t.errinfo, th := t.th, calls := t.calls }) ∧
    (i = .ldcal → t = { s with
      err := t.err, errinfo := t.errinfo, th := t.th, calls := t.calls, res := t.res, cal := t.cal,
      calValid := t.calValid, tfValid := t.tfValid })

/-- R111: which command ends with which code, when, and with what ERRINFO; a decoded command never reports 5, 8, 9 or above, and a
word that does not decode reports 8. The calls' outcomes are draws (log 3). -/
def Obligations.CompletionCodesFollowTheTable : Prop :=
  (∀ (w : Word) (e : Reject) (s : State), decode w = .error e →
    issue w s = .next { s with cmdLast := w, err := 8, errinfo := 0 }) ∧
  ∀ (i : Instr) (s t : State), exec i s = .next t →
    (t.err = 1 ↔
      (s.hOpen = false ∧ i.mnemonic ∈ ["RDB", "RDW", "RDWS", "WRB", "WRW", "WRC", "WRBLK", "LDCAL"]) ∨
      (s.hOpen = true ∧ i.mnemonic ∈ ["OPEN"]) ∨
      (s.hOpen = true ∧ i.mnemonic ∈ ["WRBLK"] ∧ (s.blkLen.toInt < 0 ∨ (s.params.blkMax : Int) < s.blkLen.toInt))) ∧
    (t.err = 6 ↔
      (s.calValid = false ∧ i.mnemonic ∈ ["CMPT", "CMPH", "CMPP"]) ∨
      (s.tfValid = false ∧ i.mnemonic ∈ ["CMPH", "CMPP"])) ∧
    (t.err = 2 → i.mnemonic ∈ ["OPEN"] ∧ ∃ c, s.callFails 0 c ∧ t.errinfo = c.code) ∧
    (t.err = 3 → i.mnemonic ∈ ["OPEN"] ∧ s.callOk 0 ∧ ∃ c, s.callFails 1 c ∧ t.errinfo = c.code) ∧
    (t.err = 4 → i.mnemonic ∈ ["RDB", "RDW", "RDWS", "WRB", "WRW", "WRC", "WRBLK"] ∧
      ∃ k c, k < 2 ∧ s.callFails k c ∧ t.errinfo = c.code) ∧
    (t.err = 7 → i.mnemonic ∈ ["LDCAL"] ∧
      ∃ k c reg, calAddresses[k / 2]? = some reg ∧ s.callFails k c ∧ t.errinfo = c.code ∧ t.res = zext32 reg) ∧
    (t.err ∈ [(0 : BitVec 4), 1, 6] → t.errinfo = 0) ∧ t.err ∈ [(0 : BitVec 4), 1, 2, 3, 4, 6, 7]

/-- R115: an error is not sticky: what a command does does not depend on ERR or ERRINFO, and every command overwrites both. -/
def Obligations.ErrorsAreNotSticky : Prop :=
  ∀ (i : Instr) (s : State) (e : BitVec 4) (n : Word), exec i { s with err := e, errinfo := n } = exec i s

/-! ### Calibration (41_calibration.md) -/

/-- R90, R91, R92: the store assembled from the registers' bytes, as numbers. -/
def Obligations.CalibrationAssembly : Prop :=
  ∀ (pack : HumPack) (r : Byte → Byte),
    (∀ a, (pair r a).toNat = (r (a + 1)).toNat * 256 + (r a).toNat) ∧
    (assembleCal pack r).t1.toNat = (r 0x89).toNat * 256 + (r 0x88).toNat ∧
    (assembleCal pack r).p1.toNat = (r 0x8F).toNat * 256 + (r 0x8E).toNat ∧
    (∀ p ∈ [((assembleCal pack r).t2, r 0x8A, r 0x8B), ((assembleCal pack r).t3, r 0x8C, r 0x8D),
        ((assembleCal pack r).p2, r 0x90, r 0x91), ((assembleCal pack r).p3, r 0x92, r 0x93),
        ((assembleCal pack r).p4, r 0x94, r 0x95), ((assembleCal pack r).p5, r 0x96, r 0x97),
        ((assembleCal pack r).p6, r 0x98, r 0x99), ((assembleCal pack r).p7, r 0x9A, r 0x9B),
        ((assembleCal pack r).p8, r 0x9C, r 0x9D), ((assembleCal pack r).p9, r 0x9E, r 0x9F),
        ((assembleCal pack r).h2, r 0xE1, r 0xE2)],
      p.1.toInt = p.2.2.toInt * 256 + p.2.1.toNat) ∧
    (assembleCal pack r).h1 = r 0xA1 ∧ (assembleCal pack r).h3 = r 0xE3 ∧ (assembleCal pack r).h6 = r 0xE7 ∧
    (pack = .source →
      (assembleCal pack r).h4.toInt = (r 0xE5).toNat % 16 * 256 + (r 0xE4).toNat ∧
      (assembleCal pack r).h5.toInt = (r 0xE6).toNat * 16 + (r 0xE5).toNat / 16) ∧
    (pack = .datasheet →
      (assembleCal pack r).h4.toInt = (r 0xE4).toInt * 16 + (r 0xE5).toNat % 16 ∧
      (assembleCal pack r).h5.toInt = (r 0xE6).toInt * 16 + (r 0xE5).toNat / 16) ∧
    twelveBit pack (assembleCal pack r).h4 ∧ twelveBit pack (assembleCal pack r).h5

/-- R89, R93: an LDCAL whose calls all succeed reads the 32 addresses in order and replaces the store; the first failing call ends it.
The calls' outcomes are draws (log 3). -/
def Obligations.LoadCalibrationCommand : Prop :=
  encode .ldcal = commandWord 0x20 0 0 0 ∧
  calAddresses =
    [ 0x88, 0x89, 0x8A, 0x8B, 0x8C, 0x8D, 0x8E, 0x8F, 0x90, 0x91, 0x92, 0x93, 0x94, 0x95, 0x96, 0x97,
      0x98, 0x99, 0x9A, 0x9B, 0x9C, 0x9D, 0x9E, 0x9F, 0xA1, 0xE1, 0xE2, 0xE3, 0xE4, 0xE5, 0xE6, 0xE7 ] ∧
  ∀ (r : Byte → Byte) (s : State),
    (s.hOpen = false → exec .ldcal s = .next { s with err := 1, errinfo := 0 }) ∧
    (s.hOpen = true → s.callsRead calAddresses r →
      exec .ldcal s = .next { s.after (readsOf calAddresses r) with
        cal := assembleCal s.params.humPack r, calValid := true, tfValid := false,
        err := 0, errinfo := 0 }) ∧
    (∀ front reg rest c, calAddresses = front ++ reg :: rest → s.hOpen = true → s.callsRead front r →
      s.callFails (2 * front.length) c ∨ s.callOk (2 * front.length) ∧ s.callFails (2 * front.length + 1) c →
      ∃ t, exec .ldcal s = .next t ∧ t.err = 7 ∧ t.errinfo = c.code ∧ t.calValid = false ∧ t.tfValid = false)

/-- R94: an LDCAL whose write or read of `reg` is the first call to fail stops there: RES holds the address, the store is some store,
both valid bits are clear. -/
def Obligations.LoadCalibrationStopsAtTheFirstFailure : Prop :=
  ∀ (r : Byte → Byte) (front rest : List Byte) (reg : Byte) (c : FailCode) (s : State),
    calAddresses = front ++ reg :: rest → s.hOpen = true → s.callsRead front r →
    (s.callFails (2 * front.length) c →
      ∃ cal, exec .ldcal s = .next { s.after (readsOf front r ++ [.write [reg] (.fail c)]) with
        res := BitVec.ofNat 32 reg.toNat, cal := cal, calValid := false, tfValid := false,
        err := 7, errinfo := c.code }) ∧
    (s.callOk (2 * front.length) → s.callFails (2 * front.length + 1) c →
      ∃ cal, exec .ldcal s = .next { s.after (readsOf front r ++ [.write [reg] .ok, .read 1 (.fail c)]) with
        res := BitVec.ofNat 32 reg.toNat, cal := cal, calValid := false, tfValid := false,
        err := 7, errinfo := c.code })

/-- R137: after any LDCAL that passes its handle check, a CMPH or CMPP raises PreconditionViolation. -/
def Obligations.LdcalUnsetsFineTemperature : Prop :=
  ∀ s t : State, s.hOpen = true → exec .ldcal s = .next t →
    t.tfValid = false ∧ t.tf = s.tf ∧
    (∀ msb lsb, exec (.cmph msb lsb) t = .next { t with err := 6, errinfo := 0 }) ∧
    (∀ msb lsb xsb, exec (.cmpp msb lsb xsb) t = .next { t with err := 6, errinfo := 0 })

/-! ### Compensation (42_compensation.md) -/

/-- R99, R100: the S32 operations wrap their exact result and set the indicator when it does not fit; a right shift is floor
division and sets nothing. -/
def Obligations.SignedOperationsWrapAndFlag : Prop :=
  ∀ (a b : S32) (k : Nat),
    (∀ p ∈ [(a.add b, a.int + b.int), (a.sub b, a.int - b.int), (a.mul b, a.int * b.int)],
      p.1.int = Int.bmod p.2 (2 ^ 32) ∧
      (p.1.ovf = true ↔ a.ovf = true ∨ b.ovf = true ∨ p.2 < -2 ^ 31 ∨ 2 ^ 31 - 1 < p.2)) ∧
    (a.shl k).int = Int.bmod (a.int * 2 ^ k) (2 ^ 32) ∧
    ((a.shl k).ovf = true ↔ a.ovf = true ∨ a.int * 2 ^ k < -2 ^ 31 ∨ 2 ^ 31 - 1 < a.int * 2 ^ k) ∧
    (a.shr k).int = Int.floor ((a.int : Rat) / 2 ^ k) ∧ (a.shr k).ovf = a.ovf

/-- R101: the U32 operations are arithmetic mod 2^32 and set no indicator; conversions keep the bit pattern. -/
def Obligations.UnsignedOperationsWrap : Prop :=
  ∀ (a b : U32) (k : Nat),
    ((a.add b).bits.toNat : Int) = (a.bits.toNat + b.bits.toNat : Int) % 2 ^ 32 ∧
    ((a.sub b).bits.toNat : Int) = (a.bits.toNat - b.bits.toNat : Int) % 2 ^ 32 ∧
    ((a.mul b).bits.toNat : Int) = (a.bits.toNat * b.bits.toNat : Int) % 2 ^ 32 ∧
    (a.shl k).bits.toNat = a.bits.toNat * 2 ^ k % 2 ^ 32 ∧ (a.shr k).bits.toNat = a.bits.toNat / 2 ^ k ∧
    (0 < b.bits.toNat → (a.div b).bits.toNat = a.bits.toNat / b.bits.toNat) ∧
    (a.lt b = true ↔ a.bits.toNat < b.bits.toNat) ∧
    (∀ x ∈ [a.add b, a.sub b, a.mul b, a.div b], x.ovf = (a.ovf || b.ovf)) ∧
    (a.shl k).ovf = a.ovf ∧ (a.shr k).ovf = a.ovf ∧
    a.toS32.int = (if a.bits.toNat < 2 ^ 31 then (a.bits.toNat : Int) else a.bits.toNat - 2 ^ 32) ∧
    (∀ c : S32, (c.toU32.bits.toNat : Int) = c.int % 2 ^ 32)

/-- R105: the preconditions of the compensation commands. -/
def Obligations.CompensationNeedsItsInputs : Prop :=
  ∀ s : State,
    (s.calValid = false → ∀ m l x, exec (.cmpt m l x) s = .next { s with err := 6, errinfo := 0 }) ∧
    (s.calValid = false ∨ s.tfValid = false →
      (∀ m l, exec (.cmph m l) s = .next { s with err := 6, errinfo := 0 }) ∧
      (∀ m l x, exec (.cmpp m l x) s = .next { s with err := 6, errinfo := 0 }))

/-- R106 (with R97, R99, R103): CMPT, each intermediate an integer that is wrapped where an S32 operation wraps it. -/
def Obligations.TemperatureFormula : Prop :=
  ∀ (m l x : Byte) (s : State), encode (.cmpt m l x) = commandWord 0x30 m l x ∧
    (s.calValid = false → exec (.cmpt m l x) s = .next { s with err := 6, errinfo := 0 }) ∧
    (s.calValid = true →
    let raw : Int := m.toNat * 4096 + l.toNat * 16 + x.toNat / 16
    let t1 : Int := s.cal.t1.toNat
    let r1 := (raw / 8 - t1 * 2) * s.cal.t2.toInt
    let d := raw / 16 - t1
    let r2 := d * d
    let r3 := wrap32 r2 / 2 ^ 12 * s.cal.t3.toInt
    let r4 := wrap32 r1 / 2 ^ 11 + wrap32 r3 / 2 ^ 14
    let tf := wrap32 r4
    let r5 := tf * 5
    let r6 := wrap32 r5 + 128
    let t := wrap32 r6 / 2 ^ 8
    let o := someOverflow [r1, r2, r3, r4, r5, r6]
    exec (.cmpt m l x) s = .next { s with
      tf := BitVec.ofInt 32 tf, tfValid := true, res := BitVec.ofInt 32 t, resf := bits64 t 100,
      ovf := o, zdiv := false, sat := false, sovf := s.sovf || o, err := 0, errinfo := 0 })

/-- R107 (with R98, R99, R103): CMPH, each intermediate an integer that is wrapped where an S32 operation wraps it. -/
def Obligations.HumidityFormula : Prop :=
  ∀ (m l : Byte) (s : State), encode (.cmph m l) = commandWord 0x31 m l 0 ∧
    (s.calValid = false ∨ s.tfValid = false → exec (.cmph m l) s = .next { s with err := 6, errinfo := 0 }) ∧
    (s.calValid = true → s.tfValid = true →
    let raw : Int := m.toNat * 256 + l.toNat
    let x0 := s.tf.toInt - 76800
    let x := wrap32 x0
    let a1 := raw * 2 ^ 14
    let a2 := s.cal.h4.toInt * 2 ^ 20
    let a3 := s.cal.h5.toInt * x
    let a4 := wrap32 a1 - wrap32 a2
    let a5 := wrap32 a4 - wrap32 a3
    let a6 := wrap32 a5 + 16384
    let a := wrap32 a6 / 2 ^ 15
    let b1 := x * s.cal.h6.toInt
    let b := wrap32 b1 / 2 ^ 10
    let c1 := x * s.cal.h3.toNat
    let c2 := wrap32 c1 / 2 ^ 11 + 32768
    let d1 := b * wrap32 c2
    let d2 := wrap32 d1 / 2 ^ 10 + 2097152
    let e1 := wrap32 d2 * s.cal.h2.toInt
    let e2 := wrap32 e1 + 8192
    let y1 := a * (wrap32 e2 / 2 ^ 14)
    let q := wrap32 y1 / 2 ^ 15
    let q1 := q * q
    let q2 := wrap32 q1 / 2 ^ 7 * s.cal.h1.toNat
    let y2 := wrap32 y1 - wrap32 q2 / 2 ^ 4
    let y := wrap32 y2
    let h := max 0 (min y 419430400)
    let o := someOverflow [x0, a1, a2, a3, a4, a5, a6, b1, c1, c2, d1, d2, e1, e2, y1, q1, q2, y2]
    exec (.cmph m l) s = .next { s with
      res := BitVec.ofInt 32 h, resf := bits64 h 4194304,
      ovf := o, zdiv := false, sat := decide (y < 0 ∨ 419430400 < y), sovf := s.sovf || o, err := 0, errinfo := 0 })

/-- R108 (with R97, R99, R101, R103): CMPP, its zero guard and both branches of its division. -/
def Obligations.PressureFormula : Prop :=
  ∀ (m l x : Byte) (s : State), encode (.cmpp m l x) = commandWord 0x32 m l x ∧
    (s.calValid = false ∨ s.tfValid = false → exec (.cmpp m l x) s = .next { s with err := 6, errinfo := 0 }) ∧
    (s.calValid = true → s.tfValid = true →
    let raw : Int := m.toNat * 4096 + l.toNat * 16 + x.toNat / 16
    let v1 := s.tf.toInt / 2 - 64000
    let sq := v1 / 4 * (v1 / 4)
    let b1 := wrap32 sq / 2 ^ 11 * s.cal.p6.toInt
    let b2 := v1 * s.cal.p5.toInt
    let b3 := wrap32 b2 * 2
    let b4 := wrap32 b1 + wrap32 b3
    let b5 := wrap32 b4 / 4 + s.cal.p4.toInt * 2 ^ 16
    let v2 := wrap32 b5
    let c1 := s.cal.p3.toInt * (wrap32 sq / 2 ^ 13)
    let c2 := s.cal.p2.toInt * v1
    let c3 := wrap32 c1 / 8 + wrap32 c2 / 2
    let c4 := (32768 + wrap32 c3 / 2 ^ 18) * s.cal.p1.toNat
    let den := wrap32 c4 / 2 ^ 15
    let o := someOverflow [sq, b1, b2, b3, b4, b5, c1, c2, c3, c4]
    (den = 0 →
      exec (.cmpp m l x) s = .next { s with
        res := 0, resf := 0, ovf := o, zdiv := true, sat := false, sovf := s.sovf || o, err := 0, errinfo := 0 }) ∧
    (den ≠ 0 →
      let num := (1048576 - raw - v2 / 2 ^ 12) * 3125 % 2 ^ 32
      let d := den % 2 ^ 32
      let p := if num < 2 ^ 31 then num * 2 / d else num / d * 2 % 2 ^ 32
      let w1 := s.cal.p9.toInt * (p / 8 * (p / 8) % 2 ^ 32 / 2 ^ 13)
      let w2 := p / 4 * s.cal.p8.toInt
      let w3 := wrap32 w1 / 2 ^ 12 + wrap32 w2 / 2 ^ 13 + s.cal.p7.toInt
      let r := wrap32 p + w3 / 2 ^ 4
      let o' := o || someOverflow [w1, w2, r]
      exec (.cmpp m l x) s = .next { s with
        res := BitVec.ofInt 32 r, resf := bits64 (r % 2 ^ 32) 100,
        ovf := o', zdiv := false, sat := false, sovf := s.sovf || o', err := 0, errinfo := 0 }))

/-- R99: a CMPT that completes with OVF = 0 computed the temperature formula's mathematical value. -/
def Obligations.TemperatureIsExactWithoutOverflow : Prop :=
  ∀ (m l x : Byte) (s : State), s.calValid = true →
    ∃ t, exec (.cmpt m l x) s = .next t ∧
      (t.ovf = false →
        t.tf.toInt = exactFineTemperature (raw20 m l x) s.cal.t1.toNat s.cal.t2.toInt s.cal.t3.toInt ∧
        t.res.toInt = exactTemperature t.tf.toInt)

/-- R99: a CMPH that completes with OVF = 0 computed the humidity formula's mathematical value, clamped. -/
def Obligations.HumidityIsExactWithoutOverflow : Prop :=
  ∀ (m l : Byte) (s : State), s.calValid = true → s.tfValid = true →
    ∃ t, exec (.cmph m l) s = .next t ∧
      (t.ovf = false →
        t.res.toInt = max 0 (min 419430400 (exactHumidity s.tf.toInt (raw16 m l) s.cal.h1.toNat s.cal.h2.toInt
          s.cal.h3.toNat s.cal.h4.toInt s.cal.h5.toInt s.cal.h6.toInt)))

/-- R107 and the source's §8 (95_test_vectors.md W6): humidity is in the closed interval whatever the constants, RESF is RES / 4194304
exactly (R104), so 0 to 100 %RH. -/
def Obligations.HumidityStaysInRange : Prop :=
  ∀ (m l : Byte) (s : State), s.calValid = true → s.tfValid = true →
    ∃ t, exec (.cmph m l) s = .next t ∧ t.res.toNat ≤ 419430400 ∧
      value64 t.resf = (t.res.toNat : Rat) / 4194304 ∧ 0 ≤ value64 t.resf ∧ value64 t.resf ≤ 100

/-- R108 and the source's §8 (95_test_vectors.md W5): with CAL.P1 = 0 every CMPP takes the guard. -/
def Obligations.ZeroDenominatorGivesZeroPressure : Prop :=
  ∀ (m l x : Byte) (s : State), s.calValid = true → s.tfValid = true → s.cal.p1 = 0 →
    ∃ t, exec (.cmpp m l x) s = .next t ∧ t.res = 0 ∧ t.resf = 0 ∧ t.zdiv = true ∧ t.err = 0

/-- R96: a compensation command always completes or reports, makes no transport call, and writes only the registers R96 names; two
states that agree on the store, TF and the two valid bits give the same results, whether or not a handle is open. -/
def Obligations.CompensationReadsOnlyItsInputs : Prop :=
  ∀ (i : Instr) (s : State), i.mnemonic ∈ ["CMPT", "CMPH", "CMPP"] →
    ∃ t, exec i s = .next t ∧
      t = { s with
        tf := t.tf, tfValid := t.tfValid, res := t.res, resf := t.resf, ovf := t.ovf, zdiv := t.zdiv, sat := t.sat,
        sovf := t.sovf, err := t.err, errinfo := t.errinfo } ∧
      (i.mnemonic ∉ ["CMPT"] → t.tf = s.tf ∧ t.tfValid = s.tfValid) ∧
      ∀ s' : State, s'.cal = s.cal → s'.calValid = s.calValid → s'.tf = s.tf → s'.tfValid = s.tfValid →
        ∃ t', exec i s' = .next t' ∧ t'.err = t.err ∧ t'.errinfo = t.errinfo ∧ t'.tf = t.tf ∧ t'.tfValid = t.tfValid ∧
          (t.err = 0 → t'.res = t.res ∧ t'.resf = t.resf ∧ t'.ovf = t.ovf ∧ t'.zdiv = t.zdiv ∧ t'.sat = t.sat)

/-- R109: the order of a CMPH and a CMPP does not change either result, and neither writes TF or TF_VALID. -/
def Obligations.HumidityAndPressureCommute : Prop :=
  ∀ (m l m' l' x' : Byte) (s : State), s.calValid = true → s.tfValid = true →
    ∃ h p hp ph, exec (.cmph m l) s = .next h ∧ exec (.cmpp m' l' x') s = .next p ∧
      exec (.cmpp m' l' x') h = .next hp ∧ exec (.cmph m l) p = .next ph ∧
      hp.res = p.res ∧ hp.resf = p.resf ∧ ph.res = h.res ∧ ph.resf = h.resf ∧
      hp.tf = s.tf ∧ ph.tf = s.tf ∧ hp.tfValid = true ∧ ph.tfValid = true ∧ hp.sovf = ph.sovf

/-- R12, R104: the pattern of a result is the binary64 value nearest to the rational, ties to the even significand. -/
def Obligations.ResultIsTheNearestBinary64 : Prop :=
  (∀ d, bits64 0 d = 0) ∧
  ∀ (n : Int) (d : Nat), 0 < d → n.natAbs ≤ 2 ^ 32 → d ≤ 2 ^ 32 →
    finite64 (bits64 n d) = true ∧
    ∀ b, finite64 b = true →
      |value64 (bits64 n d) - n / d| ≤ |value64 b - n / d| ∧
      (|value64 (bits64 n d) - n / d| = |value64 b - n / d| → value64 b ≠ value64 (bits64 n d) →
        (bits64 n d).toNat % 2 = 0)

/-! ### The whole machine -/

/-- R34: reset, register by register. -/
def Obligations.ResetValues : Prop :=
  State.reset.hOpen = false ∧ State.reset.hBus = 0 ∧ State.reset.hAddr = 0 ∧ State.reset.hTx = .none ∧
  (∀ c, calWord State.reset.cal c = 0) ∧ State.reset.calValid = false ∧ State.reset.tf = 0 ∧
  State.reset.tfValid = false ∧ State.reset.res = 0 ∧ State.reset.resf = 0 ∧ State.reset.err = 0 ∧
  State.reset.errinfo = 0 ∧ State.reset.ovf = false ∧ State.reset.zdiv = false ∧ State.reset.sat = false ∧
  State.reset.sovf = false ∧ State.reset.th = [] ∧ State.reset.blkLen = 0 ∧
  (∀ i, Memory.read State.reset.blkBuf i = 0) ∧ State.reset.cmdLast = 0

/-- The machine after reset meets the invariant of Safety.lean. -/
def Obligations.ResetMeetsTheInvariant : Prop := State.reset.Inv

/-- Every step keeps the invariant of Safety.lean, from every state that meets it: one live transport handle exactly while
H_OPEN = 1 (R18), only the written completion codes (R111, R129), ERRINFO a transport code exactly after the errors that carry
one (R28), fine-temperature only over a valid store (R22, R24), SOVF over OVF (R29), H4 and H5 in their 12 bits (R21), BLK_BUF in
canonical form within BLK_MAX. H4 and H5 in 12 bits after a failed LDCAL too is the model's choice (log 9), after U4's 'a draw of its
type': R94 leaves those contents unspecified. -/
def Obligations.EveryStepKeepsTheInvariant : Prop :=
  ∀ s t : State, s.Inv → step s = .next t → t.Inv

/-- R30: TH only grows, one event for each transport call, at most 64 in a step. -/
def Obligations.HistoryOnlyGrows : Prop :=
  ∀ s t : State, step s = .next t →
    ∃ evs : List Event, t.th = s.th ++ evs ∧ t.calls = s.calls + evs.length ∧ evs.length ≤ 64 ∧
      t.script = s.script ∧ t.params = s.params

/-- R30: the block never reads TH to decide anything: with another history before it, a command does the same and appends the
same. -/
def Obligations.HistoryIsNeverRead : Prop :=
  ∀ (i : Instr) (s : State) (evs : List Event),
    (∀ t, exec i s = .next t → exec i { s with th := evs ++ s.th } = .next { t with th := evs ++ t.th }) ∧
    (∀ f, exec i s = .fault f → exec i { s with th := evs ++ s.th } = .fault f)

/-- R29: SOVF is sticky and set whenever OVF is written as 1; a step writes OVF, ZDIV or SAT only by a compensation command that
succeeds. -/
def Obligations.FlagsChangeOnlyByCompensation : Prop :=
  ∀ s t : State, step s = .next t →
    (s.sovf = true → t.sovf = true) ∧
    (t.ovf ≠ s.ovf ∨ t.zdiv ≠ s.zdiv ∨ t.sat ≠ s.sat ∨ t.sovf ≠ s.sovf →
      (∃ i, s.issues i ∧ i.mnemonic ∈ ["CMPT", "CMPH", "CMPP"]) ∧ t.err = 0 ∧ t.sovf = (s.sovf || t.ovf))

/-- R22 to R26, R31 to R33, R95: which step can change which register. -/
def Obligations.OnlyTheseStepsWriteEachRegister : Prop :=
  ∀ s t : State, step s = .next t →
    (t.cal ≠ s.cal ∨ t.calValid ≠ s.calValid → s.issues .ldcal) ∧
    (t.tf ≠ s.tf → ∃ m l x, s.issues (.cmpt m l x)) ∧
    (t.tfValid ≠ s.tfValid → s.issues .ldcal ∨ ∃ m l x, s.issues (.cmpt m l x)) ∧
    (t.res ≠ s.res → ∃ i, s.issues i ∧ i.mnemonic ∈ ["RDB", "RDW", "RDWS", "LDCAL", "CMPT", "CMPH", "CMPP"]) ∧
    (t.resf ≠ s.resf → ∃ i, s.issues i ∧ i.mnemonic ∈ ["CMPT", "CMPH", "CMPP"]) ∧
    (t.hOpen ≠ s.hOpen ∨ t.hTx ≠ s.hTx → ∃ i, s.issues i ∧ i.mnemonic ∈ ["OPEN", "CLOSE"]) ∧
    (t.hBus ≠ s.hBus ∨ t.hAddr ≠ s.hAddr → ∃ i, s.issues i ∧ i.mnemonic ∈ ["OPEN"]) ∧
    (t.err ≠ s.err ∨ t.errinfo ≠ s.errinfo ∨ t.cmdLast ≠ s.cmdLast → ∃ w rest, s.host = .write 0x000 32 w :: rest) ∧
    (t.blkLen ≠ s.blkLen → ∃ v rest, s.host = .write 0x020 32 v :: rest) ∧
    (t.blkBuf ≠ s.blkBuf → ∃ i v rest, i < s.params.blkMax ∧ s.host = .write (0x100 + 4 * i) 32 v :: rest)

/-- The bytes of BLK_BUF (R32): read after write, every other byte as before, the canonical form kept, and equal contents are equal
data (log 10). -/
def Obligations.BufferBytesAreCanonical : Prop :=
  (∀ (m : Memory) (i : Nat) (v : Byte), Memory.wf m →
    Memory.wf (Memory.write m i v) ∧ Memory.read (Memory.write m i v) i = v ∧
      ∀ j, j ≠ i → Memory.read (Memory.write m i v) j = Memory.read m j) ∧
  (∀ m m' : Memory, Memory.wf m → Memory.wf m' → (∀ i, Memory.read m i = Memory.read m' i) → m = m')
end

