-- ==== Sys2Proof/Laws/State.lean ====
section
/-! SUPPORT. What each named update of the state leaves and writes, field by field. -/

namespace Sys2Proof.Machine

@[simp] theorem setErr_hOpen (e : ErrCode) (info : Word) (s : State) : (setErr e info s).hOpen = s.hOpen := rfl
@[simp] theorem setErr_hBus (e : ErrCode) (info : Word) (s : State) : (setErr e info s).hBus = s.hBus := rfl
@[simp] theorem setErr_hAddr (e : ErrCode) (info : Word) (s : State) : (setErr e info s).hAddr = s.hAddr := rfl
@[simp] theorem setErr_hTx (e : ErrCode) (info : Word) (s : State) : (setErr e info s).hTx = s.hTx := rfl
@[simp] theorem setErr_cal (e : ErrCode) (info : Word) (s : State) : (setErr e info s).cal = s.cal := rfl
@[simp] theorem setErr_calValid (e : ErrCode) (info : Word) (s : State) : (setErr e info s).calValid = s.calValid := rfl
@[simp] theorem setErr_tf (e : ErrCode) (info : Word) (s : State) : (setErr e info s).tf = s.tf := rfl
@[simp] theorem setErr_tfValid (e : ErrCode) (info : Word) (s : State) : (setErr e info s).tfValid = s.tfValid := rfl
@[simp] theorem setErr_res (e : ErrCode) (info : Word) (s : State) : (setErr e info s).res = s.res := rfl
@[simp] theorem setErr_resf (e : ErrCode) (info : Word) (s : State) : (setErr e info s).resf = s.resf := rfl
@[simp] theorem setErr_err (e : ErrCode) (info : Word) (s : State) : (setErr e info s).err = e.code := rfl
@[simp] theorem setErr_errinfo (e : ErrCode) (info : Word) (s : State) : (setErr e info s).errinfo = info := rfl
@[simp] theorem setErr_ovf (e : ErrCode) (info : Word) (s : State) : (setErr e info s).ovf = s.ovf := rfl
@[simp] theorem setErr_zdiv (e : ErrCode) (info : Word) (s : State) : (setErr e info s).zdiv = s.zdiv := rfl
@[simp] theorem setErr_sat (e : ErrCode) (info : Word) (s : State) : (setErr e info s).sat = s.sat := rfl
@[simp] theorem setErr_sovf (e : ErrCode) (info : Word) (s : State) : (setErr e info s).sovf = s.sovf := rfl
@[simp] theorem setErr_th (e : ErrCode) (info : Word) (s : State) : (setErr e info s).th = s.th := rfl
@[simp] theorem setErr_blkLen (e : ErrCode) (info : Word) (s : State) : (setErr e info s).blkLen = s.blkLen := rfl
@[simp] theorem setErr_blkBuf (e : ErrCode) (info : Word) (s : State) : (setErr e info s).blkBuf = s.blkBuf := rfl
@[simp] theorem setErr_cmdLast (e : ErrCode) (info : Word) (s : State) : (setErr e info s).cmdLast = s.cmdLast := rfl
@[simp] theorem setErr_params (e : ErrCode) (info : Word) (s : State) : (setErr e info s).params = s.params := rfl
@[simp] theorem setErr_host (e : ErrCode) (info : Word) (s : State) : (setErr e info s).host = s.host := rfl
@[simp] theorem setErr_hostReads (e : ErrCode) (info : Word) (s : State) : (setErr e info s).hostReads = s.hostReads := rfl
@[simp] theorem setErr_script (e : ErrCode) (info : Word) (s : State) : (setErr e info s).script = s.script := rfl
@[simp] theorem setErr_calls (e : ErrCode) (info : Word) (s : State) : (setErr e info s).calls = s.calls := rfl

@[simp] theorem called_hOpen (e : Event) (s : State) : (s.called e).hOpen = s.hOpen := rfl
@[simp] theorem called_hBus (e : Event) (s : State) : (s.called e).hBus = s.hBus := rfl
@[simp] theorem called_hAddr (e : Event) (s : State) : (s.called e).hAddr = s.hAddr := rfl
@[simp] theorem called_hTx (e : Event) (s : State) : (s.called e).hTx = s.hTx := rfl
@[simp] theorem called_cal (e : Event) (s : State) : (s.called e).cal = s.cal := rfl
@[simp] theorem called_calValid (e : Event) (s : State) : (s.called e).calValid = s.calValid := rfl
@[simp] theorem called_tf (e : Event) (s : State) : (s.called e).tf = s.tf := rfl
@[simp] theorem called_tfValid (e : Event) (s : State) : (s.called e).tfValid = s.tfValid := rfl
@[simp] theorem called_res (e : Event) (s : State) : (s.called e).res = s.res := rfl
@[simp] theorem called_resf (e : Event) (s : State) : (s.called e).resf = s.resf := rfl
@[simp] theorem called_err (e : Event) (s : State) : (s.called e).err = s.err := rfl
@[simp] theorem called_errinfo (e : Event) (s : State) : (s.called e).errinfo = s.errinfo := rfl
@[simp] theorem called_ovf (e : Event) (s : State) : (s.called e).ovf = s.ovf := rfl
@[simp] theorem called_zdiv (e : Event) (s : State) : (s.called e).zdiv = s.zdiv := rfl
@[simp] theorem called_sat (e : Event) (s : State) : (s.called e).sat = s.sat := rfl
@[simp] theorem called_sovf (e : Event) (s : State) : (s.called e).sovf = s.sovf := rfl
@[simp] theorem called_th (e : Event) (s : State) : (s.called e).th = s.th ++ [e] := rfl
@[simp] theorem called_blkLen (e : Event) (s : State) : (s.called e).blkLen = s.blkLen := rfl
@[simp] theorem called_blkBuf (e : Event) (s : State) : (s.called e).blkBuf = s.blkBuf := rfl
@[simp] theorem called_cmdLast (e : Event) (s : State) : (s.called e).cmdLast = s.cmdLast := rfl
@[simp] theorem called_params (e : Event) (s : State) : (s.called e).params = s.params := rfl
@[simp] theorem called_host (e : Event) (s : State) : (s.called e).host = s.host := rfl
@[simp] theorem called_hostReads (e : Event) (s : State) : (s.called e).hostReads = s.hostReads := rfl
@[simp] theorem called_script (e : Event) (s : State) : (s.called e).script = s.script := rfl
@[simp] theorem called_calls (e : Event) (s : State) : (s.called e).calls = s.calls + 1 := rfl

@[simp] theorem setFlags_hOpen (o z c : Bool) (s : State) : (setFlags o z c s).hOpen = s.hOpen := rfl
@[simp] theorem setFlags_hBus (o z c : Bool) (s : State) : (setFlags o z c s).hBus = s.hBus := rfl
@[simp] theorem setFlags_hAddr (o z c : Bool) (s : State) : (setFlags o z c s).hAddr = s.hAddr := rfl
@[simp] theorem setFlags_hTx (o z c : Bool) (s : State) : (setFlags o z c s).hTx = s.hTx := rfl
@[simp] theorem setFlags_cal (o z c : Bool) (s : State) : (setFlags o z c s).cal = s.cal := rfl
@[simp] theorem setFlags_calValid (o z c : Bool) (s : State) : (setFlags o z c s).calValid = s.calValid := rfl
@[simp] theorem setFlags_tf (o z c : Bool) (s : State) : (setFlags o z c s).tf = s.tf := rfl
@[simp] theorem setFlags_tfValid (o z c : Bool) (s : State) : (setFlags o z c s).tfValid = s.tfValid := rfl
@[simp] theorem setFlags_res (o z c : Bool) (s : State) : (setFlags o z c s).res = s.res := rfl
@[simp] theorem setFlags_resf (o z c : Bool) (s : State) : (setFlags o z c s).resf = s.resf := rfl
@[simp] theorem setFlags_err (o z c : Bool) (s : State) : (setFlags o z c s).err = s.err := rfl
@[simp] theorem setFlags_errinfo (o z c : Bool) (s : State) : (setFlags o z c s).errinfo = s.errinfo := rfl
@[simp] theorem setFlags_ovf (o z c : Bool) (s : State) : (setFlags o z c s).ovf = o := rfl
@[simp] theorem setFlags_zdiv (o z c : Bool) (s : State) : (setFlags o z c s).zdiv = z := rfl
@[simp] theorem setFlags_sat (o z c : Bool) (s : State) : (setFlags o z c s).sat = c := rfl
@[simp] theorem setFlags_sovf (o z c : Bool) (s : State) : (setFlags o z c s).sovf = (s.sovf || o) := rfl
@[simp] theorem setFlags_th (o z c : Bool) (s : State) : (setFlags o z c s).th = s.th := rfl
@[simp] theorem setFlags_blkLen (o z c : Bool) (s : State) : (setFlags o z c s).blkLen = s.blkLen := rfl
@[simp] theorem setFlags_blkBuf (o z c : Bool) (s : State) : (setFlags o z c s).blkBuf = s.blkBuf := rfl
@[simp] theorem setFlags_cmdLast (o z c : Bool) (s : State) : (setFlags o z c s).cmdLast = s.cmdLast := rfl
@[simp] theorem setFlags_params (o z c : Bool) (s : State) : (setFlags o z c s).params = s.params := rfl
@[simp] theorem setFlags_host (o z c : Bool) (s : State) : (setFlags o z c s).host = s.host := rfl
@[simp] theorem setFlags_hostReads (o z c : Bool) (s : State) : (setFlags o z c s).hostReads = s.hostReads := rfl
@[simp] theorem setFlags_script (o z c : Bool) (s : State) : (setFlags o z c s).script = s.script := rfl
@[simp] theorem setFlags_calls (o z c : Bool) (s : State) : (setFlags o z c s).calls = s.calls := rfl

@[simp] theorem beginLoad_hOpen (s : State) : (beginLoad s).hOpen = s.hOpen := rfl
@[simp] theorem beginLoad_hBus (s : State) : (beginLoad s).hBus = s.hBus := rfl
@[simp] theorem beginLoad_hAddr (s : State) : (beginLoad s).hAddr = s.hAddr := rfl
@[simp] theorem beginLoad_hTx (s : State) : (beginLoad s).hTx = s.hTx := rfl
@[simp] theorem beginLoad_cal (s : State) : (beginLoad s).cal = s.cal := rfl
@[simp] theorem beginLoad_calValid (s : State) : (beginLoad s).calValid = false := rfl
@[simp] theorem beginLoad_tf (s : State) : (beginLoad s).tf = s.tf := rfl
@[simp] theorem beginLoad_tfValid (s : State) : (beginLoad s).tfValid = false := rfl
@[simp] theorem beginLoad_res (s : State) : (beginLoad s).res = s.res := rfl
@[simp] theorem beginLoad_resf (s : State) : (beginLoad s).resf = s.resf := rfl
@[simp] theorem beginLoad_err (s : State) : (beginLoad s).err = s.err := rfl
@[simp] theorem beginLoad_errinfo (s : State) : (beginLoad s).errinfo = s.errinfo := rfl
@[simp] theorem beginLoad_ovf (s : State) : (beginLoad s).ovf = s.ovf := rfl
@[simp] theorem beginLoad_zdiv (s : State) : (beginLoad s).zdiv = s.zdiv := rfl
@[simp] theorem beginLoad_sat (s : State) : (beginLoad s).sat = s.sat := rfl
@[simp] theorem beginLoad_sovf (s : State) : (beginLoad s).sovf = s.sovf := rfl
@[simp] theorem beginLoad_th (s : State) : (beginLoad s).th = s.th := rfl
@[simp] theorem beginLoad_blkLen (s : State) : (beginLoad s).blkLen = s.blkLen := rfl
@[simp] theorem beginLoad_blkBuf (s : State) : (beginLoad s).blkBuf = s.blkBuf := rfl
@[simp] theorem beginLoad_cmdLast (s : State) : (beginLoad s).cmdLast = s.cmdLast := rfl
@[simp] theorem beginLoad_params (s : State) : (beginLoad s).params = s.params := rfl
@[simp] theorem beginLoad_host (s : State) : (beginLoad s).host = s.host := rfl
@[simp] theorem beginLoad_hostReads (s : State) : (beginLoad s).hostReads = s.hostReads := rfl
@[simp] theorem beginLoad_script (s : State) : (beginLoad s).script = s.script := rfl
@[simp] theorem beginLoad_calls (s : State) : (beginLoad s).calls = s.calls := rfl

@[simp] theorem after_hOpen (evs : List Event) (s : State) : (s.after evs).hOpen = s.hOpen := rfl
@[simp] theorem after_hBus (evs : List Event) (s : State) : (s.after evs).hBus = s.hBus := rfl
@[simp] theorem after_hAddr (evs : List Event) (s : State) : (s.after evs).hAddr = s.hAddr := rfl
@[simp] theorem after_hTx (evs : List Event) (s : State) : (s.after evs).hTx = s.hTx := rfl
@[simp] theorem after_cal (evs : List Event) (s : State) : (s.after evs).cal = s.cal := rfl
@[simp] theorem after_calValid (evs : List Event) (s : State) : (s.after evs).calValid = s.calValid := rfl
@[simp] theorem after_tf (evs : List Event) (s : State) : (s.after evs).tf = s.tf := rfl
@[simp] theorem after_tfValid (evs : List Event) (s : State) : (s.after evs).tfValid = s.tfValid := rfl
@[simp] theorem after_res (evs : List Event) (s : State) : (s.after evs).res = s.res := rfl
@[simp] theorem after_resf (evs : List Event) (s : State) : (s.after evs).resf = s.resf := rfl
@[simp] theorem after_err (evs : List Event) (s : State) : (s.after evs).err = s.err := rfl
@[simp] theorem after_errinfo (evs : List Event) (s : State) : (s.after evs).errinfo = s.errinfo := rfl
@[simp] theorem after_ovf (evs : List Event) (s : State) : (s.after evs).ovf = s.ovf := rfl
@[simp] theorem after_zdiv (evs : List Event) (s : State) : (s.after evs).zdiv = s.zdiv := rfl
@[simp] theorem after_sat (evs : List Event) (s : State) : (s.after evs).sat = s.sat := rfl
@[simp] theorem after_sovf (evs : List Event) (s : State) : (s.after evs).sovf = s.sovf := rfl
@[simp] theorem after_th (evs : List Event) (s : State) : (s.after evs).th = s.th ++ evs := rfl
@[simp] theorem after_blkLen (evs : List Event) (s : State) : (s.after evs).blkLen = s.blkLen := rfl
@[simp] theorem after_blkBuf (evs : List Event) (s : State) : (s.after evs).blkBuf = s.blkBuf := rfl
@[simp] theorem after_cmdLast (evs : List Event) (s : State) : (s.after evs).cmdLast = s.cmdLast := rfl
@[simp] theorem after_params (evs : List Event) (s : State) : (s.after evs).params = s.params := rfl
@[simp] theorem after_host (evs : List Event) (s : State) : (s.after evs).host = s.host := rfl
@[simp] theorem after_hostReads (evs : List Event) (s : State) : (s.after evs).hostReads = s.hostReads := rfl
@[simp] theorem after_script (evs : List Event) (s : State) : (s.after evs).script = s.script := rfl
@[simp] theorem after_calls (evs : List Event) (s : State) : (s.after evs).calls = s.calls + evs.length := rfl

/-- One call is a run of one. -/
theorem called_eq_after (e : Event) (s : State) : s.called e = s.after [e] := rfl

/-- Runs of calls join. -/
@[simp] theorem after_after (evs evs' : List Event) (s : State) : (s.after evs).after evs' = s.after (evs ++ evs') := by
  simp [State.after, Nat.add_assoc]

@[simp] theorem withFetchWord_hOpen (s : State) (nbits w : Nat) : (s.withFetchWord nbits w).hOpen = s.hOpen := rfl
@[simp] theorem withFetchWord_hBus (s : State) (nbits w : Nat) : (s.withFetchWord nbits w).hBus = s.hBus := rfl
@[simp] theorem withFetchWord_hAddr (s : State) (nbits w : Nat) : (s.withFetchWord nbits w).hAddr = s.hAddr := rfl
@[simp] theorem withFetchWord_hTx (s : State) (nbits w : Nat) : (s.withFetchWord nbits w).hTx = s.hTx := rfl
@[simp] theorem withFetchWord_cal (s : State) (nbits w : Nat) : (s.withFetchWord nbits w).cal = s.cal := rfl
@[simp] theorem withFetchWord_calValid (s : State) (nbits w : Nat) : (s.withFetchWord nbits w).calValid = s.calValid := rfl
@[simp] theorem withFetchWord_tf (s : State) (nbits w : Nat) : (s.withFetchWord nbits w).tf = s.tf := rfl
@[simp] theorem withFetchWord_tfValid (s : State) (nbits w : Nat) : (s.withFetchWord nbits w).tfValid = s.tfValid := rfl
@[simp] theorem withFetchWord_res (s : State) (nbits w : Nat) : (s.withFetchWord nbits w).res = s.res := rfl
@[simp] theorem withFetchWord_resf (s : State) (nbits w : Nat) : (s.withFetchWord nbits w).resf = s.resf := rfl
@[simp] theorem withFetchWord_err (s : State) (nbits w : Nat) : (s.withFetchWord nbits w).err = s.err := rfl
@[simp] theorem withFetchWord_errinfo (s : State) (nbits w : Nat) : (s.withFetchWord nbits w).errinfo = s.errinfo := rfl
@[simp] theorem withFetchWord_ovf (s : State) (nbits w : Nat) : (s.withFetchWord nbits w).ovf = s.ovf := rfl
@[simp] theorem withFetchWord_zdiv (s : State) (nbits w : Nat) : (s.withFetchWord nbits w).zdiv = s.zdiv := rfl
@[simp] theorem withFetchWord_sat (s : State) (nbits w : Nat) : (s.withFetchWord nbits w).sat = s.sat := rfl
@[simp] theorem withFetchWord_sovf (s : State) (nbits w : Nat) : (s.withFetchWord nbits w).sovf = s.sovf := rfl
@[simp] theorem withFetchWord_th (s : State) (nbits w : Nat) : (s.withFetchWord nbits w).th = s.th := rfl
@[simp] theorem withFetchWord_blkLen (s : State) (nbits w : Nat) : (s.withFetchWord nbits w).blkLen = s.blkLen := rfl
@[simp] theorem withFetchWord_blkBuf (s : State) (nbits w : Nat) : (s.withFetchWord nbits w).blkBuf = s.blkBuf := rfl
@[simp] theorem withFetchWord_cmdLast (s : State) (nbits w : Nat) : (s.withFetchWord nbits w).cmdLast = s.cmdLast := rfl
@[simp] theorem withFetchWord_params (s : State) (nbits w : Nat) : (s.withFetchWord nbits w).params = s.params := rfl
@[simp] theorem withFetchWord_host (s : State) (nbits w : Nat) : (s.withFetchWord nbits w).host = .write 0x000 32 (BitVec.ofNat 32 (w % 2 ^ nbits)) :: s.host := rfl
@[simp] theorem withFetchWord_hostReads (s : State) (nbits w : Nat) : (s.withFetchWord nbits w).hostReads = s.hostReads := rfl
@[simp] theorem withFetchWord_script (s : State) (nbits w : Nat) : (s.withFetchWord nbits w).script = s.script := rfl
@[simp] theorem withFetchWord_calls (s : State) (nbits w : Nat) : (s.withFetchWord nbits w).calls = s.calls := rfl

end Sys2Proof.Machine
end

