-- ==== Sys2Proof/Laws/Arith.lean ====
section
/-! SUPPORT. What each 32-bit operation computes, as integers: an S32 operation wraps its exact result and reports it when it does
not fit (42_compensation.md R99), a shift right is floor division (R100). -/

namespace Sys2Proof.Machine

theorem overflows_eq (r : Int) : overflows r = !fits32 r := by
  rw [Bool.eq_iff_iff]
  simp only [overflows, fits32, Bool.or_eq_true, decide_eq_true_eq, Bool.not_eq_true', Bool.and_eq_false_iff,
    decide_eq_false_iff_not]
  omega

/-- A value that fits is its own wrap. -/
theorem wrap32_of_fits {r : Int} (h : fits32 r = true) : wrap32 r = r := by
  simp only [fits32, Bool.and_eq_true, decide_eq_true_eq] at h
  unfold wrap32
  rw [Int.bmod_def]
  norm_num at h ⊢
  omega

/-- A wrapped value fits. -/
theorem fits_wrap32 (r : Int) : fits32 (wrap32 r) = true := by
  have h : wrap32 r = if r % 4294967296 < 2147483648 then r % 4294967296 else r % 4294967296 - 4294967296 := by
    unfold wrap32
    rw [Int.bmod_def]
    norm_num
  have h1 : -2 ^ 31 ≤ wrap32 r := by rw [h]; split <;> omega
  have h2 : wrap32 r ≤ 2 ^ 31 - 1 := by rw [h]; split <;> omega
  simp only [fits32, Bool.and_eq_true]
  exact ⟨decide_eq_true h1, decide_eq_true h2⟩

@[simp] theorem S32.int_narrow (r : Int) (o : Bool) : (S32.narrow r o).int = wrap32 r := by
  simp [S32.narrow, S32.int, wrap32, BitVec.toInt_ofInt]
@[simp] theorem S32.ovf_narrow (r : Int) (o : Bool) : (S32.narrow r o).ovf = (o || !fits32 r) := by
  simp [S32.narrow, overflows_eq]

theorem S32.int_lit {z : Int} (h : fits32 z = true) : (S32.lit z).int = z := by
  have := wrap32_of_fits h
  simpa [S32.lit, S32.int, wrap32, BitVec.toInt_ofInt] using this
@[simp] theorem S32.ovf_lit (z : Int) : (S32.lit z).ovf = false := rfl

@[simp] theorem S32.int_add (a b : S32) : (a.add b).int = wrap32 (a.int + b.int) := S32.int_narrow _ _
@[simp] theorem S32.int_sub (a b : S32) : (a.sub b).int = wrap32 (a.int - b.int) := S32.int_narrow _ _
@[simp] theorem S32.int_mul (a b : S32) : (a.mul b).int = wrap32 (a.int * b.int) := S32.int_narrow _ _
@[simp] theorem S32.int_shl (a : S32) (k : Nat) : (a.shl k).int = wrap32 (a.int * 2 ^ k) := S32.int_narrow _ _

@[simp] theorem S32.ovf_add (a b : S32) : (a.add b).ovf = (a.ovf || b.ovf || !fits32 (a.int + b.int)) :=
  S32.ovf_narrow _ _
@[simp] theorem S32.ovf_sub (a b : S32) : (a.sub b).ovf = (a.ovf || b.ovf || !fits32 (a.int - b.int)) :=
  S32.ovf_narrow _ _
@[simp] theorem S32.ovf_mul (a b : S32) : (a.mul b).ovf = (a.ovf || b.ovf || !fits32 (a.int * b.int)) :=
  S32.ovf_narrow _ _
@[simp] theorem S32.ovf_shl (a : S32) (k : Nat) : (a.shl k).ovf = (a.ovf || !fits32 (a.int * 2 ^ k)) :=
  S32.ovf_narrow _ _
@[simp] theorem S32.ovf_shr (a : S32) (k : Nat) : (a.shr k).ovf = a.ovf := rfl

/-- An S32 value fits. -/
theorem S32.fits_int (a : S32) : fits32 a.int = true := by
  have h1 : a.int < 2 ^ 31 := a.bits.toInt_lt
  have h2 : -2 ^ 31 ≤ a.int := a.bits.le_toInt
  have h3 : a.int ≤ 2 ^ 31 - 1 := by omega
  simp only [fits32, Bool.and_eq_true]
  exact ⟨decide_eq_true h2, decide_eq_true h3⟩

/-- R100: floor division. -/
@[simp] theorem S32.int_shr (a : S32) (k : Nat) : (a.shr k).int = a.int / 2 ^ k := by
  have h := S32.fits_int a
  have hk : (0 : Int) < 2 ^ k := by positivity
  have hfit : fits32 (a.int / 2 ^ k) = true := by
    simp only [fits32, Bool.and_eq_true, decide_eq_true_eq] at h ⊢
    constructor
    · rw [Int.le_ediv_iff_mul_le hk]
      nlinarith [h.1, hk]
    · have : a.int / 2 ^ k ≤ max a.int 0 := by
        rcases le_or_gt 0 a.int with h0 | h0
        · exact le_trans (Int.ediv_le_self _ h0) (le_max_left _ _)
        · exact le_trans (Int.ediv_neg_of_neg_of_pos h0 hk).le (le_max_right _ _)
      refine this.trans ?_
      rw [max_le_iff]
      exact ⟨h.2, by norm_num⟩
  have := wrap32_of_fits hfit
  simpa [S32.shr, S32.int, wrap32, BitVec.toInt_ofInt] using this

/-- A value is known by its integer. -/
theorem S32.bits_eq (a : S32) : a.bits = BitVec.ofInt 32 a.int := by
  simp [S32.int]

/-- Bounds on an integer that make it fit. -/
theorem fits32_of_bounds {r : Int} (h1 : -2147483648 ≤ r) (h2 : r ≤ 2147483647) : fits32 r = true := by
  simp only [fits32, Bool.and_eq_true, decide_eq_true_eq]
  norm_num
  exact ⟨h1, h2⟩

@[simp] theorem someOverflow_nil : someOverflow [] = false := rfl
@[simp] theorem someOverflow_cons (r : Int) (rs : List Int) :
    someOverflow (r :: rs) = (!fits32 r || someOverflow rs) := rfl

/-- A register of at most 32 bits enters a formula as its signed value (R102). -/
theorem S32.int_ofSigned {w : Nat} (hw : w ≤ 32) (v : BitVec w) : (S32.ofSigned v).int = v.toInt := by
  have h := BitVec.toInt_signExtend_of_le (x := v) hw
  simp only [S32.ofSigned, S32.lit, S32.int, BitVec.ofInt_toInt, ← h]

/-- A register of at most 31 bits enters a formula as its unsigned value (R102). -/
theorem S32.int_ofUnsigned {w : Nat} (hw : w ≤ 31) (v : BitVec w) : (S32.ofUnsigned v).int = v.toNat := by
  have h1 := v.isLt
  have h2 : 2 ^ w ≤ 2 ^ 31 := Nat.pow_le_pow_right (by decide) hw
  exact S32.int_lit (fits32_of_bounds (by omega) (by omega))

@[simp] theorem S32.int_byte (v : Byte) : (S32.ofUnsigned v).int = v.toNat := S32.int_ofUnsigned (by decide) v
@[simp] theorem S32.int_half (v : Half) : (S32.ofUnsigned v).int = v.toNat := S32.int_ofUnsigned (by decide) v
@[simp] theorem S32.int_signedByte (v : Byte) : (S32.ofSigned v).int = v.toInt := S32.int_ofSigned (by decide) v
@[simp] theorem S32.int_signedHalf (v : Half) : (S32.ofSigned v).int = v.toInt := S32.int_ofSigned (by decide) v
@[simp] theorem S32.int_word (v : Word) : (S32.ofSigned v).int = v.toInt := S32.int_ofSigned (by decide) v
@[simp] theorem S32.ovf_ofUnsigned {w : Nat} (v : BitVec w) : (S32.ofUnsigned v).ovf = false := rfl
@[simp] theorem S32.ovf_ofSigned {w : Nat} (v : BitVec w) : (S32.ofSigned v).ovf = false := rfl

/-- The raw counts fit their widths (R97, R98). -/
theorem raw20_lt (msb lsb xsb : Byte) : raw20 msb lsb xsb < 2 ^ 20 := by
  have hm := msb.isLt; have hl := lsb.isLt; have hx := xsb.isLt
  unfold raw20; omega

theorem raw16_lt (msb lsb : Byte) : raw16 msb lsb < 2 ^ 16 := by
  have hm := msb.isLt; have hl := lsb.isLt
  unfold raw16; omega

/-- R107's clamp, in either spelling. -/
theorem clampHumidity_eq (y : Int) : clampHumidity y = max 0 (min y 419430400) := by
  unfold clampHumidity; split_ifs <;> omega

end Sys2Proof.Machine
end

