-- ==== Sys2Proof/Laws/Ops.lean ====
section
/-! SUPPORT. What each shared operation can do, said once: completing and raising, transport calls, the handle check. -/

namespace Sys2Proof.Machine

@[simp] theorem complete_next {s t : State} : complete s = .next t ↔ t = setErr .ok 0 s := by
  simp [complete, eq_comm]

@[simp] theorem raise_next {e : ErrCode} {info : Word} {s t : State} :
    raise e info s = .next t ↔ t = setErr e info s := by
  simp [raise, eq_comm]

/-- A failure code is not 0 (R10). -/
theorem failCode_ne_zero (c : FailCode) : c.code ≠ 0 := by
  have h := c.pos
  intro h0
  rw [h0] at h
  exact absurd h (by decide)

@[simp] theorem answerFailure_ok (b0 b1 : Byte) : answerFailure (.ok b0 b1) = none := rfl
@[simp] theorem answerFailure_short : answerFailure .short = some Config.shortCode := rfl
@[simp] theorem answerFailure_fail (c : FailCode) : answerFailure (.fail c) = some c := rfl

theorem answerFailure_none {a : Answer} (h : answerFailure a = none) : ∃ b0 b1, a = .ok b0 b1 := by
  cases a <;> simp_all [answerFailure]

/-- The draw after one call is the next one. -/
@[simp] theorem draw_called (s : State) (e : Event) (i : Nat) : (s.called e).draw i = s.draw (i + 1) := by
  simp [State.draw, Nat.add_comm, Nat.add_left_comm]

@[simp] theorem draw_after (s : State) (evs : List Event) (i : Nat) :
    (s.after evs).draw i = s.draw (evs.length + i) := by
  simp [State.draw, Nat.add_assoc]

/-- A draw depends only on the script and the number of calls made. -/
theorem draw_congr {s s' : State} (hs : s'.script = s.script) (hc : s'.calls = s.calls) (i : Nat) :
    s'.draw i = s.draw i := by
  simp [State.draw, hs, hc]

@[simp] theorem draw_beginLoad (s : State) (i : Nat) : (beginLoad s).draw i = s.draw i := rfl

/-- A scripted draw. -/
theorem draw_scripted {s : State} {i : Nat} {d : Draw} (h : s.script[s.calls + i]? = some d) : s.draw i = d := by
  simp [State.draw, h]

@[simp] theorem callOk_called (s : State) (e : Event) (i : Nat) : (s.called e).callOk i ↔ s.callOk (i + 1) := by
  simp [State.callOk]

@[simp] theorem callFails_called (s : State) (e : Event) (i : Nat) (c : FailCode) :
    (s.called e).callFails i c ↔ s.callFails (i + 1) c := by
  simp [State.callFails]

/-- A call that succeeds, as the operations see it. -/
theorem callOk_iff {s : State} {i : Nat} : s.callOk i ↔ ∃ a, s.draw i = .returns a ∧ answerFailure a = none := by
  constructor
  · rintro ⟨b0, b1, h⟩
    exact ⟨_, h, rfl⟩
  · rintro ⟨a, h, hf⟩
    obtain ⟨b0, b1, rfl⟩ := answerFailure_none hf
    exact ⟨b0, b1, h⟩

/-- A call that fails, as the operations see it. -/
theorem callFails_iff {s : State} {i : Nat} {c : FailCode} :
    s.callFails i c ↔ ∃ a, s.draw i = .returns a ∧ answerFailure a = some c := by
  constructor
  · rintro (h | ⟨h, hc⟩)
    · exact ⟨_, h, rfl⟩
    · refine ⟨_, h, ?_⟩
      obtain ⟨code, pos⟩ := c
      simp only at hc
      subst hc
      rfl
  · rintro ⟨a, h, hf⟩
    cases a with
    | ok b0 b1 => simp at hf
    | short =>
      simp only [answerFailure_short, Option.some.injEq] at hf
      exact .inr ⟨h, by rw [← hf]; rfl⟩
    | fail d =>
      simp only [answerFailure_fail, Option.some.injEq] at hf
      exact .inl (hf ▸ h)

/-- A call that succeeds: what BusOpen, BusSelect and BusWrite do. -/
theorem busCall_ok {s : State} (h : s.callOk 0) (event : CallOutcome → Event) :
    busCall event s = .ok () (s.called (event .ok)) := by
  obtain ⟨b0, b1, h⟩ := h
  simp [busCall, h]

/-- A call that fails: what BusOpen, BusSelect and BusWrite do. -/
theorem busCall_fails {s : State} {c : FailCode} (h : s.callFails 0 c) (event : CallOutcome → Event) :
    busCall event s = .fail c (s.called (event (.fail c))) := by
  obtain ⟨a, ha, hf⟩ := callFails_iff.1 h
  simp [busCall, ha, hf]

/-- A read that replies. -/
theorem busRead_ok {s : State} {b0 b1 : Byte} (h : s.draw 0 = .returns (.ok b0 b1)) (n : Nat) :
    busRead n s = .ok ([b0, b1].take n) (s.called (.read n (.ok ([b0, b1].take n)))) := by
  simp [busRead, h, answerReply]

/-- A read that fails. -/
theorem busRead_fails {s : State} {c : FailCode} (h : s.callFails 0 c) (n : Nat) :
    busRead n s = .fail c (s.called (.read n (.fail c))) := by
  obtain ⟨a, ha, hf⟩ := callFails_iff.1 h
  simp [busRead, ha, hf]

/-- Everything a BusOpen, BusSelect or BusWrite can do. -/
theorem busCall_cases (event : CallOutcome → Event) (s : State) :
    (s.draw 0 = .never ∧ busCall event s = .never) ∨
    (∃ a, s.draw 0 = .returns a ∧ answerFailure a = none ∧ busCall event s = .ok () (s.called (event .ok))) ∨
    (∃ a c, s.draw 0 = .returns a ∧ answerFailure a = some c
      ∧ busCall event s = .fail c (s.called (event (.fail c)))) := by
  unfold busCall
  rcases hd : s.draw 0 with a | _
  · rcases hf : answerFailure a with _ | c <;> simp [hf]
  · simp

/-- Everything a BusRead can do. -/
theorem busRead_cases (n : Nat) (s : State) :
    (s.draw 0 = .never ∧ busRead n s = .never) ∨
    (∃ b0 b1, s.draw 0 = .returns (.ok b0 b1)
      ∧ busRead n s = .ok ([b0, b1].take n) (s.called (.read n (.ok ([b0, b1].take n))))) ∨
    (∃ a c, s.draw 0 = .returns a ∧ answerFailure a = some c
      ∧ busRead n s = .fail c (s.called (.read n (.fail c)))) := by
  unfold busRead
  rcases hd : s.draw 0 with a | _
  · cases a <;> simp [answerReply]
  · simp

/-- Everything a BusClose can do. -/
theorem busClose_cases (s : State) (k : State → Result) :
    (s.draw 0 = .never ∧ busClose s k = .fault .transportNeverReturns) ∨
    (∃ a, s.draw 0 = .returns a ∧ busClose s k = k (s.called .close)) := by
  unfold busClose
  rcases s.draw 0 with a | _ <;> simp

/-- Everything a MemRead can do. -/
theorem memRead_cases (reg : Byte) (n : Nat) (s : State) :
    ((s.draw 0 = .never ∨ s.callOk 0 ∧ s.draw 1 = .never) ∧ memRead reg n s = .never) ∨
    (∃ a b0 b1, s.draw 0 = .returns a ∧ answerFailure a = none ∧ s.draw 1 = .returns (.ok b0 b1)
      ∧ memRead reg n s = .ok (bigEndian ([b0, b1].take n))
          ((s.called (.write [reg] .ok)).called (.read n (.ok ([b0, b1].take n))))) ∨
    (∃ a c, s.draw 0 = .returns a ∧ answerFailure a = some c
      ∧ memRead reg n s = .fail c (s.called (.write [reg] (.fail c)))) ∨
    (∃ a a' c, s.draw 0 = .returns a ∧ answerFailure a = none
      ∧ s.draw 1 = .returns a' ∧ answerFailure a' = some c
      ∧ memRead reg n s = .fail c ((s.called (.write [reg] .ok)).called (.read n (.fail c)))) := by
  rcases busCall_cases (.write [reg]) s with ⟨hd, hw⟩ | ⟨a, hd, hf, hw⟩ | ⟨a, c, hd, hf, hw⟩
  · simp [memRead, busWrite, hw, hd]
  · have hr := busRead_cases n (s.called (.write [reg] .ok))
    simp only [draw_called] at hr
    rcases hr with ⟨hd1, hr⟩ | ⟨b0, b1, hd1, hr⟩ | ⟨a', c, hd1, hf1, hr⟩
    · exact .inl ⟨.inr ⟨callOk_iff.2 ⟨a, hd, hf⟩, hd1⟩, by simp [memRead, busWrite, hw, hr]⟩
    · simp [memRead, busWrite, hw, hd, hd1, hr, hf]
    · simp [memRead, busWrite, hw, hd, hd1, hr, hf, hf1]
  · simp [memRead, busWrite, hw, hd, hf]

/-- A MemRead whose address write fails. -/
theorem memRead_writeFails {s : State} {c : FailCode} (h : s.callFails 0 c) (reg : Byte) (n : Nat) :
    memRead reg n s = .fail c (s.called (.write [reg] (.fail c))) := by
  simp [memRead, busWrite, busCall_fails h]

/-- A MemRead whose read fails. -/
theorem memRead_readFails {s : State} {c : FailCode} (h0 : s.callOk 0) (h : s.callFails 1 c) (reg : Byte) (n : Nat) :
    memRead reg n s = .fail c ((s.called (.write [reg] .ok)).called (.read n (.fail c))) := by
  have h' : (s.called (.write [reg] .ok)).callFails 0 c := by simpa using h
  simp [memRead, busWrite, busCall_ok h0, busRead_fails h']

/-- A MemRead that succeeds. -/
theorem memRead_ok {s : State} {b0 b1 : Byte} (h0 : s.callOk 0) (h : s.draw 1 = .returns (.ok b0 b1)) (reg : Byte)
    (n : Nat) :
    memRead reg n s = .ok (bigEndian ([b0, b1].take n))
      ((s.called (.write [reg] .ok)).called (.read n (.ok ([b0, b1].take n)))) := by
  have h' : (s.called (.write [reg] .ok)).draw 0 = .returns (.ok b0 b1) := by simpa using h
  simp [memRead, busWrite, busCall_ok h0, busRead_ok h']

@[simp] theorem finish_ok {α : Type} (f : FailCode → State → Result) (k : α → State → Result) (a : α) (s : State) :
    (Xfer.ok a s).finish f k = k a s := rfl
@[simp] theorem finish_fail {α : Type} (f : FailCode → State → Result) (k : α → State → Result) (c : FailCode)
    (s : State) : (Xfer.fail c s : Xfer α).finish f k = f c s := rfl
@[simp] theorem finish_never {α : Type} (f : FailCode → State → Result) (k : α → State → Result) :
    (Xfer.never : Xfer α).finish f k = .fault .transportNeverReturns := rfl

@[simp] theorem withHandle_open {s : State} (h : s.hOpen = true) (k : State → Result) : withHandle s k = k s := by
  simp [withHandle, h]
@[simp] theorem withHandle_closed {s : State} (h : s.hOpen = false) (k : State → Result) :
    withHandle s k = raise .invalidArgument 0 s := by
  simp [withHandle, h]

/-- The two ways through the handle check (R75). -/
theorem withHandle_cases (s : State) (k : State → Result) :
    (s.hOpen = false ∧ withHandle s k = raise .invalidArgument 0 s) ∨
    (s.hOpen = true ∧ withHandle s k = k s) := by
  cases h : s.hOpen <;> simp [h]

/-- Everything a command made of one write can do (R76). -/
theorem sendBytes_cases (bytes : List Byte) (s : State) :
    (s.draw 0 = .never ∧ sendBytes bytes s = .fault .transportNeverReturns) ∨
    (∃ a, s.draw 0 = .returns a ∧ answerFailure a = none
      ∧ sendBytes bytes s = complete (s.called (.write bytes .ok))) ∨
    (∃ a c, s.draw 0 = .returns a ∧ answerFailure a = some c
      ∧ sendBytes bytes s = transportError c (s.called (.write bytes (.fail c)))) := by
  rcases busCall_cases (.write bytes) s with ⟨hd, hw⟩ | ⟨a, hd, hf, hw⟩ | ⟨a, c, hd, hf, hw⟩
  · simp [sendBytes, busWrite, hw, hd]
  · simp [sendBytes, busWrite, hw, hd, hf]
  · exact .inr (.inr ⟨a, c, hd, hf, by simp [sendBytes, busWrite, hw]⟩)

/-- Everything a read command can do after its handle check (R76, R80 to R82). -/
theorem readInto_cases (reg : Byte) (n : Nat) (f : Nat → Word) (s : State) :
    ((s.draw 0 = .never ∨ s.callOk 0 ∧ s.draw 1 = .never) ∧ readInto reg n f s = .fault .transportNeverReturns) ∨
    (∃ a b0 b1, s.draw 0 = .returns a ∧ answerFailure a = none ∧ s.draw 1 = .returns (.ok b0 b1)
      ∧ readInto reg n f s = complete
          { (s.called (.write [reg] .ok)).called (.read n (.ok ([b0, b1].take n))) with
            res := f (bigEndian ([b0, b1].take n)) }) ∨
    (∃ a c, s.draw 0 = .returns a ∧ answerFailure a = some c
      ∧ readInto reg n f s = transportError c (s.called (.write [reg] (.fail c)))) ∨
    (∃ a a' c, s.draw 0 = .returns a ∧ answerFailure a = none
      ∧ s.draw 1 = .returns a' ∧ answerFailure a' = some c
      ∧ readInto reg n f s = transportError c ((s.called (.write [reg] .ok)).called (.read n (.fail c)))) := by
  rcases memRead_cases reg n s with ⟨hd, h⟩ | ⟨a, b0, b1, hd, hf, hd1, h⟩ | ⟨a, c, hd, hf, h⟩
    | ⟨a, a', c, hd, hf, hd1, hf1, h⟩
  · simp [readInto, h, hd]
  · simp [readInto, h, hd, hf, hd1]
  · exact .inr (.inr (.inl ⟨a, c, hd, hf, by simp [readInto, h]⟩))
  · exact .inr (.inr (.inr ⟨a, a', c, hd, hf, hd1, hf1, by simp [readInto, h]⟩))

/-- Everything an OPEN can do (R78). -/
theorem execOpen_cases (bus addr : Byte) (s : State) :
    (s.hOpen = true ∧ execOpen bus addr s = raise .invalidArgument 0 s) ∨
    (s.hOpen = false ∧ (s.draw 0 = .never ∨ (s.callOk 0 ∧ s.draw 1 = .never)
        ∨ (s.callOk 0 ∧ (∃ c, s.callFails 1 c) ∧ s.draw 2 = .never)) ∧ execOpen bus addr s = .fault .transportNeverReturns) ∨
    (s.hOpen = false ∧ ∃ a c, s.draw 0 = .returns a ∧ answerFailure a = some c
      ∧ execOpen bus addr s = raise .busUnavailable c.code (s.called (.open_ bus (.fail c)))) ∨
    (s.hOpen = false ∧ ∃ a a' a'' c, s.draw 0 = .returns a ∧ answerFailure a = none
      ∧ s.draw 1 = .returns a' ∧ answerFailure a' = some c ∧ s.draw 2 = .returns a''
      ∧ execOpen bus addr s = raise .addressSelectFailed c.code
          (((s.called (.open_ bus .ok)).called (.select addr (.fail c))).called .close)) ∨
    (s.hOpen = false ∧ ∃ a a', s.draw 0 = .returns a ∧ answerFailure a = none
      ∧ s.draw 1 = .returns a' ∧ answerFailure a' = none
      ∧ execOpen bus addr s = openHandle bus addr
          ((s.called (.open_ bus .ok)).called (.select addr .ok))) := by
  cases ho : s.hOpen
  · rcases busCall_cases (.open_ bus) s with ⟨hd, h⟩ | ⟨a, hd, hf, h⟩ | ⟨a, c, hd, hf, h⟩
    · refine .inr (.inl ⟨rfl, .inl hd, ?_⟩)
      simp [execOpen, ho, busOpen, h]
    · have h1 := busCall_cases (.select addr) (s.called (.open_ bus .ok))
      simp only [draw_called] at h1
      rcases h1 with ⟨hd1, h1⟩ | ⟨a', hd1, hf1, h1⟩ | ⟨a', c, hd1, hf1, h1⟩
      · refine .inr (.inl ⟨rfl, .inr (.inl ⟨callOk_iff.2 ⟨a, hd, hf⟩, hd1⟩), ?_⟩)
        simp [execOpen, ho, busOpen, busSelect, h, h1]
      · refine .inr (.inr (.inr (.inr ⟨rfl, a, a', hd, hf, hd1, hf1, ?_⟩)))
        simp [execOpen, ho, busOpen, busSelect, h, h1]
      · have h2 := busClose_cases ((s.called (.open_ bus .ok)).called (.select addr (.fail c)))
          (raise .addressSelectFailed c.code)
        simp only [draw_called] at h2
        rcases h2 with ⟨hd2, h2⟩ | ⟨a'', hd2, h2⟩
        · refine .inr (.inl ⟨rfl, .inr (.inr ⟨callOk_iff.2 ⟨a, hd, hf⟩, ⟨c, callFails_iff.2 ⟨a', hd1, hf1⟩⟩, hd2⟩), ?_⟩)
          simp [execOpen, ho, busOpen, busSelect, h, h1, openCleanUp, h2]
        · refine .inr (.inr (.inr (.inl ⟨rfl, a, a', a'', c, hd, hf, hd1, hf1, hd2, ?_⟩)))
          simp [execOpen, ho, busOpen, busSelect, h, h1, openCleanUp, h2]
    · refine .inr (.inr (.inl ⟨rfl, a, c, hd, hf, ?_⟩))
      simp [execOpen, ho, busOpen, h]
  · exact .inl ⟨rfl, by simp [execOpen, ho]⟩

/-- Everything a CLOSE can do (R79). -/
theorem execClose_cases (s : State) :
    (s.hOpen = false ∧ execClose s = complete s) ∨
    (s.hOpen = true ∧ s.draw 0 = .never ∧ execClose s = .fault .transportNeverReturns) ∨
    (s.hOpen = true ∧ ∃ a, s.draw 0 = .returns a
      ∧ execClose s = complete { s.called .close with hOpen := false, hTx := .none }) := by
  cases ho : s.hOpen
  · exact .inl ⟨rfl, by simp [execClose, ho]⟩
  · rcases busClose_cases s (fun s' => complete { s' with hOpen := false, hTx := .none }) with ⟨hd, h⟩ | ⟨a, hd, h⟩
    · exact .inr (.inl ⟨rfl, hd, by simp [execClose, ho, h]⟩)
    · exact .inr (.inr ⟨rfl, a, hd, by simp [execClose, ho, h]⟩)

/-- Everything a WRBLK can do after its handle check (R86). -/
theorem sendBlock_cases (s : State) :
    ((s.blkLen.toInt < 0 ∨ (s.params.blkMax : Int) < s.blkLen.toInt) ∧ sendBlock s = raise .invalidArgument 0 s) ∨
    (s.blkLen.toInt = 0 ∧ sendBlock s = complete s) ∨
    (0 < s.blkLen.toInt ∧ s.blkLen.toInt ≤ s.params.blkMax
      ∧ sendBlock s = sendBytes (blockBytes s.blkBuf s.blkLen.toNat) s) := by
  unfold sendBlock
  split
  · simp_all
  · split
    · simp_all
    · split
      · simp_all
      · refine .inr (.inr ⟨by omega, by omega, rfl⟩)

end Sys2Proof.Machine
end

