-- ==== Sys2Proof/Laws/Calibration.lean ====
section
/-! SUPPORT. What the calibration reads do (41_calibration.md R93, R94): they touch nothing but TH and the count of calls. -/

namespace Sys2Proof.Machine

/-- An event of a register access: neither a BusOpen nor a BusClose, and of the right size (R10). -/
abbrev Event.transfer (e : Event) : Prop := e.opens = false ∧ e.closes = false ∧ e.sized = true

/-- `s'` is `s` after some register accesses on the bus. -/
def Transfers (s s' : State) : Prop :=
  ∃ evs : List Event, s' = { s with th := s.th ++ evs, calls := s.calls + evs.length } ∧ ∀ e ∈ evs, e.transfer

theorem Transfers.refl (s : State) : Transfers s s := ⟨[], by simp, by simp⟩

theorem Transfers.called {s s' : State} (h : Transfers s s') {e : Event} (he : e.transfer) :
    Transfers s (s'.called e) := by
  obtain ⟨evs, rfl, hevs⟩ := h
  refine ⟨evs ++ [e], by simp [State.called, Nat.add_assoc], fun d hd => ?_⟩
  rcases List.mem_append.1 hd with hd | hd
  · exact hevs d hd
  · rw [List.mem_singleton.1 hd]; exact he

theorem Transfers.trans {s s' s'' : State} (h : Transfers s s') (h' : Transfers s' s'') : Transfers s s'' := by
  obtain ⟨evs, rfl, hevs⟩ := h
  obtain ⟨evs', rfl, hevs'⟩ := h'
  refine ⟨evs ++ evs', by simp [Nat.add_assoc], fun d hd => ?_⟩
  rcases List.mem_append.1 hd with hd | hd
  · exact hevs d hd
  · exact hevs' d hd

/-- A register read, whatever it comes to, is register accesses on the bus. -/
theorem memRead_transfers (reg : Byte) (s : State) :
    match memRead reg 1 s with
    | .ok _ s' => ∃ e e' : Event, e.transfer ∧ e'.transfer ∧ s' = (s.called e).called e'
    | .fail _ s' => Transfers s s'
    | .never => ∃ k, k < 2 ∧ s.draw k = .never := by
  rcases memRead_cases reg 1 s with ⟨hd, h⟩ | ⟨a, b0, b1, hd, hf, hd1, h⟩ | ⟨a, c, hd, hf, h⟩
    | ⟨a, a', c, hd, hf, hd1, hf1, h⟩ <;> simp only [h]
  · rcases hd with hd | ⟨-, hd⟩
    · exact ⟨0, by decide, hd⟩
    · exact ⟨1, by decide, hd⟩
  · exact ⟨_, _, ⟨rfl, rfl, rfl⟩, ⟨rfl, rfl, rfl⟩, rfl⟩
  · exact (Transfers.refl s).called ⟨rfl, rfl, rfl⟩
  · exact ((Transfers.refl s).called ⟨rfl, rfl, rfl⟩).called
      ⟨rfl, rfl, rfl⟩

/-- Every way the calibration reads can end: register accesses on the bus, or a call that never returns. -/
theorem readCal_transfers (regs : List Byte) (table : List (Byte × Byte)) (s : State) :
    match readCal table s regs with
    | .done _ s' => Transfers s s'
    | .failed _ _ s' => Transfers s s'
    | .never => ∃ k, k < 2 * regs.length ∧ s.draw k = .never := by
  induction regs generalizing table s with
  | nil => exact Transfers.refl s
  | cons reg rest ih =>
    have hm := memRead_transfers reg s
    rcases hr : memRead reg 1 s with ⟨v, s'⟩ | ⟨c, s'⟩ | _
    · simp only [hr] at hm
      obtain ⟨e, e', he, he', rfl⟩ := hm
      have ht := ((Transfers.refl s).called he).called he'
      have hi := ih (table ++ [(reg, BitVec.ofNat 8 v)]) ((s.called e).called e')
      simp only [readCal, hr]
      rcases hc : readCal (table ++ [(reg, BitVec.ofNat 8 v)]) ((s.called e).called e') rest with ⟨t, s''⟩ | ⟨r, c, s''⟩ | _ <;>
        simp only [hc] at hi ⊢
      · exact ht.trans hi
      · exact ht.trans hi
      · obtain ⟨k, hlt, hk⟩ := hi
        exact ⟨k + 2, by simp only [List.length_cons]; omega, by simpa using hk⟩
    · simp only [hr] at hm
      simpa only [readCal, hr] using hm
    · simp only [hr] at hm
      simp only [readCal, hr]
      obtain ⟨k, hlt, hk⟩ := hm
      exact ⟨k, by simp only [List.length_cons]; omega, hk⟩

/-- Which calls the calibration reads make, by how they end: all of them, those up to the one that fails, or those up to the one that
never returns. -/
theorem readCal_calls (regs : List Byte) (table : List (Byte × Byte)) (s : State) :
    match readCal table s regs with
    | .done _ s' => s'.calls = s.calls + 2 * regs.length ∧ ∀ j, j < 2 * regs.length → s.callOk j
    | .failed _ _ s' => ∃ k c, k < 2 * regs.length ∧ s'.calls = s.calls + k + 1 ∧ s.callFails k c ∧ ∀ j, j < k → s.callOk j
    | .never => ∃ k, k < 2 * regs.length ∧ s.draw k = .never ∧ ∀ j, j < k → s.callOk j := by
  induction regs generalizing table s with
  | nil => simp [readCal]
  | cons reg rest ih =>
    have first : ∀ {j}, s.callOk 0 → j < 1 → s.callOk j := fun h hj => by
      rw [Nat.lt_one_iff.1 hj]; exact h
    have two : ∀ {P : Nat → Prop}, P 0 → P 1 → (∀ j, P (j + 2)) → ∀ j, P j := fun h0 h1 h2 j => by
      match j with
      | 0 => exact h0
      | 1 => exact h1
      | j + 2 => exact h2 j
    rcases memRead_cases reg 1 s with ⟨hd, h⟩ | ⟨a, b0, b1, hd, hf, hd1, h⟩ | ⟨a, c, hd, hf, h⟩
      | ⟨a, a', c, hd, hf, hd1, hf1, h⟩ <;> simp only [readCal, h]
    · rcases hd with hd | ⟨h0, hd⟩
      · exact ⟨0, by simp only [List.length_cons]; omega, hd, by simp⟩
      · exact ⟨1, by simp only [List.length_cons]; omega, hd, fun j => first h0⟩
    · have h0 : s.callOk 0 := callOk_iff.2 ⟨a, hd, hf⟩
      have h1 : s.callOk 1 := ⟨b0, b1, hd1⟩
      have hi := ih (table ++ [(reg, BitVec.ofNat 8 (bigEndian ([b0, b1].take 1)))])
        ((s.called (.write [reg] .ok)).called (.read 1 (.ok ([b0, b1].take 1))))
      split <;> rename_i hr <;>
        simp only [hr, called_calls, draw_called, callOk_called, callFails_called, List.length_cons] at hi ⊢
      · exact ⟨by omega, two (fun _ => h0) (fun _ => h1) fun j hj => hi.2 j (by omega)⟩
      · obtain ⟨k, c, hk, hc, hfail, hok⟩ := hi
        exact ⟨k + 2, c, by omega, by omega, hfail, two (fun _ => h0) (fun _ => h1) fun j hj => hok j (by omega)⟩
      · obtain ⟨k, hk, hn, hok⟩ := hi
        exact ⟨k + 2, by omega, hn, two (fun _ => h0) (fun _ => h1) fun j hj => hok j (by omega)⟩
    · exact ⟨0, c, by simp only [List.length_cons]; omega, rfl, callFails_iff.2 ⟨a, hd, hf⟩, by simp⟩
    · have h0 : s.callOk 0 := callOk_iff.2 ⟨a, hd, hf⟩
      exact ⟨1, c, by simp only [List.length_cons]; omega, rfl, callFails_iff.2 ⟨a', hd1, hf1⟩, fun j => first h0⟩

/-- The state after reading the registers `regs`, whose bytes are `r` (R93). -/
def afterReads (r : Byte → Byte) (regs : List Byte) (s : State) : State :=
  { s with th := s.th ++ readsOf regs r, calls := s.calls + 2 * regs.length }

@[simp] theorem length_readsOf (regs : List Byte) (r : Byte → Byte) : (readsOf regs r).length = 2 * regs.length := by
  induction regs with
  | nil => rfl
  | cons a rest ih => simp only [readsOf, List.flatMap_cons, List.length_append] at ih ⊢; simp only [ih, List.length_cons, List.length_nil]; omega

/-- Reading registers is a run of calls. -/
theorem afterReads_eq_after (r : Byte → Byte) (regs : List Byte) (s : State) :
    afterReads r regs s = s.after (readsOf regs r) := by
  simp [afterReads, State.after]

theorem callsRead_tail {s : State} {r : Byte → Byte} {reg : Byte} {rest : List Byte} {e e' : Event}
    (h : s.callsRead (reg :: rest) r) : ((s.called e).called e').callsRead rest r := fun k a hk => by
  have := h (k + 1) a (by simpa using hk)
  simpa [State.callOk, Nat.mul_add] using this

theorem memRead_byte {s : State} {r : Byte → Byte} {reg : Byte} {rest : List Byte}
    (h : s.callsRead (reg :: rest) r) :
    memRead reg 1 s = .ok (r reg).toNat ((s.called (.write [reg] .ok)).called (.read 1 (.ok [r reg]))) := by
  obtain ⟨⟨x0, x1, hw⟩, b1, hb⟩ := h 0 reg rfl
  rcases memRead_cases reg 1 s with ⟨hd, -⟩ | ⟨a, x, y, -, -, hd1, hm⟩ | ⟨a, c, hd, hf, -⟩ | ⟨a, a', c, -, -, hd1, hf1, -⟩
  · simp_all
  · simp only [Nat.mul_zero, Nat.zero_add] at hb
    rw [hb] at hd1
    obtain ⟨rfl, rfl⟩ : r reg = x ∧ b1 = y := by simpa using hd1
    simpa [bigEndian] using hm
  · simp_all
  · simp_all

/-- R93: when every read succeeds, the loop reads every register once, in order. -/
theorem readCal_done {r : Byte → Byte} (regs : List Byte) (table : List (Byte × Byte)) (s : State)
    (h : s.callsRead regs r) :
    readCal table s regs = .done (table ++ regs.map fun a => (a, r a)) (afterReads r regs s) := by
  induction regs generalizing table s with
  | nil => simp [readCal, afterReads, readsOf]
  | cons reg rest ih =>
    rw [readCal, memRead_byte h]
    simp only [BitVec.ofNat_toNat, BitVec.setWidth_eq]
    rw [ih _ _ (callsRead_tail h)]
    simp [afterReads, State.called, readsOf, Nat.mul_add, Nat.add_assoc, Nat.add_comm, Nat.add_left_comm]

/-- R94: the loop stops at the first read that fails, the ones before it having succeeded. -/
theorem readCal_failed {r : Byte → Byte} (front : List Byte) (reg : Byte) (rest : List Byte) (c : FailCode) (s' : State)
    (table : List (Byte × Byte)) (s : State) (h : s.callsRead front r)
    (hf : memRead reg 1 (afterReads r front s) = .fail c s') :
    readCal table s (front ++ reg :: rest) = .failed reg c s' := by
  induction front generalizing table s with
  | nil =>
    have : afterReads r [] s = s := by simp [afterReads, readsOf]
    rw [this] at hf
    simp [readCal, hf]
  | cons a front ih =>
    rw [List.cons_append, readCal, memRead_byte h]
    refine ih _ _ (callsRead_tail h) ?_
    rw [← hf]
    congr 1
    simp [afterReads, State.called, readsOf, Nat.mul_add, Nat.add_assoc, Nat.add_comm, Nat.add_left_comm]

/-- A register looked up in the local table of reads. -/
theorem tableByte_map {r : Byte → Byte} {regs : List Byte} {a : Byte} (h : a ∈ regs) :
    tableByte (regs.map fun x => (x, r x)) a = r a := by
  induction regs with
  | nil => simp at h
  | cons b rest ih =>
    by_cases hb : a = b
    · simp [tableByte, hb]
    · have := ih ((List.mem_cons.1 h).resolve_left hb)
      simpa [tableByte, List.lookup, beq_false_of_ne hb] using this

/-- The store depends only on the registers LDCAL reads (R89, R91, R92). -/
theorem assembleCal_congr {r r' : Byte → Byte} (pack : HumPack) (h : ∀ a ∈ calAddresses, r a = r' a) :
    assembleCal pack r = assembleCal pack r' := by
  simp only [assembleCal, pair, packH4, packH5, BitVec.reduceAdd]
  simp (disch := decide) only [h]

end Sys2Proof.Machine
end

