-- ==== Sys2Proof/Laws/Commands.lean ====
section
/-! SUPPORT. Everything each command can do when it has a next state, by kind of command. -/

namespace Sys2Proof.Machine

/-- ERR and ERRINFO as R28, R111 and R113 pair them. -/
abbrev Reported (err : BitVec 4) (info : Word) : Prop :=
  err ∈ writtenCodes ∧ (info ≠ 0 ↔ err ∈ transportCodes)

theorem reported_plain {err : BitVec 4} (h : err ∈ [(0 : BitVec 4), 1, 6, 8]) : Reported err 0 := by
  revert h; revert err; decide

theorem reported_transport {err : BitVec 4} (h : err ∈ transportCodes) (c : FailCode) : Reported err c.code :=
  ⟨by revert h; revert err; decide, iff_of_true (failCode_ne_zero c) h⟩

/-- What a command that moves bytes can do: at most two transfers, and RES written only if it `reads` and succeeds. -/
abbrev TransferEffect (reads : Bool) (s t : State) : Prop :=
  ∃ (evs : List Event) (res info : Word) (err : BitVec 4),
    t = { s with res := res, err := err, errinfo := info, th := s.th ++ evs, calls := s.calls + evs.length } ∧
    evs.length ≤ 2 ∧ (∀ e ∈ evs, e.transfer) ∧ Reported err info ∧ (res ≠ s.res → err = 0 ∧ reads = true)

theorem TransferEffect.report (reads : Bool) (s : State) {err : BitVec 4} (h : err ∈ [(0 : BitVec 4), 1, 6, 8]) :
    TransferEffect reads s { s with err := err, errinfo := 0 } :=
  ⟨[], s.res, 0, err, by simp, by simp, by simp, reported_plain h, fun hne => absurd rfl hne⟩

theorem sendBytes_effect {reads : Bool} {bytes : List Byte} {s t : State} (hb : bytes ≠ [])
    (h : sendBytes bytes s = .next t) : TransferEffect reads s t := by
  rcases sendBytes_cases bytes s with ⟨-, he⟩ | ⟨a, -, -, he⟩ | ⟨a, c, -, -, he⟩ <;> rw [he] at h
  · cases h
  · cases h
    exact ⟨[.write bytes .ok], s.res, 0, 0, rfl, by simp, by simp [Event.transfer, Event.opens, Event.closes, Event.sized, hb],
      reported_plain (by decide), fun hne => absurd rfl hne⟩
  · cases h
    exact ⟨[.write bytes (.fail c)], s.res, c.code, 4, rfl, by simp,
      by simp [Event.transfer, Event.opens, Event.closes, Event.sized, hb], reported_transport (by decide) c, fun hne => absurd rfl hne⟩

theorem readInto_effect {reg : Byte} {n : Nat} {f : Nat → Word} {s t : State} (hn : n = 1 ∨ n = 2)
    (h : readInto reg n f s = .next t) : TransferEffect true s t := by
  rcases readInto_cases reg n f s with ⟨-, he⟩ | ⟨a, b0, b1, -, -, -, he⟩ | ⟨a, c, -, -, he⟩
    | ⟨a, a', c, -, -, -, -, he⟩ <;> rw [he] at h
  · cases h
  · cases h
    refine ⟨[.write [reg] .ok, .read n (.ok ([b0, b1].take n))], f (bigEndian ([b0, b1].take n)), 0, 0,
      by simp [setErr, State.called, ErrCode.code], by simp, ?_, reported_plain (by decide), fun _ => ⟨rfl, rfl⟩⟩
    rcases hn with rfl | rfl <;> simp [Event.transfer, Event.opens, Event.closes, Event.sized]
  · cases h
    exact ⟨[.write [reg] (.fail c)], s.res, c.code, 4, rfl, by simp, by simp [Event.transfer, Event.opens, Event.closes, Event.sized],
      reported_transport (by decide) c, fun hne => absurd rfl hne⟩
  · cases h
    exact ⟨[.write [reg] .ok, .read n (.fail c)], s.res, c.code, 4, by simp [setErr, State.called, ErrCode.code], by simp,
      by simp [Event.transfer, Event.opens, Event.closes, Event.sized], reported_transport (by decide) c, fun hne => absurd rfl hne⟩

theorem sendBlock_effect {reads : Bool} {s t : State} (h : sendBlock s = .next t) : TransferEffect reads s t := by
  rcases sendBlock_cases s with ⟨-, he⟩ | ⟨-, he⟩ | ⟨h0, -, he⟩ <;> rw [he] at h
  · cases h; exact TransferEffect.report reads s (by decide)
  · cases h; exact TransferEffect.report reads s (by decide)
  · refine sendBytes_effect (fun hb => ?_) h
    have hz : s.blkLen = 0 := BitVec.eq_of_toNat_eq (by simpa [blockBytes] using hb)
    rw [hz] at h0
    exact absurd h0 (by decide)

theorem withHandle_effect {reads : Bool} {s t : State} {k : State → Result}
    (hk : k s = .next t → TransferEffect reads s t) (h : withHandle s k = .next t) : TransferEffect reads s t := by
  rcases withHandle_cases s k with ⟨-, he⟩ | ⟨-, he⟩ <;> rw [he] at h
  · cases h; exact TransferEffect.report reads s (by decide)
  · exact hk h

/-- The commands of 40_transaction.md that move bytes (R80 to R86). -/
theorem exec_transfer_next {i : Instr} {s t : State}
    (hi : i.mnemonic ∈ ["RDB", "RDW", "RDWS", "WRB", "WRW", "WRC", "WRBLK"]) (h : exec i s = .next t) :
    TransferEffect (i.mnemonic ∈ ["RDB", "RDW", "RDWS"]) s t := by
  cases i with
  | rdb reg => exact withHandle_effect (readInto_effect (.inl rfl)) h
  | rdw reg => exact withHandle_effect (readInto_effect (.inr rfl)) h
  | rdws reg => exact withHandle_effect (readInto_effect (.inr rfl)) h
  | wrb reg value => exact withHandle_effect (sendBytes_effect (by simp)) h
  | wrw reg value => exact withHandle_effect (sendBytes_effect (by simp [wordWriteBytes])) h
  | wrc cmd => exact withHandle_effect (sendBytes_effect (by simp)) h
  | wrblk => exact withHandle_effect sendBlock_effect h
  | openBus _ _ | close | ldcal | cmpt _ _ _ | cmph _ _ | cmpp _ _ _ => simp [Instr.mnemonic] at hi

/-- LDCAL (R93, R94): register accesses, then the store; or nothing, with no handle open. -/
theorem exec_ldcal_next {s t : State} (h : exec .ldcal s = .next t) :
    (s.hOpen = false ∧ t = setErr .invalidArgument 0 s) ∨
    (s.hOpen = true ∧ ∃ (evs : List Event) (r : Byte → Byte), evs.length ≤ 64 ∧ (∀ e ∈ evs, e.transfer) ∧
      (t = { s with
          cal := assembleCal s.params.humPack r, calValid := true, tfValid := false,
          th := s.th ++ evs, calls := s.calls + evs.length, err := 0, errinfo := 0 } ∨
       ∃ (reg : Byte) (c : FailCode), t = { s with
          res := zext32 reg, cal := assembleCal s.params.humPack r, calValid := false, tfValid := false,
          th := s.th ++ evs, calls := s.calls + evs.length, err := 7, errinfo := c.code })) := by
  simp only [exec, execLdcal] at h
  rcases withHandle_cases s (fun s => finishLoad (readCal [] (beginLoad s) calAddresses)) with ⟨ho, he⟩ | ⟨ho, he⟩ <;>
    rw [he] at h
  · exact .inl ⟨ho, by cases h; rfl⟩
  · refine .inr ⟨ho, ?_⟩
    have ht := readCal_transfers calAddresses [] (beginLoad s)
    have hl := readCal_calls calAddresses [] (beginLoad s)
    rcases hr : readCal [] (beginLoad s) calAddresses with ⟨table, s'⟩ | ⟨reg, c, s'⟩ | _ <;>
      simp only [hr] at h ht hl
    · obtain ⟨evs, rfl, hevs⟩ := ht
      refine ⟨evs, tableByte table, ?_, hevs, .inl ?_⟩
      · have h1 := hl.1
        simp [calAddresses] at h1; omega
      · cases h; rfl
    · obtain ⟨evs, rfl, hevs⟩ := ht
      refine ⟨evs, Config.freeCalByte (s.calls + evs.length), ?_, hevs, .inr ⟨reg, c, ?_⟩⟩
      · obtain ⟨k, d, hk, h1, -⟩ := hl
        simp [calAddresses] at hk h1; omega
      · cases h; rfl
    · cases h

/-- The precondition of CMPT (R105). -/
theorem withCal_cases (s : State) (k : State → Result) :
    (s.calValid = false ∧ withCal s k = raise .preconditionViolation 0 s) ∨
    (s.calValid = true ∧ withCal s k = k s) := by
  cases h : s.calValid <;> simp [withCal, h]

/-- The precondition of CMPH and CMPP (R105). -/
theorem withCalAndTf_cases (s : State) (k : State → Result) :
    ((s.calValid = false ∨ s.tfValid = false) ∧ withCalAndTf s k = raise .preconditionViolation 0 s) ∨
    (s.calValid = true ∧ s.tfValid = true ∧ withCalAndTf s k = k s) := by
  cases h : s.calValid <;> cases h' : s.tfValid <;> simp [withCalAndTf, h, h']

/-- What a compensation command whose precondition holds writes (R103). -/
theorem compensated_next {res : Word} {resf : DWord} {o z c : Bool} {s t : State}
    (h : compensated res resf o z c s = .next t) :
    t = { s with
      res := res, resf := resf, ovf := o, zdiv := z, sat := c, sovf := s.sovf || o, err := 0, errinfo := 0 } := by
  simpa [compensated, setErr, setFlags, ErrCode.code] using h

/-- The compensation commands (R103, R105): the precondition error, or the result writes. -/
theorem exec_compensation_next {i : Instr} {s t : State} (hi : i.mnemonic ∈ ["CMPT", "CMPH", "CMPP"])
    (h : exec i s = .next t) :
    t = setErr .preconditionViolation 0 s ∨
    (s.calValid = true ∧ ∃ (tf res : Word) (tfValid : Bool) (resf : DWord) (ovf zdiv sat : Bool),
      t = { s with
        tf := tf, tfValid := tfValid, res := res, resf := resf, ovf := ovf, zdiv := zdiv, sat := sat,
        sovf := s.sovf || ovf, err := 0, errinfo := 0 } ∧
      ¬ (zdiv = true ∧ sat = true) ∧
      ((∃ m l x, i = .cmpt m l x) ∧ tfValid = true ∨ tf = s.tf ∧ tfValid = s.tfValid)) := by
  cases i with
  | cmpt m l x =>
    simp only [exec, execCmpt] at h
    generalize hk : (fun s : State => _) = k at h
    rcases withCal_cases s k with ⟨-, he⟩ | ⟨hv, he⟩ <;> rw [he] at h
    · cases h; exact .inl rfl
    · subst hk
      have ht := compensated_next h
      exact .inr ⟨hv, _, _, _, _, _, _, _, ht, by simp, .inl ⟨⟨m, l, x, rfl⟩, rfl⟩⟩
  | cmph m l =>
    simp only [exec, execCmph] at h
    generalize hk : (fun s : State => _) = k at h
    rcases withCalAndTf_cases s k with ⟨-, he⟩ | ⟨hv, -, he⟩ <;> rw [he] at h
    · cases h; exact .inl rfl
    · subst hk
      have ht := compensated_next h
      exact .inr ⟨hv, _, _, _, _, _, _, _, ht, by simp, .inr ⟨rfl, rfl⟩⟩
  | cmpp m l x =>
    simp only [exec, execCmpp] at h
    generalize hk : (fun s : State => _) = k at h
    rcases withCalAndTf_cases s k with ⟨-, he⟩ | ⟨hv, -, he⟩ <;> rw [he] at h
    · cases h; exact .inl rfl
    · subst hk
      simp only at h
      split at h
      · have ht := compensated_next h
        exact .inr ⟨hv, _, _, _, _, _, _, _, ht, by simp, .inr ⟨rfl, rfl⟩⟩
      · have ht := compensated_next h
        exact .inr ⟨hv, _, _, _, _, _, _, _, ht, by simp, .inr ⟨rfl, rfl⟩⟩
  | openBus _ _ | close | ldcal | rdb _ | rdw _ | rdws _ | wrb _ _ | wrw _ _ | wrc _ | wrblk =>
    simp [Instr.mnemonic] at hi

end Sys2Proof.Machine
end

