-- ==== Sys2Proof/Laws/Decode.lean ====
section
/-! SUPPORT. The fields of a command word, and which words have a given opcode. -/

namespace Sys2Proof

/-- Bit `i` of a command word, by the field it falls in (R64). -/
theorem getLsbD_commandWord (o a b c : Byte) (i : Nat) :
    (commandWord o a b c).getLsbD i =
      if i < 8 then c.getLsbD i else if i < 16 then b.getLsbD (i - 8)
        else if i < 24 then a.getLsbD (i - 16) else o.getLsbD (i - 24) := by
  simp only [commandWord, BitVec.getLsbD_append]
  split
  · rfl
  · by_cases h1 : i < 16
    · rw [if_pos h1, if_pos (by omega)]
    · rw [if_neg h1, if_neg (by omega)]
      by_cases h2 : i < 24
      · rw [if_pos h2, if_pos (by omega)]; rfl
      · rw [if_neg h2, if_neg (by omega)]; rfl

@[simp] theorem opc_commandWord (o a b c : Byte) : Word.opc (commandWord o a b c) = o := by
  ext i hi
  simp only [Word.opc, ← BitVec.getLsbD_eq_getElem, BitVec.getLsbD_extractLsb', getLsbD_commandWord]
  rw [if_neg (by omega), if_neg (by omega), if_neg (by omega), decide_eq_true hi, Bool.true_and]
  congr 1; omega
@[simp] theorem fieldA_commandWord (o a b c : Byte) : Word.fieldA (commandWord o a b c) = a := by
  ext i hi
  simp only [Word.fieldA, ← BitVec.getLsbD_eq_getElem, BitVec.getLsbD_extractLsb', getLsbD_commandWord]
  rw [if_neg (by omega), if_neg (by omega), if_pos (by omega), decide_eq_true hi, Bool.true_and]
  congr 1; omega
@[simp] theorem fieldB_commandWord (o a b c : Byte) : Word.fieldB (commandWord o a b c) = b := by
  ext i hi
  simp only [Word.fieldB, ← BitVec.getLsbD_eq_getElem, BitVec.getLsbD_extractLsb', getLsbD_commandWord]
  rw [if_neg (by omega), if_pos (by omega), decide_eq_true hi, Bool.true_and]
  congr 1; omega
@[simp] theorem fieldC_commandWord (o a b c : Byte) : Word.fieldC (commandWord o a b c) = c := by
  ext i hi
  simp only [Word.fieldC, ← BitVec.getLsbD_eq_getElem, BitVec.getLsbD_extractLsb', getLsbD_commandWord]
  rw [if_pos (by omega), decide_eq_true hi, Bool.true_and]
  congr 1; omega

/-- A word is the command word of its four fields. -/
theorem commandWord_fields (w : Word) :
    commandWord (Word.opc w) (Word.fieldA w) (Word.fieldB w) (Word.fieldC w) = w := by
  ext i hi
  simp only [← BitVec.getLsbD_eq_getElem, getLsbD_commandWord]
  simp only [Word.opc, Word.fieldA, Word.fieldB, Word.fieldC, BitVec.getLsbD_extractLsb']
  split
  · simp_all
  · split
    · rw [decide_eq_true (by omega), Bool.true_and]; congr 1; omega
    · split
      · rw [decide_eq_true (by omega), Bool.true_and]; congr 1; omega
      · rw [decide_eq_true (by omega), Bool.true_and]; congr 1; omega

@[simp] theorem decodeReserved_ok {z : Bool} {i j : Instr} : decodeReserved z i = .ok j ↔ z = true ∧ i = j := by
  cases z <;> simp [decodeReserved]

/-- The bytes of a 16-bit operand. -/
theorem half_bytes (v : Half) : v.extractLsb' 8 8 ++ v.extractLsb' 0 8 = v := by
  ext i hi
  simp only [← BitVec.getLsbD_eq_getElem, BitVec.getLsbD_append, BitVec.getLsbD_extractLsb']
  split
  · simp_all
  · rw [decide_eq_true (by omega), Bool.true_and]; congr 1; omega

end Sys2Proof
end

