-- ==== Sys2Proof/Laws/HostPort.lean ====
section
/-! SUPPORT. What one host action can do (20_memory.md R57 to R60): the offsets of the map, and the step's inversion. -/

namespace Sys2Proof.Machine

/-- An access of the form R59 admits reaches the register at its offset. -/
theorem portAccess_ok {blkMax offset : Nat} {r : PortReg} (ha : offset % 4 = 0) (hr : portRegAt blkMax offset = some r) :
    portAccess blkMax offset 32 = .ok r := by
  simp [portAccess, ha, hr]

theorem portAccess_eq_ok {blkMax offset width : Nat} {r : PortReg} (h : portAccess blkMax offset width = .ok r) :
    width = 32 ∧ offset % 4 = 0 ∧ portRegAt blkMax offset = some r := by
  unfold portAccess at h
  split at h
  · cases h
  · split at h
    · cases h
    · split at h
      · cases h; exact ⟨by omega, by omega, by assumption⟩
      · cases h

/-- The offsets of the map below 0x100. -/
theorem portMap_offsets {offset : Nat} {r : PortReg} (h : portMap.lookup offset = some r) : (offset, r) ∈ portMap := by
  generalize portMap = m at h
  induction m with
  | nil => cases h
  | cons p rest ih =>
    obtain ⟨o, q⟩ := p
    rw [List.lookup_cons] at h
    by_cases ho : offset = o
    · subst ho; simp at h; subst h; exact List.mem_cons_self ..
    · rw [beq_false_of_ne ho] at h; exact List.mem_cons_of_mem _ (ih h)

/-- BLK_BUF_i stands at `0x100 + 4i` (R58). -/
theorem portRegAt_blkBuf {blkMax i : Nat} (h : i < blkMax) : portRegAt blkMax (0x100 + 4 * i) = some (.blkBuf i) := by
  have h1 : (0x100 + 4 * i - 0x100) / 4 = i := by omega
  have h2 : 0x100 ≤ 0x100 + 4 * i := by omega
  simp only [portRegAt, h2, if_true, h1, h]

theorem portRegAt_low {blkMax offset : Nat} (h : offset < 0x100) : portRegAt blkMax offset = portMap.lookup offset := by
  have h1 : ¬ 0x100 ≤ offset := by omega
  simp only [portRegAt, h1, if_false]

/-- Where each register of the port stands (R58). -/
theorem portRegAt_eq_some {blkMax offset : Nat} {r : PortReg} (h : portRegAt blkMax offset = some r) :
    (offset < 0x100 ∧ (offset, r) ∈ portMap) ∨
    (0x100 ≤ offset ∧ (offset - 0x100) / 4 < blkMax ∧ r = .blkBuf ((offset - 0x100) / 4)) := by
  unfold portRegAt at h
  split at h
  · split at h
    · cases h; exact .inr ⟨by assumption, by assumption, rfl⟩
    · cases h
  · exact .inl ⟨by omega, portMap_offsets h⟩

/-- The registers of the map that a host write changes. -/
theorem portMap_cmd {offset : Nat} (h : (offset, PortReg.cmd) ∈ portMap) : offset = 0x000 := by
  simpa [portMap] using h

theorem portMap_blkLen {offset : Nat} (h : (offset, PortReg.blkLen) ∈ portMap) : offset = 0x020 := by
  simpa [portMap] using h

theorem portMap_noBuf {offset i : Nat} : (offset, PortReg.blkBuf i) ∉ portMap := by
  simp [portMap]

/-- What a write of a command word comes to (R33, R66, R67). -/
theorem issue_next {w : Word} {s t : State} (h : issue w s = .next t) :
    (∃ i, decode w = .ok i ∧ exec i { s with cmdLast := w } = .next t) ∨
    (∃ e, decode w = .error e ∧ t = { s with cmdLast := w, err := 8, errinfo := 0 }) := by
  unfold issue at h
  rcases hd : decode w with e | i
  · simp only [hd] at h
    refine .inr ⟨e, rfl, ?_⟩
    cases h; rfl
  · simp only [hd] at h
    exact .inl ⟨i, rfl, h⟩

/-- Everything a step can do, when it has a next state. -/
theorem step_next {s t : State} (h : step s = .next t) :
    (∃ w i rest, s.host = .write 0x000 32 w :: rest ∧ decode w = .ok i
      ∧ exec i { s with host := rest, cmdLast := w } = .next t) ∨
    (∃ w e rest, s.host = .write 0x000 32 w :: rest ∧ decode w = .error e
      ∧ t = { s with host := rest, cmdLast := w, err := 8, errinfo := 0 }) ∨
    (∃ v rest, s.host = .write 0x020 32 v :: rest ∧ t = { s with host := rest, blkLen := v }) ∨
    (∃ i v rest, s.host = .write (0x100 + 4 * i) 32 v :: rest ∧ i < s.params.blkMax
      ∧ t = { s with host := rest, blkBuf := Memory.write s.blkBuf i (v.setWidth 8) }) ∨
    (∃ offset v rest, s.host = .write offset 32 v :: rest ∧ t = { s with host := rest }) ∨
    (∃ offset v rest, s.host = .read offset 32 :: rest
      ∧ t = { s with host := rest, hostReads := s.hostReads ++ [(offset, v)] }) := by
  unfold step at h
  split at h
  · cases h
  · rename_i a rest hhost
    cases a with
    | read offset width =>
      simp only [perform] at h
      split at h
      · rename_i r hr
        cases h
        obtain ⟨rfl, -, -⟩ := portAccess_eq_ok hr
        exact .inr (.inr (.inr (.inr (.inr ⟨offset, _, rest, hhost, rfl⟩))))
      · cases h
    | write offset width v =>
      simp only [perform] at h
      split at h
      · rename_i r hr
        obtain ⟨rfl, hal, hreg⟩ := portAccess_eq_ok hr
        have hat := portRegAt_eq_some hreg
        cases r with
        | cmd =>
          obtain ⟨-, hm⟩ | ⟨-, -, hc⟩ := hat
          · cases portMap_cmd hm
            rcases issue_next h with ⟨i, hd, he⟩ | ⟨e, hd, he⟩
            · exact .inl ⟨v, i, rest, hhost, hd, he⟩
            · exact .inr (.inl ⟨v, e, rest, hhost, hd, he⟩)
          · cases hc
        | blkLen =>
          obtain ⟨-, hm⟩ | ⟨-, -, hc⟩ := hat
          · cases portMap_blkLen hm
            cases h
            exact .inr (.inr (.inl ⟨v, rest, hhost, rfl⟩))
          · cases hc
        | blkBuf i =>
          obtain ⟨-, hm⟩ | ⟨hge, hlt, hc⟩ := hat
          · exact absurd hm portMap_noBuf
          · cases hc
            cases h
            refine .inr (.inr (.inr (.inl ⟨_, v, rest, ?_, hlt, rfl⟩)))
            rw [hhost]
            congr 2
            omega
        | err | errinfo | res | resfLo | resfHi | stat | tf | handle | cal c =>
          cases h
          exact .inr (.inr (.inr (.inr (.inl ⟨offset, v, rest, hhost, rfl⟩))))
      · cases h

/-- R57, R58: the step of a command. -/
theorem step_command {w : Word} {i : Instr} {rest : List HostAction} {s : State}
    (h : s.host = .write 0x000 32 w :: rest) (hd : decode w = .ok i) :
    step s = exec i { s with host := rest, cmdLast := w } := by
  have hr : portAccess s.params.blkMax 0 32 = .ok .cmd := portAccess_ok rfl (portRegAt_low (by decide))
  simp only [step, h, perform, hr, portWrite, issue, hd]

end Sys2Proof.Machine
end

