-- ==== Sys2Proof/Laws/Memory.lean ====
section
/-! SUPPORT. The bytes of BLK_BUF: read after write, and that a write keeps the canonical form. -/

namespace Sys2Proof.Machine

/-- An index below every listed one reads 0. -/
theorem Memory.read_below {m : Memory} {i : Nat} (h : ∀ c ∈ m, i < c.1) : Memory.read m i = 0#8 := by
  induction m with
  | nil => rfl
  | cons c rest ih =>
    obtain ⟨a, v⟩ := c
    have ha : i < a := h (a, v) (by simp)
    rw [Memory.read, if_neg (by omega)]
    exact ih fun d hd => h d (by simp [hd])

/-- Reading the byte written (canonical form needed: a write of 0 takes out one entry). -/
theorem Memory.read_write_same {m : Memory} (hm : Memory.wf m) (i : Nat) (v : Byte) :
    Memory.read (Memory.write m i v) i = v := by
  induction m with
  | nil => by_cases hv : v = 0#8 <;> simp [Memory.write, Memory.read, hv]
  | cons c rest ih =>
    obtain ⟨a, u⟩ := c
    obtain ⟨hp, hz⟩ := hm
    rw [List.pairwise_cons] at hp
    have hrest : Memory.wf rest := ⟨hp.2, fun d hd => hz d (by simp [hd])⟩
    by_cases h1 : i < a
    · by_cases hv : v = 0#8
      · rw [Memory.write, if_pos h1, if_pos hv, hv]
        exact Memory.read_below fun d hd => by
          rcases List.mem_cons.1 hd with rfl | hd
          · exact h1
          · exact lt_trans h1 (hp.1 d hd)
      · simp [Memory.write, h1, hv, Memory.read]
    · by_cases h2 : i = a
      · by_cases hv : v = 0#8
        · rw [Memory.write, if_neg h1, if_pos h2, if_pos hv, hv]
          exact Memory.read_below fun d hd => h2 ▸ hp.1 d hd
        · simp [Memory.write, h2, hv, Memory.read]
      · rw [Memory.write, if_neg h1, if_neg h2, Memory.read, if_neg h2, ih hrest]

/-- A write leaves every other byte alone. -/
theorem Memory.read_write_ne (m : Memory) {i j : Nat} (v : Byte) (h : j ≠ i) :
    Memory.read (Memory.write m i v) j = Memory.read m j := by
  induction m with
  | nil => by_cases hv : v = 0#8 <;> simp [Memory.write, Memory.read, hv, h]
  | cons c rest ih =>
    obtain ⟨a, u⟩ := c
    by_cases h1 : i < a
    · by_cases hv : v = 0#8
      · simp [Memory.write, h1, hv]
      · simp [Memory.write, h1, hv, Memory.read, h]
    · by_cases h2 : i = a
      · by_cases hv : v = 0#8
        · simp [Memory.write, h2, hv, Memory.read, h2 ▸ h]
        · subst h2
          simp [Memory.write, hv, Memory.read, h]
      · simp only [Memory.write, if_neg h1, if_neg h2, Memory.read, ih]

/-- A write lists nothing new but the byte written. -/
theorem Memory.mem_write {m : Memory} {i : Nat} {v : Byte} {c : Host.Cell} (h : c ∈ Memory.write m i v) :
    c ∈ m ∨ (c = (i, v) ∧ v ≠ 0#8) := by
  induction m with
  | nil =>
    by_cases hv : v = 0#8
    · simp [Memory.write, hv] at h
    · simp only [Memory.write, if_neg hv, List.mem_singleton] at h
      exact .inr ⟨h, hv⟩
  | cons d rest ih =>
    obtain ⟨a, u⟩ := d
    rw [Memory.write] at h
    split at h
    · split at h
      · exact .inl h
      · rename_i hv
        rcases List.mem_cons.1 h with h | h
        · exact .inr ⟨h, hv⟩
        · exact .inl h
    · split at h
      · split at h
        · exact .inl (List.mem_cons_of_mem _ h)
        · rename_i hv
          rcases List.mem_cons.1 h with h | h
          · exact .inr ⟨h, hv⟩
          · exact .inl (List.mem_cons_of_mem _ h)
      · rcases List.mem_cons.1 h with h | h
        · exact .inl (by simp [h])
        · rcases ih h with h | h
          · exact .inl (List.mem_cons_of_mem _ h)
          · exact .inr h

/-- A write keeps the canonical form. -/
theorem Memory.wf_write {m : Memory} (hm : Memory.wf m) (i : Nat) (v : Byte) : Memory.wf (Memory.write m i v) := by
  refine ⟨?_, fun c hc => ?_⟩
  · induction m with
    | nil => by_cases hv : v = 0#8 <;> simp [Memory.write, hv]
    | cons d rest ih =>
      obtain ⟨a, u⟩ := d
      obtain ⟨hp, hz⟩ := hm
      have hp' := List.pairwise_cons.1 hp
      have hrest : Memory.wf rest := ⟨hp'.2, fun e he => hz e (by simp [he])⟩
      rw [Memory.write]
      split
      · rename_i h1
        split
        · exact hp
        · refine List.pairwise_cons.2 ⟨fun e he => ?_, hp⟩
          rcases List.mem_cons.1 he with rfl | he
          · exact h1
          · exact lt_trans h1 (hp'.1 e he)
      · split
        · rename_i h2
          split
          · exact hp'.2
          · exact List.pairwise_cons.2 ⟨fun e he => h2 ▸ hp'.1 e he, hp'.2⟩
        · rename_i h1 h2
          refine List.pairwise_cons.2 ⟨fun e he => ?_, ih hrest⟩
          rcases Memory.mem_write he with he | ⟨rfl, -⟩
          · exact hp'.1 e he
          · show a < i
            omega
  · rcases Memory.mem_write hc with h | ⟨rfl, hv⟩
    · exact hm.2 c h
    · exact hv

end Sys2Proof.Machine
end

