-- ==== Sys2Proof/Laws/PerInstr.lean ====
section
/-! SUPPORT. One law per command, about the command as syntax: its operands fit (30_encoding.md R72) and its encoding shows the
opcode and the reserved fields of its row (R64 to R66). -/

namespace Sys2Proof

/-- The word shows the fixed fields of the row, field by field (R65). -/
def OpcodeRow.fits (r : OpcodeRow) (w : Word) : Prop :=
  Word.opc w = Word.opc r.pattern ∧
  Word.fieldA w &&& Word.fieldA r.mask = Word.fieldA r.pattern ∧
  Word.fieldB w &&& Word.fieldB r.mask = Word.fieldB r.pattern ∧
  Word.fieldC w &&& Word.fieldC r.mask = Word.fieldC r.pattern

end Sys2Proof

namespace Sys2Proof.Laws.EncodesInItsRow

/-- The operands fit their fields, and the encoding fits the command's own row of the opcode map. -/
def Statement (i : Instr) : Prop :=
  i.wf = true ∧ ∃ r ∈ opcodeMap, r.mnemonic = i.mnemonic ∧ r.fits (encode i)

/-- A row's fixed fields, computed. -/
theorem fits_commandWord {r : OpcodeRow} {o a b c : Byte}
    (ho : o = Word.opc r.pattern) (ha : a &&& Word.fieldA r.mask = Word.fieldA r.pattern)
    (hb : b &&& Word.fieldB r.mask = Word.fieldB r.pattern) (hc : c &&& Word.fieldC r.mask = Word.fieldC r.pattern) :
    r.fits (commandWord o a b c) := by
  simp only [OpcodeRow.fits, opc_commandWord, fieldA_commandWord, fieldB_commandWord, fieldC_commandWord]
  exact ⟨ho, ha, hb, hc⟩

/-- A field that a row leaves free. -/
theorem free {m p : Byte} (hm : m = 0) (hp : p = 0) (x : Byte) : x &&& m = p := by
  subst hm hp; exact BitVec.and_zero

/-- Every command is well formed: its operands have the widths of their fields. -/
theorem wf (i : Instr) : i.wf = true := by
  cases i <;>
    simp only [Instr.wf, Instr.operands, List.all_cons, List.all_nil, Bool.and_true, Bool.and_eq_true, decide_eq_true_eq] <;>
    exact_mod_cast (by repeat (first | exact BitVec.isLt _ | constructor))

theorem openBus (bus addr : Byte) : Statement (.openBus bus addr) :=
  ⟨wf _, opcodeMap[0], by decide, rfl, fits_commandWord (by decide) (free (by decide) (by decide) _) (free (by decide) (by decide) _) (by decide)⟩

theorem close : Statement .close :=
  ⟨wf _, opcodeMap[1], by decide, rfl, fits_commandWord (by decide) (by decide) (by decide) (by decide)⟩

theorem rdb (reg : Byte) : Statement (.rdb reg) :=
  ⟨wf _, opcodeMap[2], by decide, rfl, fits_commandWord (by decide) (free (by decide) (by decide) _) (by decide) (by decide)⟩

theorem rdw (reg : Byte) : Statement (.rdw reg) :=
  ⟨wf _, opcodeMap[3], by decide, rfl, fits_commandWord (by decide) (free (by decide) (by decide) _) (by decide) (by decide)⟩

theorem rdws (reg : Byte) : Statement (.rdws reg) :=
  ⟨wf _, opcodeMap[4], by decide, rfl, fits_commandWord (by decide) (free (by decide) (by decide) _) (by decide) (by decide)⟩

theorem wrb (reg value : Byte) : Statement (.wrb reg value) :=
  ⟨wf _, opcodeMap[5], by decide, rfl, fits_commandWord (by decide) (free (by decide) (by decide) _) (free (by decide) (by decide) _) (by decide)⟩

theorem wrw (reg : Byte) (value : Half) : Statement (.wrw reg value) :=
  ⟨wf _, opcodeMap[6], by decide, rfl, fits_commandWord (by decide) (free (by decide) (by decide) _) (free (by decide) (by decide) _) (free (by decide) (by decide) _)⟩

theorem wrc (cmd : Byte) : Statement (.wrc cmd) :=
  ⟨wf _, opcodeMap[7], by decide, rfl, fits_commandWord (by decide) (free (by decide) (by decide) _) (by decide) (by decide)⟩

theorem wrblk : Statement .wrblk :=
  ⟨wf _, opcodeMap[8], by decide, rfl, fits_commandWord (by decide) (by decide) (by decide) (by decide)⟩

theorem ldcal : Statement .ldcal :=
  ⟨wf _, opcodeMap[9], by decide, rfl, fits_commandWord (by decide) (by decide) (by decide) (by decide)⟩

theorem cmpt (msb lsb xsb : Byte) : Statement (.cmpt msb lsb xsb) :=
  ⟨wf _, opcodeMap[10], by decide, rfl, fits_commandWord (by decide) (free (by decide) (by decide) _) (free (by decide) (by decide) _) (free (by decide) (by decide) _)⟩

theorem cmph (msb lsb : Byte) : Statement (.cmph msb lsb) :=
  ⟨wf _, opcodeMap[11], by decide, rfl, fits_commandWord (by decide) (free (by decide) (by decide) _) (free (by decide) (by decide) _) (by decide)⟩

theorem cmpp (msb lsb xsb : Byte) : Statement (.cmpp msb lsb xsb) :=
  ⟨wf _, opcodeMap[12], by decide, rfl, fits_commandWord (by decide) (free (by decide) (by decide) _) (free (by decide) (by decide) _) (free (by decide) (by decide) _)⟩

end Sys2Proof.Laws.EncodesInItsRow
end

