-- ==== Sys2Proof/Tests/Slice0.lean ====
section
/-! SUPPORT. Tests, their expected results from spec/95_test_vectors.md (the vector's name stands at each), and a witness for the
hypotheses of each statement of Certificates/Slice0/Obligations.lean. -/

namespace Sys2Proof.Tests

open Sys2Proof Sys2Proof.Machine

/-! ### Helpers -/

/-- A failure code. -/
def code (w : Word) (h : 0 < w := by decide) : FailCode := ⟨w, h⟩

def ok : Draw := .returns (.ok 0 0)
def reply (b0 b1 : Byte) : Draw := .returns (.ok b0 b1)
def short : Draw := .returns .short
def fails (c : FailCode) : Draw := .returns (.fail c)

/-- Reset, with the transport's draws. -/
def closed (script : List Draw) : State := { State.reset with script := script }

/-- After a successful `OPEN 1, 0x76`, with the transport's draws to come. -/
def opened (script : List Draw) : State :=
  { State.reset with hOpen := true, hBus := 1, hAddr := 0x76, hTx := .live, script := script }

/-- An open handle and a block of `n` bytes, the first two 0xF4 and 0x27. -/
def block (n : Word) (script : List Draw) : State :=
  { opened script with blkLen := n, blkBuf := [(0, 0xF4#8), (1, 0x27#8)] }

/-- The bytes of program PG2, by register. -/
def sensor : List (Byte × Byte) :=
  [ (0x88, 0x70), (0x89, 0x6B), (0x8A, 0x43), (0x8B, 0x67), (0x8C, 0x18), (0x8D, 0xFC), (0x8E, 0x7D), (0x8F, 0x8E),
    (0x90, 0x43), (0x91, 0xD6), (0x92, 0xD0), (0x93, 0x0B), (0x94, 0x27), (0x95, 0x0B), (0x96, 0x8C), (0x97, 0x00) ]
  ++
  [ (0x98, 0xF9), (0x99, 0xFF), (0x9A, 0x8C), (0x9B, 0x3C), (0x9C, 0xF8), (0x9D, 0xC6), (0x9E, 0x70), (0x9F, 0x17),
    (0xA1, 0x4B), (0xE1, 0x6A), (0xE2, 0x01), (0xE3, 0x00), (0xE4, 0x39), (0xE5, 0x21), (0xE6, 0x03), (0xE7, 0x1E) ]

/-- The draws of an LDCAL that reads `sensor`. -/
def sensorDraws : List Draw := sensor.flatMap fun p => [ok, reply p.2 0]

/-- The store of fixtures T, P and H. -/
def fixture : Cal := assembleCal .source (tableByte sensor)

/-- The fixtures loaded and fine-temperature 128422 (vector CT1). -/
def sampled : State := { State.reset with cal := fixture, calValid := true, tf := 128422, tfValid := true }

/-- The next state, if there is one. -/
def next : Result → Option State
  | .next t => some t
  | .fault _ => none
  | .refused _ => none

/-! ### Decoding (DE1 to DE20, each command's word written out from 30_encoding.md R64, R65) -/

theorem test_decode_open : decode 0b00000001_00000001_01110110_00000000#32 = .ok (.openBus 0x01 0x76) := by decide
theorem test_decode_open_reserved : decode 0x01017601#32 = .error .reservedField := by decide
theorem test_decode_close : decode 0b00000010_00000000_00000000_00000000#32 = .ok .close := by decide
theorem test_decode_close_reserved : decode 0x02000100#32 = .error .reservedField := by decide
theorem test_decode_rdb : decode 0b00010000_11010000_00000000_00000000#32 = .ok (.rdb 0xD0) := by decide
theorem test_decode_rdb_reserved : decode 0x10D00100#32 = .error .reservedField := by decide
theorem test_decode_rdw : decode 0b00010001_10001000_00000000_00000000#32 = .ok (.rdw 0x88) := by decide
theorem test_decode_rdws : decode 0b00010010_10001100_00000000_00000000#32 = .ok (.rdws 0x8C) := by decide
theorem test_decode_wrb : decode 0b00011000_11110100_00100111_00000000#32 = .ok (.wrb 0xF4 0x27) := by decide
theorem test_decode_wrw : decode 0b00011001_11110100_00010010_00110100#32 = .ok (.wrw 0xF4 0x1234) := by decide
theorem test_decode_wrc : decode 0b00011010_10110110_00000000_00000000#32 = .ok (.wrc 0xB6) := by decide
theorem test_decode_wrblk : decode 0b00011011_00000000_00000000_00000000#32 = .ok .wrblk := by decide
theorem test_decode_ldcal : decode 0b00100000_00000000_00000000_00000000#32 = .ok .ldcal := by decide
theorem test_decode_cmpt : decode 0b00110000_01111110_11101101_00000000#32 = .ok (.cmpt 0x7E 0xED 0x00) := by decide
theorem test_decode_cmph : decode 0b00110001_01110101_00110000_00000000#32 = .ok (.cmph 0x75 0x30) := by decide
theorem test_decode_cmpp : decode 0b00110010_01100101_01011010_11000000#32 = .ok (.cmpp 0x65 0x5A 0xC0) := by decide

/-- DE1, DE18. -/
theorem test_decode_unassigned :
    decode 0x00000000#32 = .error .unassignedOpcode ∧ decode 0x1C000000#32 = .error .unassignedOpcode ∧
    decode 0x33000000#32 = .error .unassignedOpcode ∧ decode 0xFF000000#32 = .error .unassignedOpcode := by decide

/-- A word shorter than the command reads zeros above it. -/
theorem test_table_word : decodeTableWord 32 0x1B000000 = some .wrblk ∧ decodeTableWord 32 0x1B000001 = none := by decide

/-! ### Well-formedness: a term that each check refuses -/

theorem test_wf_operand : (Asm.rdb 256).wf = false ∧ (Asm.rdb 255).wf = true := by decide
theorem test_wf_wide_operand : (Asm.wrw 0 65536).wf = false ∧ (Asm.wrw 0 65535).wf = true := by decide
theorem test_wf_raw_count : (Asm.cmpt20 1048576).wf = false ∧ (Asm.cmph16 65536).wf = false := by decide
theorem test_wf_host_value : (AsmLine.hw 0 4294967296).wf = false ∧ (AsmLine.hw 0 4294967295).wf = true := by decide
theorem test_wf_params : ¬ (Params.mk 0 .source).ok ∧ ¬ (Params.mk 49 .source).ok ∧ (Params.mk 48 .source).ok := by decide
theorem test_wf_access :
    portAccess 32 0x018 16 = .error (.accessWidth 16) ∧ portAccess 32 0x002 32 = .error (.accessMisaligned 2) ∧
    portAccess 32 0x030 32 = .error (.accessUnmapped 0x30) ∧ portAccess 32 0x180 32 = .error (.accessUnmapped 0x180) ∧
    portAccess 32 0x17C 32 = .ok (.blkBuf 31) := by decide

/-! ### Assembler (DE19, DE20, the programs of L3) -/

theorem test_assemble_pseudo :
    assembleLine "CMPT20 519888".toList = some (.write 0 32 0x307EED00) ∧
    assembleLine "CMPP20 415148".toList = some (.write 0 32 0x32655AC0) ∧
    assembleLine "CMPH16 30000".toList = some (.write 0 32 0x31753000) := by decide
theorem test_assemble_line :
    assembleLine "OPEN 1, 0x76".toList = some (.write 0 32 0x01017600) ∧
    assembleLine "HW 0x020, 0xFFFFFFFF".toList = some (.write 0x20 32 0xFFFFFFFF) ∧
    assembleLine "HR 0x018".toList = some (.read 0x18 32) ∧ assembleLine "RDB 256".toList = none := by decide

/-! ### Operand forms -/

/-- CL2, CL3, CL4. -/
theorem test_packing :
    (packH4 .source (tableByte [(0xE4, 0x39), (0xE5, 0x21), (0xE6, 0x03)])).toInt = 313 ∧
    (packH5 .source (tableByte [(0xE4, 0x13), (0xE5, 0x29), (0xE6, 0x03)])).toInt = 50 ∧
    (packH4 .datasheet (tableByte [(0xE4, 0xF0), (0xE5, 0x0F), (0xE6, 0xFF)])).toInt = -241 ∧
    (packH5 .datasheet (tableByte [(0xE4, 0xF0), (0xE5, 0x0F), (0xE6, 0xFF)])).toInt = -16 := by decide
/-- W1, W2, CT7: the low nibble of the last byte is dropped. -/
theorem test_raw_count : raw20 0x80 0 0 = 524288 ∧ raw20 0x7E 0xED 0x0F = 519888 ∧ raw16 0x75 0x30 = 30000 := by decide

/-! ### One step of each command -/

/-- TX1. -/
theorem test_open :
    (next (exec (.openBus 1 0x76) (closed [ok, ok]))).map (fun t => (t.err, t.hOpen, t.hBus, t.hAddr, t.th))
      = some (0, true, 1, 0x76, [.open_ 1 .ok, .select 0x76 .ok]) := by decide
/-- TX3: Fail(16). -/
theorem test_open_select_fails :
    (next (exec (.openBus 1 0x77) (closed [ok, fails (code 16), ok]))).map (fun t => (t.err, t.errinfo, t.hOpen, t.hAddr, t.th.length))
      = some (3, 0x10, false, 0, 3) := by decide
/-- TX5. -/
theorem test_close :
    (next (exec .close (opened [fails (code 1)]))).map (fun t => (t.err, t.hOpen, t.hAddr, t.th))
      = some (0, false, 0x76, [.close]) := by decide
/-- TX6. -/
theorem test_close_closed : (next (exec .close (closed []))).map (fun t => (t.err, t.th)) = some (0, []) := by decide
/-- TX7. -/
theorem test_rdb :
    (next (exec (.rdb 0xD0) (opened [ok, reply 0x60 0xFF]))).map (fun t => (t.err, t.res, t.th))
      = some (0, 0x60, [.write [0xD0] .ok, .read 1 (.ok [0x60])]) := by decide
/-- TX9: Fail(6). -/
theorem test_rdb_write_fails :
    (next (exec (.rdb 0xD0) (opened [fails (code 6)]))).map (fun t => (t.err, t.errinfo, t.res, t.th.length))
      = some (4, 6, 0, 1) := by decide
/-- TX11, W3. -/
theorem test_rdw : (next (exec (.rdw 0x88) (opened [ok, reply 1 2]))).map (fun t => (t.err, t.res)) = some (0, 0x102) := by decide
/-- TX13. -/
theorem test_rdw_short :
    (next (exec (.rdw 0x88) (opened [ok, short]))).map (fun t => (t.err, t.errinfo, t.res)) = some (4, 0xFFFFFFFF, 0) := by decide
/-- TX14, W10. -/
theorem test_rdws : (next (exec (.rdws 0x8C) (opened [ok, reply 0xFC 0x18]))).map (·.res) = some 0xFFFFFC18 := by decide
theorem test_rdws_positive : (next (exec (.rdws 0x8C) (opened [ok, reply 0x7F 0xFF]))).map (·.res) = some 0x7FFF := by decide
/-- TX15. -/
theorem test_wrb :
    (next (exec (.wrb 0xF4 0x27) (opened [ok]))).map (fun t => (t.err, t.th)) = some (0, [.write [0xF4, 0x27] .ok]) := by decide
/-- TX17. -/
theorem test_wrw :
    (next (exec (.wrw 0xF4 0x1234) (opened [ok]))).map (fun t => (t.err, t.th)) = some (0, [.write [0xF4, 0x12, 0x34] .ok]) := by
  decide
/-- TX18: Fail(5). -/
theorem test_wrw_fails :
    (next (exec (.wrw 0xF4 0x1234) (opened [fails (code 5)]))).map (fun t => (t.err, t.errinfo)) = some (4, 5) := by decide
/-- TX19. -/
theorem test_wrc :
    (next (exec (.wrc 0xB6) (opened [ok]))).map (fun t => (t.err, t.th)) = some (0, [.write [0xB6] .ok]) := by decide
/-- TX20. -/
theorem test_wrblk :
    (next (exec .wrblk (block 2 [ok]))).map (fun t => (t.err, t.th, t.blkLen)) = some (0, [.write [0xF4, 0x27] .ok], 2) := by decide
/-- TX21, TX23, TX25, W8. -/
theorem test_wrblk_length :
    (next (exec .wrblk (block 0xFFFFFFFF []))).map (fun t => (t.err, t.th)) = some (1, []) ∧
    (next (exec .wrblk (block 33 []))).map (fun t => (t.err, t.th)) = some (1, []) ∧
    (next (exec .wrblk (block 0x80000000 []))).map (fun t => (t.err, t.th)) = some (1, []) := by decide
/-- CL7: Fail(5) at the read of 0x8A. -/
theorem test_ldcal_fails :
    (next (exec .ldcal (opened [ok, ok, ok, ok, ok, fails (code 5)]))).map
      (fun t => (t.err, t.errinfo, t.res, t.calValid, t.tfValid, t.th.length)) = some (7, 5, 0x8A, false, false, 6) := by decide
/-- PG2, step 2. -/
theorem test_ldcal :
    (next (exec .ldcal (opened sensorDraws))).map (fun t => (t.err, t.calValid, t.th.length, t.cal.t1.toInt, t.cal.t3.toInt, t.cal.p9.toInt))
      = some (0, true, 64, 27504, -1000, 6000) := by decide
/-- CT1, W4. -/
theorem test_cmpt :
    (next (exec (.cmpt 0x7E 0xED 0x00) sampled)).map (fun t => (t.tf, t.res, t.resf, t.ovf))
      = some (0x0001F5A6, 0x000009CC, 0x4039147AE147AE14, false) := by decide
/-- CT5. -/
theorem test_cmpt_overflow :
    (next (exec (.cmpt 0xFF 0xFF 0xF0) { sampled with cal := { fixture with t1 := 0, t2 := 0x8000, t3 := 0 } })).map
      (fun t => (t.tf, t.res, t.resf, t.ovf, t.sovf)) = some (16, 0, 0, true, true) := by decide
/-- CH1. -/
theorem test_cmph :
    (next (exec (.cmph 0x75 0x30) sampled)).map (fun t => (t.res, t.resf, t.sat, t.ovf))
      = some (0x0DBFDE2A, 0x404B7FBC54000000, false, false) := by decide
/-- CH6, W6. -/
theorem test_cmph_clamp :
    (next (exec (.cmph 0x75 0x30) { sampled with cal := { fixture with h4 := 2323 } })).map (fun t => (t.res, t.resf, t.sat, t.ovf))
      = some (0x19000000, 0x4059000000000000, true, true) := by decide
/-- CP1. -/
theorem test_cmpp :
    (next (exec (.cmpp 0x65 0x5A 0xC0) sampled)).map (fun t => (t.res, t.resf, t.zdiv, t.ovf))
      = some (0x00018930, 0x408F747AE147AE14, false, false) := by decide
/-- CP7: the second branch is kept bit for bit. -/
theorem test_cmpp_branch :
    (next (exec (.cmpp 0x00 0x00 0x50) sampled)).map (fun t => (t.res, t.resf)) = some (0x0002A492, 0x409B10147AE147AE) := by decide

/-! ### The host port -/

/-- HP1, HP2, HP3, HP5. -/
theorem test_host_port :
    (next (step { State.reset with host := [.write 0x020 32 0xFFFFFFFF] })).map (·.blkLen) = some 0xFFFFFFFF ∧
    (next (step { State.reset with host := [.write 0x100 32 0x1F4] })).map (·.blkBuf) = some [(0, 0xF4)] ∧
    (next (step { State.reset with host := [.write 0x00C 32 0x12345678] })).map (·.res) = some 0 ∧
    (next (step { State.reset with host := [.write 0x000 32 0x7F000000] })).map (fun t => (t.err, t.cmdLast)) = some (8, 0x7F000000) := by
  decide
/-- PG2, step 6: STAT 0x00000007. -/
theorem test_stat :
    (next (step { sampled with hOpen := true, host := [.read 0x018 32] })).map (·.hostReads) = some [(0x018, 7)] := by decide
/-- A command that the host places at the port is the next step's. -/
theorem test_fetch : (next (step (State.reset.withFetchWord 32 0x02000000))).map (·.cmdLast) = some 0x02000000 := by decide

/-! ### A witness for the hypotheses of each statement -/

theorem witness_DecodeOfEncodeIsTheCommand :
    Asm.assemble (.wrw 255 65535) = some (.wrw 0xFF 0xFFFF) ∧ encode (.wrw 0xFF 0xFFFF) = encode (.wrw 0xFF 0xFFFF) := by decide
theorem witness_LegalWordIsItsEncoding : decode 0x19FFFFFF = .ok (.wrw 0xFF 0xFFFF) := by decide
theorem witness_IllegalCommandOnlyReports_reserved :
    (State.reset.withFetchWord 32 0x10D00001).host = .write 0x000 32 0x10D00001 :: [] ∧
    opcodeMap[2] ∈ opcodeMap ∧ Word.opc 0x10D00001 = Word.opc opcodeMap[2].pattern ∧
    opcodeMap[2].covers 0x10D00001 = false := by decide
theorem witness_IllegalCommandOnlyReports_unassigned :
    (State.reset.withFetchWord 32 0).host = .write 0x000 32 0 :: [] ∧
    (∀ r ∈ opcodeMap, Word.opc 0 ≠ Word.opc r.pattern) := by decide
theorem witness_DecoderFollowsTheOpcodeMap_unassigned :
    0x33#8 ∉ [0x01#8, 0x02#8, 0x10#8, 0x11#8, 0x12#8, 0x18#8, 0x19#8, 0x1A#8, 0x1B#8, 0x20#8, 0x30#8, 0x31#8, 0x32#8] := by decide
theorem witness_PseudoInstructionsKeepTheRawCount :
    1048575 < 2 ^ 20 ∧ 65535 < 2 ^ 16 ∧ 2 ^ 20 ≤ 1048576 ∧ 2 ^ 16 ≤ 65536 := by decide
theorem witness_AssemblerNeverTruncates :
    (Asm.wrb 256 0).wf = false ∧ Asm.assemble (.openBus 255 0) = some (.openBus 0xFF 0) ∧
    Asm.assemble (.wrb 0 255) = some (.wrb 0 0xFF) ∧ Asm.assemble (.wrw 0 65535) = some (.wrw 0 0xFFFF) ∧
    Asm.assemble (.cmpt 0 0 255) = some (.cmpt 0 0 0xFF) := by decide
theorem witness_AssemblerNeverTruncates_bounds :
    (256 ≤ 256 ∧ 65536 ≤ 65536 ∧ 2 ^ 32 ≤ 4294967296) ∧ Asm.assemble (.wrw 0 65536) = none ∧ Asm.assemble (.cmph 255 256) = none ∧
    (AsmLine.hw 0x020 4294967296).action = none ∧
    (AsmLine.hw 0x020 4294967295).action = some (.write 0x020 32 0xFFFFFFFF) := by decide
/-- A line that is no pseudo-instruction's and assembles. -/
theorem witness_AssemblerNeverTruncates_operands :
    (∀ raw, Asm.wrw 1 65535 ≠ .cmpt20 raw ∧ Asm.wrw 1 65535 ≠ .cmpp20 raw ∧ Asm.wrw 1 65535 ≠ .cmph16 raw) ∧
    Asm.assemble (.wrw 1 65535) = some (.wrw 1 0xFFFF) := ⟨fun _ => ⟨nofun, nofun, nofun⟩, by decide⟩
theorem witness_StepRunsTheDecodedCommand :
    (State.reset.withFetchWord 32 0x02000000).host = .write 0x000 32 0x02000000 :: [] ∧ decode 0x02000000 = .ok .close := by decide

/-- Reset, with one host action to come. -/
def hosted (a : HostAction) : State := { State.reset with host := [a] }

theorem witness_HostReadsGiveTheMap :
    (hosted (.read 0x084 32)).host = .read 0x084 32 :: [] ∧ (hosted (.read 0x17C 32)).host = .read 0x17C 32 :: [] ∧
    31 < (hosted (.read 0x17C 32)).params.blkMax ∧ 0x17C = 0x100 + 4 * 31 := by decide
theorem witness_HostWritesDoWhatTheMapSays :
    (hosted (.write 0x020 32 5)).host = .write 0x020 32 5 :: [] ∧
    (hosted (.write 0x17C 32 0x1F4)).host = .write 0x17C 32 0x1F4 :: [] ∧
    31 < (hosted (.write 0x17C 32 0x1F4)).params.blkMax ∧ 0x17C = 0x100 + 4 * 31 ∧
    Memory.wf (hosted (.write 0x17C 32 0x1F4)).blkBuf ∧
    0x024 ∈ [0x004, 0x008, 0x00C, 0x010, 0x014, 0x018, 0x01C, 0x024] ∧ (0x040 ≤ 0x084 ∧ 0x084 ≤ 0x084 ∧ 0x084 % 4 = 0) := by decide
theorem witness_UnlistedAccessesAreRefused :
    (hosted (.read 0x018 16)).host = [.read 0x018 16] ∧ 16 ≠ 32 ∧
    (hosted (.read 0x002 32)).host = [.read 0x002 32] ∧ 0x002 % 4 ≠ 0 ∧
    (hosted (.read 0x180 32)).host = [.read 0x180 32] ∧ 0x180 % 4 = 0 ∧ 0x100 + 4 * State.reset.params.blkMax ≤ 0x180 ∧
    ((hosted (.read 0x000 32)).host = [.read 0x000 32] ∧ 0x000 % 4 = 0 ∧ 0x000 < 0x028) ∧
    (hosted (.write 0x17C 32 0)).host = [.write 0x17C 32 0] ∧ 0x17C % 4 = 0 ∧ 0 < 0x17C ∧
    (0x100 ≤ 0x17C ∧ 0x17C < 0x100 + 4 * State.reset.params.blkMax) := by decide
theorem witness_UnlistedAccessesAreRefused_gaps :
    (0x028 ≤ 0x03C ∧ 0x03C < 0x040 ∧ 0x03C % 4 = 0) ∧ (0x088 ≤ 0x0FC ∧ 0x0FC < 0x100 ∧ 0x0FC % 4 = 0) ∧ 0x024 < 0x028 ∧
    (0x040 ≤ 0x084 ∧ 0x084 < 0x088) ∧ (hosted (.write 0x084 32 0)).host = [.write 0x084 32 0] := by decide

/-- The draws that a script fixes. -/
theorem drawn {s : State} {i : Nat} {d : Draw} (h : s.script[s.calls + i]? = some d) : s.draw i = d := by
  simp only [State.draw, h]

theorem witness_OpenSelectsTheSlave_open : (opened []).hOpen = true := by decide
theorem witness_OpenSelectsTheSlave_busFails :
    (closed [fails (code 2)]).hOpen = false ∧ (closed [fails (code 2)]).callFails 0 (code 2) := ⟨rfl, .inl (drawn rfl)⟩
theorem witness_OpenSelectsTheSlave_selectFails :
    let s := closed [ok, fails (code 16), ok]
    s.hOpen = false ∧ s.callOk 0 ∧ s.callFails 1 (code 16) ∧ s.draw 2 = .returns (.ok 0 0) :=
  ⟨rfl, ⟨0, 0, drawn rfl⟩, .inl (drawn rfl), drawn rfl⟩
theorem witness_OpenSelectsTheSlave_done :
    let s := closed [ok, ok]
    s.hOpen = false ∧ s.callOk 0 ∧ s.callOk 1 := ⟨rfl, ⟨0, 0, drawn rfl⟩, ⟨0, 0, drawn rfl⟩⟩
theorem witness_CloseReleasesOnce :
    (closed []).hOpen = false ∧ (opened [short]).hOpen = true ∧ (opened [short]).draw 0 = .returns .short :=
  ⟨rfl, rfl, drawn rfl⟩

/-- The read commands' four cases share their states. -/
theorem witness_ReadByteCommand :
    (closed []).hOpen = false ∧
    ((opened [fails (code 6)]).hOpen = true ∧ (opened [fails (code 6)]).callFails 0 (code 6)) ∧
    ((opened [ok, fails (code 5)]).hOpen = true ∧ (opened [ok, fails (code 5)]).callOk 0
      ∧ (opened [ok, fails (code 5)]).callFails 1 (code 5)) ∧
    ((opened [ok, reply 0xFF 0]).callOk 0 ∧ (opened [ok, reply 0xFF 0]).draw 1 = .returns (.ok 0xFF 0)) :=
  ⟨rfl, ⟨rfl, .inl (drawn rfl)⟩, ⟨rfl, ⟨0, 0, drawn rfl⟩, .inl (drawn rfl)⟩, ⟨0, 0, drawn rfl⟩, drawn rfl⟩
theorem witness_ReadWordCommand :
    (closed []).hOpen = false ∧ (opened [short]).callFails 0 Config.shortCode ∧
    ((opened [ok, short]).hOpen = true ∧ (opened [ok, short]).callOk 0 ∧ (opened [ok, short]).draw 1 = .returns .short
      ∧ (opened [ok, short]).callFails 1 Config.shortCode) ∧
    ((opened [ok, reply 0xFF 0xFF]).callOk 0 ∧ (opened [ok, reply 0xFF 0xFF]).draw 1 = .returns (.ok 0xFF 0xFF)) :=
  ⟨rfl, .inr ⟨drawn rfl, rfl⟩, ⟨rfl, ⟨0, 0, drawn rfl⟩, drawn rfl, .inr ⟨drawn rfl, rfl⟩⟩, ⟨0, 0, drawn rfl⟩, drawn rfl⟩
theorem witness_ReadSignedWordCommand :
    (closed []).hOpen = false ∧ (opened [fails (code 6)]).callFails 0 (code 6) ∧
    ((opened [ok, short]).hOpen = true ∧ (opened [ok, short]).callOk 0 ∧ (opened [ok, short]).draw 1 = .returns .short
      ∧ (opened [ok, short]).callFails 1 Config.shortCode) ∧
    ((opened [ok, reply 0x80 0]).callOk 0 ∧ (opened [ok, reply 0x80 0]).draw 1 = .returns (.ok 0x80 0)) ∧
    ((opened [ok, reply 0x7F 0xFF]).callOk 0 ∧ (opened [ok, reply 0x7F 0xFF]).draw 1 = .returns (.ok 0x7F 0xFF)) :=
  ⟨rfl, .inl (drawn rfl), ⟨rfl, ⟨0, 0, drawn rfl⟩, drawn rfl, .inr ⟨drawn rfl, rfl⟩⟩, ⟨⟨0, 0, drawn rfl⟩, drawn rfl⟩,
    ⟨0, 0, drawn rfl⟩, drawn rfl⟩

/-- The write commands' three cases share their states. -/
theorem witness_WriteByteCommand :
    (closed []).hOpen = false ∧ ((opened [fails (code 5)]).hOpen = true ∧ (opened [fails (code 5)]).callFails 0 (code 5)) ∧
    (opened [ok]).callOk 0 := ⟨rfl, ⟨rfl, .inl (drawn rfl)⟩, ⟨0, 0, drawn rfl⟩⟩
theorem witness_WriteWordCommand :
    ((0x1234#16).toNat = (0x12#8).toNat * 256 + (0x34#8).toNat) ∧ (0xFFFF#16).toNat = (0xFF#8).toNat * 256 + (0xFF#8).toNat ∧
    (closed []).hOpen = false ∧ (opened [fails (code 5)]).callFails 0 (code 5) ∧ (opened [ok]).hOpen = true
      ∧ (opened [ok]).callOk 0 :=
  ⟨rfl, rfl, rfl, .inl (drawn rfl), rfl, ⟨0, 0, drawn rfl⟩⟩
theorem witness_WriteCommandCommand :
    (closed []).hOpen = false ∧ ((opened [short]).hOpen = true ∧ (opened [short]).callFails 0 Config.shortCode) ∧
    (opened [ok]).callOk 0 := ⟨rfl, ⟨rfl, .inr ⟨drawn rfl, rfl⟩⟩, ⟨0, 0, drawn rfl⟩⟩
theorem witness_WriteBlockCommand_noCall :
    (closed []).hOpen = false ∧ (block 0xFFFFFFFF []).hOpen = true ∧ (block 0xFFFFFFFF []).blkLen.toInt < 0 ∧
    ((block 33 []).params.blkMax : Int) < (block 33 []).blkLen.toInt ∧ (block 0 []).blkLen.toInt = 0 := by decide
theorem witness_WriteBlockCommand_calls :
    (block 32 [fails (code 5)]).hOpen = true ∧ (block 32 [fails (code 5)]).blkLen.toInt = (32 : Nat) ∧ 0 < 32 ∧
    32 ≤ (block 32 [fails (code 5)]).params.blkMax ∧ (block 32 [fails (code 5)]).callFails 0 (code 5) ∧
    (block 1 [short]).blkLen.toInt = (1 : Nat) ∧ (block 1 [short]).draw 0 = .returns .short ∧ (block 1 [ok]).callOk 0 :=
  ⟨rfl, by decide, by decide, by decide, .inl (drawn rfl), by decide, drawn rfl, ⟨0, 0, drawn rfl⟩⟩
theorem witness_HandleCheckComesFirst :
    (closed []).hOpen = false ∧ (exec (.openBus 1 2) (opened []) = .next (setErr .invalidArgument 0 (opened []))) ∧
    (next (exec (.openBus 1 2) (closed [ok, ok]))).map (·.err) = some 0 := ⟨rfl, rfl, by decide⟩
theorem witness_TransactionsLeaveTheEngineAlone :
    exec .close (closed []) = .next (setErr .ok 0 (closed [])) ∧ Instr.close.mnemonic ∈ ["OPEN", "CLOSE", "RDB", "RDW", "RDWS", "WRB", "WRW", "WRC", "WRBLK"] :=
  ⟨rfl, by decide⟩
theorem witness_HandleIsFixedWhileOpen :
    step ((opened []).withFetchWord 32 0x01017600)
        = .next (setErr .invalidArgument 0 { opened [] with cmdLast := 0x01017600 }) ∧ (opened []).hOpen = true := ⟨rfl, rfl⟩
theorem witness_OnlyNeverReturningCallsStick :
    exec (.wrc 0xB6) (opened [.never]) = .fault .transportNeverReturns ∧ (opened [.never]).draw 0 = .never ∧
    (opened [.never]).hOpen = true ∧ (closed [.never]).draw 0 = .never ∧ (closed [.never]).hOpen = false ∧
    (block 32 [.never]).draw 0 = .never ∧ 0 < (block 32 [.never]).blkLen.toInt
      ∧ (block 32 [.never]).blkLen.toInt ≤ (block 32 [.never]).params.blkMax :=
  ⟨rfl, drawn rfl, rfl, drawn rfl, rfl, drawn rfl, by decide, by decide⟩
/-- Clauses 1 and 2 at a first call, at a second, and at LDCAL's last. -/
theorem witness_OnlyNeverReturningCallsStick_calls :
    (opened [.never]).makesCall (.wrc 0xB6) 0 ∧
    ((opened [ok, .never]).makesCall (.rdb 0xD0) 1 ∧ (opened [ok, .never]).draw 1 = .never) ∧
    ((opened (List.replicate 63 ok ++ [.never])).makesCall .ldcal 63 ∧
      (opened (List.replicate 63 ok ++ [.never])).draw 63 = .never) := by
  refine ⟨⟨rfl, rfl⟩, ⟨⟨rfl, .inr ⟨rfl, 0, 0, drawn rfl⟩⟩, drawn rfl⟩, ⟨rfl, by decide, fun j hj => ⟨0, 0, drawn ?_⟩⟩, drawn rfl⟩
  simp only [opened, State.reset, Nat.zero_add]
  rw [List.getElem?_append_left (by simpa using hj), List.getElem?_replicate, if_pos hj, ok]
/-- Calls that return are enough: one for WRC, though the transport's next answer never comes, and none for CMPT. -/
theorem witness_EveryCommandCompletesIfItsCallsReturn :
    (∀ k, (opened [ok, .never]).makesCall (.wrc 0xB6) k → (opened [ok, .never]).draw k ≠ .never) ∧
    (∀ k, (opened [.never]).makesCall (.cmpt 0 0 0) k → (opened [.never]).draw k ≠ .never) ∧
    (next (exec (.wrc 0xB6) (opened [ok, .never]))).map (·.calls) = some 1 := by
  refine ⟨fun k h => ?_, fun _ h => h.elim, by decide⟩
  rw [h.2, drawn (d := ok) rfl]
  decide
theorem witness_EveryCommandCompletesIfItsCallsReturn_ldcal :
    ∀ k, (opened (List.replicate 64 ok)).makesCall .ldcal k → (opened (List.replicate 64 ok)).draw k ≠ .never := by
  intro k h
  obtain ⟨b0, b1, e⟩ : (opened (List.replicate 64 ok)).callOk k := ⟨0, 0, drawn (by
    simp only [opened, State.reset, Nat.zero_add, List.getElem?_replicate, if_pos h.2.1, ok])⟩
  rw [e]
  exact nofun
theorem witness_RaiseWritesNothingElse :
    exec (.cmpt 0 0 0) State.reset = .next (setErr .preconditionViolation 0 State.reset) ∧
    (setErr .preconditionViolation 0 State.reset).err ≠ 0 ∧
    exec .ldcal (closed []) = .next (setErr .invalidArgument 0 (closed [])) ∧ (setErr .invalidArgument 0 (closed [])).err ≠ 0 :=
  ⟨rfl, by decide, rfl, by decide⟩
theorem witness_CompletionCodesFollowTheTable :
    (next (exec (.openBus 0 0) (closed [short]))).map (·.err) = some 2 ∧
    (next (exec (.openBus 0 0) (closed [ok, short, ok]))).map (·.err) = some 3 ∧
    (next (exec (.wrc 0) (opened [short]))).map (·.err) = some 4 ∧
    (next (exec (.cmph 0 0) { sampled with tfValid := false })).map (·.err) = some 6 ∧
    (next (exec .ldcal (opened [ok, short]))).map (·.err) = some 7 ∧ decode 0x10D00001 = .error .reservedField := by decide

/-- The bytes of `sensor`, as a function. -/
def sensorByte (a : Byte) : Byte := tableByte sensor a

theorem witness_LoadCalibrationCommand :
    (closed []).hOpen = false ∧ (opened sensorDraws).hOpen = true ∧ (opened sensorDraws).callsRead calAddresses sensorByte := by
  refine ⟨rfl, rfl, fun k a hk => ?_⟩
  have hlt : k < 32 := (List.getElem?_eq_some_iff.1 hk).1
  interval_cases k <;> (cases hk; exact ⟨⟨0, 0, drawn rfl⟩, 0, drawn rfl⟩)
theorem witness_LoadCalibrationStopsAtTheFirstFailure_first :
    calAddresses = [] ++ 0x88 :: calAddresses.tail ∧ (opened [fails (code 16)]).hOpen = true ∧
    (opened [fails (code 16)]).callsRead [] sensorByte ∧ (opened [fails (code 16)]).callFails (2 * ([] : List Byte).length) (code 16) :=
  ⟨by decide, rfl, fun _ _ h => by simp at h, Or.inl (drawn rfl)⟩
theorem witness_LoadCalibrationStopsAtTheFirstFailure_read :
    let s := opened [ok, reply 0x70 0, ok, reply 0x6B 0, ok, fails (code 5)]
    calAddresses = [0x88, 0x89] ++ 0x8A :: calAddresses.drop 3 ∧ s.hOpen = true ∧ s.callsRead [0x88, 0x89] sensorByte ∧
    s.callOk (2 * 2) ∧ s.callFails (2 * 2 + 1) (code 5) := by
  refine ⟨by decide, rfl, fun k a hk => ?_, ⟨0, 0, drawn rfl⟩, .inl (drawn rfl)⟩
  have hlt : k < 2 := (List.getElem?_eq_some_iff.1 hk).1
  interval_cases k <;> (cases hk; exact ⟨⟨0, 0, drawn rfl⟩, 0, drawn rfl⟩)
theorem witness_LdcalUnsetsFineTemperature :
    (opened sensorDraws).hOpen = true ∧ (next (exec .ldcal (opened sensorDraws))).isSome = true := by decide
theorem witness_CompensationNeedsItsInputs :
    State.reset.calValid = false ∧ { sampled with tfValid := false }.tfValid = false := by decide
theorem witness_TemperatureFormula : State.reset.calValid = false ∧ sampled.calValid = true := by decide
theorem witness_HumidityFormula :
    State.reset.calValid = false ∧ { sampled with tfValid := false }.tfValid = false ∧ sampled.calValid = true
      ∧ sampled.tfValid = true := by decide
/-- The denominator term is 36471 (CP1), and 0 with CAL.P1 = 0 (CP3). -/
theorem witness_PressureFormula :
    sampled.calValid = true ∧ sampled.tfValid = true ∧ (pressureDenominator fixture 128422).int = 36471 ∧
    (pressureDenominator { fixture with p1 := 0 } 128422).int = 0 := by decide
theorem witness_TemperatureIsExactWithoutOverflow :
    sampled.calValid = true ∧ (next (exec (.cmpt 0xFF 0xFF 0xFF) sampled)).map (·.ovf) = some false := by decide
theorem witness_HumidityIsExactWithoutOverflow :
    sampled.calValid = true ∧ sampled.tfValid = true ∧ (next (exec (.cmph 0x60 0) sampled)).map (·.ovf) = some false := by decide
theorem witness_HumidityStaysInRange : sampled.calValid = true ∧ sampled.tfValid = true := by decide
theorem witness_ZeroDenominatorGivesZeroPressure :
    let s := { sampled with cal := { fixture with p1 := 0 } }
    s.calValid = true ∧ s.tfValid = true ∧ s.cal.p1 = 0 := by decide
theorem witness_CompensationReadsOnlyItsInputs :
    (Instr.cmpp 0 0 0).mnemonic ∈ ["CMPT", "CMPH", "CMPP"] ∧ (Instr.cmpp 0 0 0).mnemonic ∉ ["CMPT"] ∧
    { sampled with hOpen := true, res := 5 }.cal = sampled.cal ∧ { sampled with hOpen := true, res := 5 }.tf = sampled.tf := by decide
theorem witness_HumidityAndPressureCommute : sampled.calValid = true ∧ sampled.tfValid = true := by decide
theorem witness_ResultIsTheNearestBinary64 :
    0 < 100 ∧ (-14088 : Int).natAbs ≤ 2 ^ 32 ∧ 100 ≤ 2 ^ 32 ∧ finite64 0x4039147AE147AE14 = true ∧
    (2 ^ 32 : Int).natAbs ≤ 2 ^ 32 := by decide
/-- A state with an open handle and a host action to come meets the invariant, and has a step. -/
theorem witness_EveryStepKeepsTheInvariant :
    let s := { block 2 [] with th := [.open_ 1 .ok], calls := 1, host := [.read 0x018 32] }
    s.Inv ∧ (next (step s)).isSome = true :=
  ⟨{ params := by decide, handle := by decide, oneHandle := by decide, sized := by decide, tfNeedsCal := by decide
     sticky := by decide, guardOrClamp := by decide, errWritten := by decide, errCarries := by decide, h4 := by decide
     h5 := by decide, bufForm := by decide, bufRange := by decide }, by decide⟩
theorem witness_HistoryOnlyGrows :
    (next (step ((opened [ok]).withFetchWord 32 0x1AB60000))).map (·.th) = some [.write [0xB6] .ok] := by decide
theorem witness_HistoryIsNeverRead :
    (next (exec (.wrc 0xB6) (opened [ok]))).isSome = true ∧ exec (.wrc 0xB6) (opened [.never]) = .fault .transportNeverReturns :=
  ⟨by decide, rfl⟩
theorem witness_FlagsChangeOnlyByCompensation :
    (next (step ({ sampled with cal := { fixture with h4 := 2323 } }.withFetchWord 32 0x31753000))).map (fun t => (t.sat, t.sovf))
      = some (true, true) ∧ sampled.sovf = false := by decide
theorem witness_OnlyTheseStepsWriteEachRegister :
    (next (step (sampled.withFetchWord 32 0x30000000))).map (fun t => (t.tf, t.tfValid, t.cmdLast))
      = some (0xFFF4FE6B, true, 0x30000000) := by decide
theorem witness_BufferBytesAreCanonical : Memory.wf [(0, 0xF4#8), (31, 0x27#8)] ∧ 30 ≠ 31 := by decide

end Sys2Proof.Tests
end

section
/-! O47: a result's pattern is the nearest binary64 value, ties to the even significand (00_scope.md R12, 42_compensation.md R104).

With `2^e ≤ n/d < 2^(e+1)`, every finite binary64 value of magnitude at least `2^e` is a multiple of `2^(e-52)`, and a smaller one
is farther from `n/d` than `2^e`, itself such a multiple. So the nearest multiple, which the model takes as the significand, is
the nearest value. -/

namespace Sys2Proof.Machine

/-! ### The scale: powers of two with an integer exponent -/

theorem two_zpow_eq_div (a : ℤ) : (2 : ℚ) ^ a = 2 ^ a.toNat / 2 ^ (-a).toNat := by
  rw [← zpow_natCast, ← zpow_natCast, ← zpow_sub₀ two_ne_zero, Int.toNat_sub_toNat_neg]

theorem atLeastTwoPow_iff {n d : ℕ} (hd : 0 < d) (a : ℤ) :
    atLeastTwoPow n d a = true ↔ (2 : ℚ) ^ a ≤ n / d := by
  rw [two_zpow_eq_div, div_le_div_iff₀ (by positivity) (by exact_mod_cast hd), mul_comm _ (d : ℚ)]
  simp only [atLeastTwoPow, decide_eq_true_eq]
  exact_mod_cast Iff.rfl

/-- The first guess of `floorLog2`, the difference of the two logarithms, is right or one too large. -/
theorem ratio_between_log2_powers {n d : ℕ} (hn : 0 < n) (hd : 0 < d) :
    (2 : ℚ) ^ ((n.log2 : ℤ) - d.log2 - 1) ≤ n / d ∧ (n / d : ℚ) < 2 ^ ((n.log2 : ℤ) - d.log2 + 1) := by
  have hd' : (0 : ℚ) < d := by exact_mod_cast hd
  have n_lo : (2 : ℚ) ^ n.log2 ≤ n := by exact_mod_cast Nat.log2_self_le hn.ne'
  have n_hi : (n : ℚ) < 2 ^ (n.log2 + 1) := by exact_mod_cast Nat.lt_log2_self
  have d_lo : (2 : ℚ) ^ d.log2 ≤ d := by exact_mod_cast Nat.log2_self_le hd.ne'
  have d_hi : (d : ℚ) < 2 ^ (d.log2 + 1) := by exact_mod_cast Nat.lt_log2_self
  constructor
  · calc (2 : ℚ) ^ ((n.log2 : ℤ) - d.log2 - 1) = 2 ^ n.log2 / 2 ^ (d.log2 + 1) := by
          rw [sub_sub, zpow_sub₀ two_ne_zero]; norm_cast
      _ ≤ n / d := div_le_div₀ (by positivity) n_lo hd' d_hi.le
  · calc (n / d : ℚ) < 2 ^ (n.log2 + 1) / 2 ^ d.log2 := div_lt_div₀ n_hi d_lo (by positivity) (by positivity)
      _ = 2 ^ ((n.log2 : ℤ) - d.log2 + 1) := by
          rw [sub_add_eq_add_sub, zpow_sub₀ two_ne_zero]; norm_cast

theorem floorLog2_spec {n d : ℕ} (hn : 0 < n) (hd : 0 < d) :
    (2 : ℚ) ^ floorLog2 n d ≤ n / d ∧ (n / d : ℚ) < 2 ^ (floorLog2 n d + 1) := by
  obtain ⟨lo, hi⟩ := ratio_between_log2_powers hn hd
  unfold floorLog2
  simp only
  split
  next h => exact ⟨(atLeastTwoPow_iff hd _).1 h, hi⟩
  next h =>
    rw [atLeastTwoPow_iff hd, not_le] at h
    exact ⟨lo, by rwa [sub_add_cancel]⟩

/-- Operands of at most 2^32 keep the exponent far inside the normal range. -/
theorem floorLog2_range {n d : ℕ} (hn : 0 < n) (hd : 0 < d) (hn32 : n ≤ 2 ^ 32) (hd32 : d ≤ 2 ^ 32) :
    -33 ≤ floorLog2 n d ∧ floorLog2 n d ≤ 32 := by
  obtain ⟨lo, hi⟩ := floorLog2_spec hn hd
  have n_one : (1 : ℚ) ≤ n := by exact_mod_cast hn
  have d_one : (1 : ℚ) ≤ d := by exact_mod_cast hd
  have n_top : (n : ℚ) ≤ 2 ^ (32 : ℤ) := by exact_mod_cast hn32
  have d_top : (d : ℚ) ≤ 2 ^ (32 : ℤ) := by exact_mod_cast hd32
  have ratio_le : (n / d : ℚ) ≤ 2 ^ (32 : ℤ) := (div_le_self (by positivity) d_one).trans n_top
  have le_ratio : (2 : ℚ) ^ (-32 : ℤ) ≤ n / d := by
    rw [zpow_neg, ← one_div]
    exact div_le_div₀ (by positivity) n_one (by positivity) d_top
  have e_hi := (zpow_le_zpow_iff_right₀ (by norm_num : (1 : ℚ) < 2)).1 (lo.trans ratio_le)
  have e_lo := (zpow_lt_zpow_iff_right₀ (by norm_num : (1 : ℚ) < 2)).1 (le_ratio.trans_lt hi)
  omega

/-! ### Rounding to the nearest integer -/

/-- Down only with a remainder of at most one half, up only with at least one half, and at one half to the even neighbour. -/
theorem roundHalfEven_cases (n d : ℕ) :
    (roundHalfEven n d = n / d ∧ 2 * (n % d) ≤ d ∨ roundHalfEven n d = n / d + 1 ∧ d ≤ 2 * (n % d)) ∧
    (2 * (n % d) = d → roundHalfEven n d % 2 = 0) := by
  unfold roundHalfEven
  simp only
  split_ifs <;> omega

/-- The rounding error is at most one half, and a half only at an even result. -/
theorem roundHalfEven_error {n d : ℕ} (hd : 0 < d) :
    |(roundHalfEven n d : ℚ) - n / d| ≤ 1 / 2 ∧
    (|(roundHalfEven n d : ℚ) - n / d| = 1 / 2 → roundHalfEven n d % 2 = 0) := by
  have hd' : (0 : ℚ) < d := by exact_mod_cast hd
  have hr : n % d < d := Nat.mod_lt n hd
  have hsplit : (n : ℚ) / d = (n / d : ℕ) + (n % d : ℕ) / d := by
    rw [eq_comm, ← mul_right_inj' hd'.ne', mul_add, mul_div_cancel₀ _ hd'.ne', mul_div_cancel₀ _ hd'.ne']
    exact_mod_cast Nat.div_add_mod n d
  have down : |((n / d : ℕ) : ℚ) - n / d| = (n % d : ℕ) / d := by
    rw [hsplit, sub_add_cancel_left, abs_neg, abs_of_nonneg (by positivity)]
  have up : |((n / d + 1 : ℕ) : ℚ) - n / d| = (d - n % d : ℕ) / d := by
    rw [hsplit, Nat.cast_add_one, add_sub_add_left_eq_sub, Nat.cast_sub hr.le, sub_div, div_self hd'.ne',
      abs_of_nonneg (sub_nonneg.2 ((div_le_one hd').2 (by exact_mod_cast hr.le)))]
  have le_half (k : ℕ) : (k : ℚ) / d ≤ 1 / 2 ↔ 2 * k ≤ d := by
    rw [div_le_div_iff₀ hd' two_pos, one_mul, mul_comm]; exact_mod_cast Iff.rfl
  have eq_half (k : ℕ) : (k : ℚ) / d = 1 / 2 ↔ 2 * k = d := by
    rw [div_eq_div_iff hd'.ne' two_ne_zero, one_mul, mul_comm]; exact_mod_cast Iff.rfl
  obtain ⟨⟨h, hr2⟩ | ⟨h, hr2⟩, heven⟩ := roundHalfEven_cases n d <;> rw [h] at heven ⊢
  · rw [down, le_half, eq_half]
    exact ⟨hr2, heven⟩
  · rw [up, le_half, eq_half]
    exact ⟨by omega, fun tie => heven (by omega)⟩

/-- An integer within one half of `x` is nearest to `x`; another integer is as near only at exactly one half. -/
theorem nearest_of_error_le_half {x : ℚ} {m k : ℤ} (h : |m - x| ≤ 1 / 2) (hk : k ≠ m) :
    |m - x| ≤ |k - x| ∧ (|m - x| = |k - x| → |m - x| = 1 / 2) := by
  have apart : (1 : ℚ) ≤ |(k : ℚ) - m| := by exact_mod_cast Int.one_le_abs (sub_ne_zero.2 hk)
  have triangle : |(k : ℚ) - m| ≤ |k - x| + |m - x| := by
    rw [abs_sub_comm (m : ℚ) x]; exact abs_sub_le _ _ _
  constructor
  · linarith
  · intro; linarith

/-! ### The binary64 values around a rational -/

/-- `v` lies below `2^e` in magnitude, or is a multiple of the unit `2^(e-52)`. -/
def OnGrid (e : ℤ) (v : ℚ) : Prop := |v| < 2 ^ e ∨ ∃ k : ℤ, v = k * 2 ^ (e - 52)

theorem OnGrid.neg {e : ℤ} {v : ℚ} (h : OnGrid e v) : OnGrid e (-v) := by
  obtain h | ⟨k, rfl⟩ := h
  · exact .inl (by rwa [abs_neg])
  · exact .inr ⟨-k, by push_cast; ring⟩

theorem two_zpow_eq_unit_mul (e : ℤ) : (2 : ℚ) ^ e = 2 ^ 52 * 2 ^ (e - 52) := by
  rw [zpow_sub₀ two_ne_zero]; norm_cast; field_simp

theorem magnitudeValue_normal {b : DWord} (h : (b.extractLsb' 52 11).toNat ≠ 0) :
    magnitudeValue b = (2 ^ 52 + (b.extractLsb' 0 52).toNat : ℕ) * 2 ^ (((b.extractLsb' 52 11).toNat : ℤ) - 1075) := by
  unfold magnitudeValue
  simp only [if_neg h]
  rw [zpow_sub₀ two_ne_zero, mul_div_assoc]
  norm_cast

theorem magnitudeValue_nonneg (b : DWord) : 0 ≤ magnitudeValue b := by
  unfold magnitudeValue
  simp only
  split <;> positivity

theorem magnitudeValue_onGrid {e : ℤ} (he : -1022 ≤ e) (b : DWord) : OnGrid e (magnitudeValue b) := by
  have frac_lt : (b.extractLsb' 0 52).toNat < 2 ^ 52 := (b.extractLsb' 0 52).isLt
  by_cases h0 : (b.extractLsb' 52 11).toNat = 0
  · -- a subnormal lies below the least normal value
    left
    rw [abs_of_nonneg (magnitudeValue_nonneg b)]
    unfold magnitudeValue
    simp only [if_pos h0]
    calc ((b.extractLsb' 0 52).toNat : ℚ) / 2 ^ 1074 < 2 ^ 52 / 2 ^ 1074 := by
          gcongr; exact_mod_cast frac_lt
      _ = 2 ^ ((52 : ℕ) - (1074 : ℕ) : ℤ) := by rw [zpow_sub₀ two_ne_zero, zpow_natCast, zpow_natCast]
      _ ≤ 2 ^ e := zpow_le_zpow_right₀ one_le_two he
  · obtain hlt | hle := lt_or_ge (((b.extractLsb' 52 11).toNat : ℤ) - 1023) e
    · left
      rw [abs_of_nonneg (magnitudeValue_nonneg b), magnitudeValue_normal h0]
      calc _ < (2 : ℚ) ^ 53 * 2 ^ (((b.extractLsb' 52 11).toNat : ℤ) - 1075) := by
            gcongr; exact_mod_cast (by omega : 2 ^ 52 + (b.extractLsb' 0 52).toNat < 2 ^ 53)
        _ = 2 ^ (((b.extractLsb' 52 11).toNat : ℤ) - 1022) := by
            rw [← zpow_natCast, ← zpow_add₀ two_ne_zero]; congr 1; push_cast; ring
        _ ≤ 2 ^ e := zpow_le_zpow_right₀ one_le_two (by omega)
    · right
      obtain ⟨j, hj⟩ := Int.eq_ofNat_of_zero_le (sub_nonneg.2 hle)
      refine ⟨(2 ^ 52 + (b.extractLsb' 0 52).toNat : ℕ) * 2 ^ j, ?_⟩
      rw [magnitudeValue_normal h0, show ((b.extractLsb' 52 11).toNat : ℤ) - 1075 = j + (e - 52) by omega,
        zpow_add₀ two_ne_zero]
      push_cast
      rw [zpow_natCast, mul_assoc]

theorem value64_onGrid {e : ℤ} (he : -1022 ≤ e) (b : DWord) : OnGrid e (value64 b) := by
  unfold value64
  split
  · exact (magnitudeValue_onGrid he b).neg
  · exact magnitudeValue_onGrid he b

/-- `m` units, with `m` the integer nearest to `q` in units and `2^e ≤ q`, are nearest to `q` among the values on the grid; another
is as near only at half a unit. -/
theorem nearest_on_grid {e m : ℤ} {q v : ℚ} (hq : 2 ^ e ≤ q) (hm : |m - q / 2 ^ (e - 52)| ≤ 1 / 2)
    (hv : OnGrid e v) :
    |m * 2 ^ (e - 52) - q| ≤ |v - q| ∧
    (|m * 2 ^ (e - 52) - q| = |v - q| → v ≠ m * 2 ^ (e - 52) → |m - q / 2 ^ (e - 52)| = 1 / 2) := by
  have unit_pos : (0 : ℚ) < 2 ^ (e - 52) := by positivity
  have in_units (k : ℤ) : |k * 2 ^ (e - 52) - q| = |k - q / 2 ^ (e - 52)| * 2 ^ (e - 52) := by
    rw [← abs_of_pos unit_pos, ← abs_mul, abs_of_pos unit_pos, sub_mul, div_mul_cancel₀ _ unit_pos.ne']
  have nearest_multiple (k : ℤ) : |m * 2 ^ (e - 52) - q| ≤ |k * 2 ^ (e - 52) - q| := by
    obtain rfl | hk := eq_or_ne k m
    · rfl
    · rw [in_units, in_units]
      exact mul_le_mul_of_nonneg_right (nearest_of_error_le_half hm hk).1 unit_pos.le
  obtain below | ⟨k, rfl⟩ := hv
  · have farther : |m * 2 ^ (e - 52) - q| < |v - q| := by
      calc |m * 2 ^ (e - 52) - q| ≤ |((2 ^ 52 : ℤ) : ℚ) * 2 ^ (e - 52) - q| := nearest_multiple _
        _ = q - 2 ^ e := by
            rw [Int.cast_pow, Int.cast_ofNat, ← two_zpow_eq_unit_mul, abs_sub_comm, abs_of_nonneg (sub_nonneg.2 hq)]
        _ < q - v := sub_lt_sub_left (lt_of_abs_lt below) q
        _ ≤ |v - q| := by rw [abs_sub_comm]; exact le_abs_self _
    exact ⟨farther.le, fun tie => absurd tie farther.ne⟩
  · refine ⟨nearest_multiple k, fun tie hne => ?_⟩
    rw [in_units, in_units, mul_left_inj' unit_pos.ne'] at tie
    exact (nearest_of_error_le_half hm (by rintro rfl; exact hne rfl)).2 tie

/-! ### The pattern that is built -/

/-- The significand `magnitude64` counts in units of `2^(e-52)`. -/
def significand64 (n d : ℕ) (e : ℤ) : ℕ := roundHalfEven (n * 2 ^ (52 - e).toNat) (d * 2 ^ (e - 52).toNat)

theorem significand64_ratio (n d : ℕ) (e : ℤ) :
    ((n * 2 ^ (52 - e).toNat : ℕ) : ℚ) / (d * 2 ^ (e - 52).toNat : ℕ) = n / d / 2 ^ (e - 52) := by
  rw [two_zpow_eq_div, neg_sub]
  push_cast
  field_simp

theorem significand64_error {n d : ℕ} (hd : 0 < d) (e : ℤ) :
    |((significand64 n d e : ℤ) : ℚ) - n / d / 2 ^ (e - 52)| ≤ 1 / 2 ∧
    (|((significand64 n d e : ℤ) : ℚ) - n / d / 2 ^ (e - 52)| = 1 / 2 → significand64 n d e % 2 = 0) := by
  rw [← significand64_ratio, Int.cast_natCast]
  exact roundHalfEven_error (by positivity)

/-- The significand has 53 bits, or rounding has carried it to the next power of two. -/
theorem significand64_range {n d : ℕ} (hn : 0 < n) (hd : 0 < d) :
    2 ^ 52 ≤ significand64 n d (floorLog2 n d) ∧ significand64 n d (floorLog2 n d) ≤ 2 ^ 53 := by
  obtain ⟨lo, hi⟩ := floorLog2_spec hn hd
  set e := floorLog2 n d
  have hD : 0 < d * 2 ^ (e - 52).toNat := by positivity
  have unit_pos : (0 : ℚ) < 2 ^ (e - 52) := by positivity
  have quot_lo : 2 ^ 52 ≤ n * 2 ^ (52 - e).toNat / (d * 2 ^ (e - 52).toNat) := by
    rw [Nat.le_div_iff_mul_le hD]
    have : (2 : ℚ) ^ 52 ≤ (n * 2 ^ (52 - e).toNat : ℕ) / (d * 2 ^ (e - 52).toNat : ℕ) := by
      rwa [significand64_ratio, le_div_iff₀ unit_pos, ← two_zpow_eq_unit_mul]
    rw [le_div_iff₀ (by exact_mod_cast hD)] at this
    exact_mod_cast this
  have quot_hi : n * 2 ^ (52 - e).toNat / (d * 2 ^ (e - 52).toNat) < 2 ^ 53 := by
    rw [Nat.div_lt_iff_lt_mul hD]
    have : ((n * 2 ^ (52 - e).toNat : ℕ) : ℚ) / (d * 2 ^ (e - 52).toNat : ℕ) < 2 ^ 53 := by
      rwa [significand64_ratio, div_lt_iff₀ unit_pos, pow_succ', mul_assoc, ← two_zpow_eq_unit_mul, mul_comm,
        ← zpow_add_one₀ two_ne_zero]
    rw [div_lt_iff₀ (by exact_mod_cast hD)] at this
    exact_mod_cast this
  have := (roundHalfEven_cases (n * 2 ^ (52 - e).toNat) (d * 2 ^ (e - 52).toNat)).1
  unfold significand64
  omega

/-- In the normal range neither the lower bound of the exponent nor the bound at infinity takes effect. -/
theorem magnitude64_normal {n d : ℕ} (hn : 0 < n) (hd : 0 < d) (lo : -1022 ≤ floorLog2 n d)
    (hi : floorLog2 n d ≤ 1022) :
    magnitude64 n d = (floorLog2 n d + 1022).toNat * 2 ^ 52 + significand64 n d (floorLog2 n d) := by
  obtain ⟨-, hm⟩ := significand64_range hn hd
  unfold magnitude64
  simp only [if_neg hn.ne', max_eq_left lo]
  rw [← significand64]
  omega

/-- The layout read back: `m` of 53 bits over the exponent field `c` stands for `m * 2^(c-1074)`; the carry of `m = 2^53` into the
field changes nothing. -/
theorem finite_and_magnitudeValue_of_layout {b : DWord} {c m : ℕ} (hc : c ≤ 2044) (hm : 2 ^ 52 ≤ m) (hm' : m ≤ 2 ^ 53)
    (hb : b.toNat % 2 ^ 63 = c * 2 ^ 52 + m) :
    finite64 b = true ∧ magnitudeValue b = m * 2 ^ ((c : ℤ) - 1074) := by
  have hexp : (b.extractLsb' 52 11).toNat = b.toNat / 2 ^ 52 % 2 ^ 11 := by
    rw [BitVec.extractLsb'_toNat, Nat.shiftRight_eq_div_pow]
  have hfrac : (b.extractLsb' 0 52).toNat = b.toNat % 2 ^ 52 := by
    rw [BitVec.extractLsb'_toNat, Nat.shiftRight_zero]
  have hfinite : (b.extractLsb' 52 11).toNat ≠ 0x7FF := by omega
  refine ⟨bne_iff_ne.2 fun h => hfinite (congrArg BitVec.toNat h), ?_⟩
  rw [magnitudeValue_normal (by omega)]
  obtain hlt | rfl := hm'.lt_or_eq
  · rw [show (b.extractLsb' 52 11).toNat = c + 1 by omega, show 2 ^ 52 + (b.extractLsb' 0 52).toNat = m by omega]
    congr 2; push_cast; ring
  · rw [show (b.extractLsb' 52 11).toNat = c + 2 by omega, show 2 ^ 52 + (b.extractLsb' 0 52).toNat = 2 ^ 52 by omega,
      show ((c + 2 : ℕ) : ℤ) - 1075 = (c - 1074) + 1 by push_cast; ring, zpow_add_one₀ two_ne_zero]
    push_cast; ring

theorem bits64_zero (d : ℕ) : bits64 0 d = 0 := by
  simp [bits64, magnitude64]

theorem bits64_toNat {n : ℤ} {d : ℕ} (h : magnitude64 n.natAbs d < 2 ^ 63) :
    (bits64 n d).toNat = (if n < 0 then 2 ^ 63 else 0) + magnitude64 n.natAbs d := by
  unfold bits64
  rw [BitVec.toNat_ofNat, Nat.mod_eq_of_lt]
  split <;> omega

theorem bits64_msb {n : ℤ} {d : ℕ} (h : magnitude64 n.natAbs d < 2 ^ 63) : (bits64 n d).msb = decide (n < 0) := by
  rw [BitVec.msb_eq_decide, bits64_toNat h, decide_eq_decide]
  split <;> omega

/-- What `bits64` builds in the normal range: a finite pattern, of value the signed significand in units, with the
significand's parity. -/
theorem bits64_normal {n : ℤ} {d : ℕ} (hn : n ≠ 0) (hd : 0 < d) (lo : -1022 ≤ floorLog2 n.natAbs d)
    (hi : floorLog2 n.natAbs d ≤ 1022) :
    finite64 (bits64 n d) = true ∧
    value64 (bits64 n d) = n.sign * (significand64 n.natAbs d (floorLog2 n.natAbs d) * 2 ^ (floorLog2 n.natAbs d - 52)) ∧
    (bits64 n d).toNat % 2 = significand64 n.natAbs d (floorLog2 n.natAbs d) % 2 := by
  have hpos : 0 < n.natAbs := Int.natAbs_pos.2 hn
  obtain ⟨hm, hm'⟩ := significand64_range hpos hd
  have hmag := magnitude64_normal hpos hd lo hi
  set e := floorLog2 n.natAbs d
  have hlt : magnitude64 n.natAbs d < 2 ^ 63 := by omega
  have hnat := bits64_toNat hlt
  obtain ⟨hfinite, hvalue⟩ := finite_and_magnitudeValue_of_layout (c := (e + 1022).toNat) (b := bits64 n d) (by omega) hm hm'
    (by rw [hnat, ← hmag]; split <;> omega)
  rw [Int.toNat_of_nonneg (by omega), show e + 1022 - 1074 = e - 52 by ring] at hvalue
  refine ⟨hfinite, ?_, by rw [hnat, hmag]; split <;> omega⟩
  unfold value64
  rw [bits64_msb hlt, hvalue]
  obtain hneg | hpos := hn.lt_or_gt
  · simp [hneg, Int.sign_eq_neg_one_of_neg]
  · simp [hpos.le, Int.sign_eq_one_of_pos hpos]

/-- Distances to `n / d` are distances to `|n| / d` with the sign of `n` taken out. -/
theorem abs_sub_ratio_eq_sign_mul {n : ℤ} (hn : n ≠ 0) (v : ℚ) (d : ℕ) : |v - n / d| = |n.sign * v - n.natAbs / d| := by
  obtain hneg | hpos := hn.lt_or_gt
  · rw [Int.sign_eq_neg_one_of_neg hneg, Nat.cast_natAbs, abs_of_neg hneg, ← abs_neg]
    congr 1; push_cast; ring
  · rw [Int.sign_eq_one_of_pos hpos, Nat.cast_natAbs, abs_of_pos hpos, Int.cast_one, one_mul]

theorem OnGrid.sign_mul {e : ℤ} {v : ℚ} (h : OnGrid e v) {n : ℤ} (hn : n ≠ 0) : OnGrid e (n.sign * v) := by
  obtain hneg | hpos := hn.lt_or_gt
  · simpa [Int.sign_eq_neg_one_of_neg hneg] using h.neg
  · simpa [Int.sign_eq_one_of_pos hpos] using h

theorem sign_mul_sign_mul {n : ℤ} (hn : n ≠ 0) (v : ℚ) : (n.sign : ℚ) * (n.sign * v) = v := by
  rw [← mul_assoc, ← Int.cast_mul, ← Int.sign_mul, Int.sign_eq_one_of_pos (mul_self_pos.2 hn), Int.cast_one, one_mul]

/-- No binary64 value is nearer to `n / d` than the one `bits64` gives, and another is as near only if the pattern is even. -/
theorem bits64_nearest {n : ℤ} {d : ℕ} (hn : n ≠ 0) (hd : 0 < d) (lo : -1022 ≤ floorLog2 n.natAbs d)
    (hi : floorLog2 n.natAbs d ≤ 1022) (b : DWord) :
    |value64 (bits64 n d) - n / d| ≤ |value64 b - n / d| ∧
    (|value64 (bits64 n d) - n / d| = |value64 b - n / d| → value64 b ≠ value64 (bits64 n d) →
      (bits64 n d).toNat % 2 = 0) := by
  obtain ⟨-, hvalue, hparity⟩ := bits64_normal hn hd lo hi
  obtain ⟨he, -⟩ := floorLog2_spec (Int.natAbs_pos.2 hn) hd
  set e := floorLog2 n.natAbs d
  obtain ⟨herr, heven⟩ := significand64_error (n := n.natAbs) hd e
  obtain ⟨hle, htie⟩ := nearest_on_grid he herr ((value64_onGrid lo b).sign_mul hn)
  rw [abs_sub_ratio_eq_sign_mul hn, abs_sub_ratio_eq_sign_mul hn (value64 b), hvalue, sign_mul_sign_mul hn, hparity]
  refine ⟨hle, fun tie hne => heven (htie tie fun heq => hne ?_)⟩
  rw [← sign_mul_sign_mul hn (value64 b), heq, Int.cast_natCast]

/-- Settles O47: the operands' bounds keep the exponent in the normal range, where `bits64_nearest` holds; zero is exact. -/
theorem resultIsTheNearestBinary64 : Obligations.ResultIsTheNearestBinary64 := by
  refine ⟨bits64_zero, fun n d hd hn32 hd32 => ?_⟩
  obtain rfl | hn := eq_or_ne n 0
  · have hzero : value64 0 = 0 := by simp [value64, magnitudeValue]
    rw [bits64_zero, hzero]
    exact ⟨by decide, fun b _ => ⟨by simp, fun _ _ => by decide⟩⟩
  · obtain ⟨lo, hi⟩ := floorLog2_range (Int.natAbs_pos.2 hn) hd hn32 hd32
    have lo' : -1022 ≤ floorLog2 n.natAbs d := by omega
    have hi' : floorLog2 n.natAbs d ≤ 1022 := by omega
    exact ⟨(bits64_normal hn hd lo' hi').1, fun b _ => bits64_nearest hn hd lo' hi' b⟩

end Sys2Proof.Machine
end

section
/-! The state across one command: every way a command ends, said once, and what each of these ends writes (10_state.md). -/

namespace Sys2Proof.Machine

/-- Every way the command `i` ends in a next state, from `s`. -/
inductive CommandEffect (s : State) : Instr → State → Prop
  /-- Nothing but the report: a failed check, or a command with nothing to do (R75, R79, R86, R105). -/
  | reported {i : Instr} {e : ErrCode} (he : e.code ∈ [(0 : BitVec 4), 1, 6]) : CommandEffect s i (setErr e 0 s)
  /-- BusOpen failed (R78). -/
  | busOpenFailed {bus addr : Byte} (c : FailCode) :
      CommandEffect s (.openBus bus addr) (setErr .busUnavailable c.code (s.after [.open_ bus (.fail c)]))
  /-- BusSelect failed, and the bus was closed again (R78). -/
  | selectFailed {bus addr : Byte} (c : FailCode) :
      CommandEffect s (.openBus bus addr)
        (setErr .addressSelectFailed c.code (s.after [.open_ bus .ok, .select addr (.fail c), .close]))
  /-- OPEN succeeded (R78). -/
  | opened {bus addr : Byte} (hclosed : s.hOpen = false) :
      CommandEffect s (.openBus bus addr)
        (setErr .ok 0 { s.after [.open_ bus .ok, .select addr .ok] with
          hOpen := true, hBus := bus, hAddr := addr, hTx := .live })
  /-- CLOSE released the handle (R79). -/
  | closed (hopen : s.hOpen = true) :
      CommandEffect s .close (setErr .ok 0 { s.after [.close] with hOpen := false, hTx := .none })
  /-- A command of the transactions made its transfers (R76, R80 to R86). -/
  | moved {i : Instr} {evs : List Event} {res info : Word} {err : BitVec 4}
      (hi : i.mnemonic ∈ ["RDB", "RDW", "RDWS", "WRB", "WRW", "WRC", "WRBLK"])
      (hlen : evs.length ≤ 2) (hevs : ∀ e ∈ evs, e.transfer) (hrep : Reported err info)
      (hres : res ≠ s.res → err = 0 ∧ i.mnemonic ∈ ["RDB", "RDW", "RDWS"]) :
      CommandEffect s i { s.after evs with res := res, err := err, errinfo := info }
  /-- LDCAL succeeded (R93). -/
  | loaded {evs : List Event} (r : Byte → Byte) (hlen : evs.length ≤ 64) (hevs : ∀ e ∈ evs, e.transfer) :
      CommandEffect s .ldcal
        (setErr .ok 0 { s.after evs with
          cal := assembleCal s.params.humPack r, calValid := true, tfValid := false })
  /-- LDCAL failed at the register `reg` (R94). -/
  | loadFailed {evs : List Event} (r : Byte → Byte) (reg : Byte) (c : FailCode) (hlen : evs.length ≤ 64)
      (hevs : ∀ e ∈ evs, e.transfer) :
      CommandEffect s .ldcal
        (setErr .calibrationReadFailed c.code { s.after evs with
          res := zext32 reg, cal := assembleCal s.params.humPack r, calValid := false, tfValid := false })
  /-- A compensation command wrote its result (R103). -/
  | compensated {i : Instr} {tf res : Word} {tfValid ovf zdiv sat : Bool} {resf : DWord}
      (hi : i.mnemonic ∈ ["CMPT", "CMPH", "CMPP"]) (hcal : s.calValid = true) (hguard : ¬ (zdiv = true ∧ sat = true))
      (htf : (∃ m l x, i = .cmpt m l x) ∧ tfValid = true ∨ tf = s.tf ∧ tfValid = s.tfValid) :
      CommandEffect s i (setErr .ok 0 (setFlags ovf zdiv sat { s with
        tf := tf, tfValid := tfValid, res := res, resf := resf }))

/-! ### Every command ends in one of these ways -/

theorem exec_openBus_effect {bus addr : Byte} {s t : State} (h : exec (.openBus bus addr) s = .next t) :
    CommandEffect s (.openBus bus addr) t := by
  change execOpen bus addr s = .next t at h
  rcases execOpen_cases bus addr s with ⟨-, he⟩ | ⟨-, -, he⟩ | ⟨-, a, c, -, -, he⟩
    | ⟨-, a, a', a'', c, -, -, -, -, -, he⟩ | ⟨hclosed, a, a', -, -, -, -, he⟩ <;> rw [he] at h <;> cases h
  · exact .reported (by decide)
  · exact .busOpenFailed c
  · simpa [called_eq_after] using CommandEffect.selectFailed c
  · simpa [called_eq_after] using CommandEffect.opened hclosed

theorem exec_close_effect {s t : State} (h : exec .close s = .next t) : CommandEffect s .close t := by
  change execClose s = .next t at h
  rcases execClose_cases s with ⟨-, he⟩ | ⟨-, -, he⟩ | ⟨hopen, a, -, he⟩ <;> rw [he] at h <;> cases h
  · exact .reported (by decide)
  · exact .closed hopen

theorem exec_transfer_effect {i : Instr} {s t : State}
    (hi : i.mnemonic ∈ ["RDB", "RDW", "RDWS", "WRB", "WRW", "WRC", "WRBLK"]) (h : exec i s = .next t) :
    CommandEffect s i t := by
  obtain ⟨evs, res, info, err, rfl, hlen, hevs, hrep, hres⟩ := exec_transfer_next hi h
  exact .moved hi hlen hevs hrep fun hne => (hres hne).imp_right of_decide_eq_true

theorem exec_ldcal_effect {s t : State} (h : exec .ldcal s = .next t) : CommandEffect s .ldcal t := by
  obtain ⟨-, rfl⟩ | ⟨-, evs, r, hlen, hevs, rfl | ⟨reg, c, rfl⟩⟩ := exec_ldcal_next h
  · exact .reported (by decide)
  · exact .loaded r hlen hevs
  · exact .loadFailed r reg c hlen hevs

theorem exec_compensation_effect {i : Instr} {s t : State} (hi : i.mnemonic ∈ ["CMPT", "CMPH", "CMPP"])
    (h : exec i s = .next t) : CommandEffect s i t := by
  obtain rfl | ⟨hcal, tf, res, tfValid, resf, ovf, zdiv, sat, rfl, hguard, htf⟩ := exec_compensation_next hi h
  · exact .reported (by decide)
  · exact .compensated hi hcal hguard htf

/-- A command that has a next state ends in one of the ways of `CommandEffect`. -/
theorem exec_effect {i : Instr} {s t : State} (h : exec i s = .next t) : CommandEffect s i t := by
  cases i with
  | openBus _ _ => exact exec_openBus_effect h
  | close => exact exec_close_effect h
  | ldcal => exact exec_ldcal_effect h
  | rdb _ | rdw _ | rdws _ | wrb _ _ | wrw _ _ | wrc _ | wrblk =>
    exact exec_transfer_effect (by simp [Instr.mnemonic]) h
  | cmpt _ _ _ | cmph _ _ | cmpp _ _ _ => exact exec_compensation_effect (by simp [Instr.mnemonic]) h

/-! ### What each end of a command writes -/

namespace CommandEffect

variable {i : Instr} {s t : State}

theorem cal_only_by_ldcal (h : CommandEffect s i t) (hne : t.cal ≠ s.cal ∨ t.calValid ≠ s.calValid) : i = .ldcal := by
  cases h with
  | loaded | loadFailed => rfl
  | _ => simp at hne

theorem tf_only_by_cmpt (h : CommandEffect s i t) (hne : t.tf ≠ s.tf) : ∃ m l x, i = .cmpt m l x := by
  cases h with
  | compensated _ _ _ htf => exact (htf.resolve_right fun hsame => hne hsame.1).1
  | _ => simp at hne

theorem tfValid_only_by_ldcal_cmpt (h : CommandEffect s i t) (hne : t.tfValid ≠ s.tfValid) :
    i = .ldcal ∨ ∃ m l x, i = .cmpt m l x := by
  cases h with
  | loaded | loadFailed => exact .inl rfl
  | compensated _ _ _ htf => exact .inr (htf.resolve_right fun hsame => hne hsame.2).1
  | _ => simp at hne

theorem res_only_by_results (h : CommandEffect s i t) (hne : t.res ≠ s.res) :
    i.mnemonic ∈ ["RDB", "RDW", "RDWS", "LDCAL", "CMPT", "CMPH", "CMPP"] := by
  cases h with
  | moved _ _ _ _ hres => exact List.mem_append_left ["LDCAL", "CMPT", "CMPH", "CMPP"] (hres hne).2
  | loadFailed => simp [Instr.mnemonic]
  | compensated hi => exact List.mem_append_right ["RDB", "RDW", "RDWS", "LDCAL"] hi
  | _ => simp at hne

theorem resf_only_by_compensation (h : CommandEffect s i t) (hne : t.resf ≠ s.resf) :
    i.mnemonic ∈ ["CMPT", "CMPH", "CMPP"] := by
  cases h with
  | compensated hi => exact hi
  | _ => simp at hne

theorem handle_only_by_open_close (h : CommandEffect s i t) (hne : t.hOpen ≠ s.hOpen ∨ t.hTx ≠ s.hTx) :
    i.mnemonic ∈ ["OPEN", "CLOSE"] := by
  cases h with
  | opened | closed => simp [Instr.mnemonic]
  | _ => simp at hne

/-- The handle's numbers change only by an OPEN that finds no handle open (R17, R78). -/
theorem handleNumbers_only_by_open (h : CommandEffect s i t) (hne : t.hBus ≠ s.hBus ∨ t.hAddr ≠ s.hAddr) :
    i.mnemonic ∈ ["OPEN"] ∧ s.hOpen = false := by
  cases h with
  | opened hclosed => exact ⟨by simp [Instr.mnemonic], hclosed⟩
  | _ => simp at hne

/-- The flags change only by a compensation command that succeeds, and then SOVF collects OVF (R29, R103). -/
theorem flags_only_by_compensation (h : CommandEffect s i t) :
    (t.ovf = s.ovf ∧ t.zdiv = s.zdiv ∧ t.sat = s.sat ∧ t.sovf = s.sovf) ∨
    (i.mnemonic ∈ ["CMPT", "CMPH", "CMPP"] ∧ t.err = 0 ∧ t.sovf = (s.sovf || t.ovf)) := by
  cases h with
  | compensated hi => exact .inr ⟨hi, rfl, rfl⟩
  | _ => exact .inl ⟨rfl, rfl, rfl, rfl⟩

/-- No command writes the buffer's registers (R60). -/
theorem keeps_buffer (h : CommandEffect s i t) : t.blkLen = s.blkLen ∧ t.blkBuf = s.blkBuf := by
  cases h <;> exact ⟨rfl, rfl⟩

/-- One event for each transport call, at most 64 in a command; the script and the parameters stay (R30, R93). -/
theorem history (h : CommandEffect s i t) :
    ∃ evs : List Event, t.th = s.th ++ evs ∧ t.calls = s.calls + evs.length ∧ evs.length ≤ 64 ∧
      t.script = s.script ∧ t.params = s.params := by
  cases h with
  | reported | compensated => exact ⟨[], by simp, rfl, by simp, rfl, rfl⟩
  | busOpenFailed | selectFailed | opened | closed => exact ⟨_, rfl, rfl, by simp, rfl, rfl⟩
  | moved _ hlen => exact ⟨_, rfl, rfl, by omega, rfl, rfl⟩
  | loaded _ hlen | loadFailed _ _ _ hlen => exact ⟨_, rfl, rfl, hlen, rfl, rfl⟩

end CommandEffect

end Sys2Proof.Machine
end

section
/-! O49, O50: the invariant holds after reset, and every step keeps it. One lemma per update of the state says why the update
keeps it; a step is made of these updates. -/

namespace Sys2Proof.Machine

/-! ### The 12-bit constants (R21, R92) -/

/-- Twelve unsigned bits. -/
theorem twelveBit_source {n : Nat} (h : n ≤ 4095) : twelveBit .source (BitVec.ofNat 16 n) := by
  refine ⟨fun _ => ?_, nofun⟩
  rw [BitVec.toNat_ofNat]
  omega

/-- A signed byte in front of a nibble is twelve signed bits. -/
theorem twelveBit_datasheet (high : Byte) {nibble : Nat} (h : nibble < 16) :
    twelveBit .datasheet (packSignedByteNibble high nibble) := by
  refine ⟨nofun, fun _ => ?_⟩
  have hlo := high.le_toInt
  have hhi := high.toInt_lt
  rw [packSignedByteNibble, BitVec.toInt_ofInt, Int.bmod_eq_of_le] <;> omega

theorem twelveBit_packH4 (pack : HumPack) (r : Byte → Byte) : twelveBit pack (packH4 pack r) := by
  cases pack with
  | source => exact twelveBit_source (by have := (r 0xE4#8).isLt; omega)
  | datasheet => exact twelveBit_datasheet _ (Nat.mod_lt _ (by decide))

theorem twelveBit_packH5 (pack : HumPack) (r : Byte → Byte) : twelveBit pack (packH5 pack r) := by
  have hnibbles := (r 0xE5#8).isLt
  cases pack with
  | source => exact twelveBit_source (by have := (r 0xE6#8).isLt; omega)
  | datasheet => exact twelveBit_datasheet _ (by omega)

/-! ### Which updates keep the invariant -/

namespace State.Inv

variable {s : State}

theorem reported (h : s.Inv) {e : ErrCode} {info : Word} (hrep : Reported e.code info) : (setErr e info s).Inv :=
  { h with errWritten := hrep.1, errCarries := hrep.2 }

/-- Calls that open the bus as often as they close it (R18). -/
theorem after_balanced (h : s.Inv) {evs : List Event} (hbal : evs.countP Event.opens = evs.countP Event.closes)
    (hsized : evs.all Event.sized = true) : (s.after evs).Inv :=
  { h with
    oneHandle := by
      have hone := h.oneHandle
      simp only [after_th, after_hOpen, List.countP_append]
      omega
    sized := by simp [h.sized, hsized] }

theorem after_transfers (h : s.Inv) {evs : List Event} (hevs : ∀ e ∈ evs, e.transfer) : (s.after evs).Inv := by
  have hopens : evs.countP Event.opens = 0 := List.countP_eq_zero.2 fun e he => by simp [(hevs e he).1]
  have hcloses : evs.countP Event.closes = 0 := List.countP_eq_zero.2 fun e he => by simp [(hevs e he).2.1]
  exact h.after_balanced (hopens.trans hcloses.symm) (List.all_eq_true.2 fun e he => (hevs e he).2.2)

/-- A new store (R93, R94): fine-temperature is unset with it. -/
theorem newStore (h : s.Inv) (r : Byte → Byte) (valid : Bool) :
    { s with cal := assembleCal s.params.humPack r, calValid := valid, tfValid := false }.Inv :=
  { h with tfNeedsCal := nofun, h4 := twelveBit_packH4 _ r, h5 := twelveBit_packH5 _ r }

/-- OPEN's success adds the one live handle (R18, R78). -/
theorem opened (h : s.Inv) (hclosed : s.hOpen = false) (bus addr : Byte) :
    { s.after [.open_ bus .ok, .select addr .ok] with hOpen := true, hBus := bus, hAddr := addr, hTx := .live }.Inv :=
  { h with
    handle := by simp
    oneHandle := by simp [h.oneHandle, hclosed, List.countP_cons, Event.opens, Event.closes]
    sized := by simp [h.sized, Event.sized] }

/-- CLOSE takes the one live handle away (R18, R79). -/
theorem closed (h : s.Inv) (hopen : s.hOpen = true) :
    { s.after [.close] with hOpen := false, hTx := .none }.Inv :=
  { h with
    handle := by simp
    oneHandle := by simp [h.oneHandle, hopen, Event.opens, Event.closes]
    sized := by simp [h.sized, Event.sized] }

/-- The result writes of a compensation command (R29, R103). -/
theorem compensated (h : s.Inv) (hcal : s.calValid = true) (tf res : Word) (resf : DWord) (tfValid ovf : Bool)
    {zdiv sat : Bool} (hguard : ¬ (zdiv = true ∧ sat = true)) :
    (setFlags ovf zdiv sat { s with tf := tf, tfValid := tfValid, res := res, resf := resf }).Inv :=
  { h with tfNeedsCal := fun _ => hcal, sticky := fun hovf => by simp [show ovf = true from hovf], guardOrClamp := hguard }

/-- A host write of a BLK_BUF byte (R32). -/
theorem writeBuf (h : s.Inv) {i : Nat} (hi : i < s.params.blkMax) (v : Byte) :
    { s with blkBuf := Memory.write s.blkBuf i v }.Inv :=
  { h with
    bufForm := Memory.wf_write h.bufForm i v
    bufRange := fun c hc => by
      obtain hc | ⟨rfl, -⟩ := Memory.mem_write hc
      · exact h.bufRange c hc
      · exact hi }

/-- The block's other inputs and outputs are under no rule of the invariant. -/
theorem ports (h : s.Inv) (host : List HostAction) (hostReads : List (Nat × Word)) (cmdLast blkLen res : Word) :
    { s with host := host, hostReads := hostReads, cmdLast := cmdLast, blkLen := blkLen, res := res }.Inv :=
  { h with }

end State.Inv

/-- Every command keeps the invariant. -/
theorem CommandEffect.keeps_inv {i : Instr} {s t : State} (h : CommandEffect s i t) (hs : s.Inv) : t.Inv := by
  cases h with
  | reported he => exact hs.reported (reported_plain (List.mem_append_left [8] he))
  | busOpenFailed c =>
    exact (hs.after_balanced rfl rfl).reported (reported_transport (by decide) c)
  | selectFailed c =>
    exact (hs.after_balanced rfl rfl).reported (reported_transport (by decide) c)
  | opened hclosed => exact (hs.opened hclosed _ _).reported (reported_plain (by decide))
  | closed hopen => exact (hs.closed hopen).reported (reported_plain (by decide))
  | moved _ _ hevs hrep => exact { hs.after_transfers hevs with errWritten := hrep.1, errCarries := hrep.2 }
  | loaded r _ hevs => exact ((hs.after_transfers hevs).newStore r true).reported (reported_plain (by decide))
  | loadFailed r reg c _ hevs =>
    exact (((hs.after_transfers hevs).newStore r false).ports _ _ _ _ (zext32 reg)).reported
      (reported_transport (by decide) c)
  | compensated _ hcal hguard _ => exact (hs.compensated hcal _ _ _ _ _ hguard).reported (reported_plain (by decide))

/-- Settles O50: a command ends in one of the ways of `CommandEffect`, each made of updates that keep the invariant; of the other
steps only a write to BLK_BUF touches what the invariant speaks of. -/
theorem everyStepKeepsTheInvariant : Obligations.EveryStepKeepsTheInvariant := by
  intro s t hs h
  rcases step_next h with ⟨w, i, rest, -, -, he⟩ | ⟨w, e, rest, -, -, rfl⟩ | ⟨v, rest, -, rfl⟩ | ⟨i, v, rest, -, hi, rfl⟩
    | ⟨offset, v, rest, -, rfl⟩ | ⟨offset, v, rest, -, rfl⟩
  · exact (exec_effect he).keeps_inv (hs.ports rest _ w _ _)
  · exact (hs.ports rest _ w _ _).reported (e := .illegalCommand) (reported_plain (by decide))
  · exact hs.ports rest _ _ v _
  · exact (hs.ports rest _ _ _ _).writeBuf hi _
  · exact hs.ports rest _ _ _ _
  · exact hs.ports rest _ _ _ _

/-- Settles O49: each clause is about literal values. -/
theorem resetMeetsTheInvariant : Obligations.ResetMeetsTheInvariant where
  params := by decide
  handle := by decide
  oneHandle := rfl
  sized := rfl
  tfNeedsCal := nofun
  sticky := nofun
  guardOrClamp := nofun
  errWritten := by decide
  errCarries := by decide
  h4 := by decide
  h5 := by decide
  bufForm := by decide
  bufRange := nofun

end Sys2Proof.Machine
end

section
/-! O25, O51, O53, O54: which step writes which register (10_state.md). A step either ends a command, or writes only what the host
port writes by itself; for a command the claims are those about `CommandEffect`. -/

namespace Sys2Proof.Machine

/-- Everything a step can do, as to the registers that only commands write. -/
theorem step_effect {s t : State} (h : step s = .next t) :
    (∃ i w rest, s.issues i ∧ CommandEffect { s with host := rest, cmdLast := w } i t) ∨
    (∃ err errinfo blkLen blkBuf cmdLast host hostReads,
      t = { s with
        err := err, errinfo := errinfo, blkLen := blkLen, blkBuf := blkBuf, cmdLast := cmdLast, host := host,
        hostReads := hostReads }) := by
  rcases step_next h with ⟨w, i, rest, hhost, hd, he⟩ | ⟨_, _, _, -, -, rfl⟩ | ⟨_, _, -, rfl⟩ | ⟨_, _, _, -, -, rfl⟩
    | ⟨_, _, _, -, rfl⟩ | ⟨_, _, _, -, rfl⟩
  · exact .inl ⟨i, w, rest, ⟨w, rest, hhost, hd⟩, exec_effect he⟩
  all_goals exact .inr ⟨_, _, _, _, _, _, _, rfl⟩

/-- Settles O25: only an OPEN that finds no handle open writes the numbers. -/
theorem handleIsFixedWhileOpen : Obligations.HandleIsFixedWhileOpen := by
  intro s t h hopen
  obtain ⟨i, w, rest, -, he⟩ | ⟨_, _, _, _, _, _, _, rfl⟩ := step_effect h
  · by_contra hne
    obtain ⟨-, hclosed⟩ := he.handleNumbers_only_by_open (not_and_or.1 hne)
    exact Bool.noConfusion (hopen.symm.trans hclosed)
  · exact ⟨rfl, rfl⟩

/-- Settles O51: a step that is no command makes no transport call. -/
theorem historyOnlyGrows : Obligations.HistoryOnlyGrows := by
  intro s t h
  obtain ⟨i, w, rest, -, he⟩ | ⟨_, _, _, _, _, _, _, rfl⟩ := step_effect h
  · exact he.history
  · exact ⟨[], by simp, rfl, by simp, rfl, rfl⟩

/-- Settles O53: a command leaves the flags or is a compensation command that succeeds; no other step writes them. -/
theorem flagsChangeOnlyByCompensation : Obligations.FlagsChangeOnlyByCompensation := by
  intro s t h
  obtain ⟨i, w, rest, hi, he⟩ | ⟨_, _, _, _, _, _, _, rfl⟩ := step_effect h
  · obtain ⟨hovf, hzdiv, hsat, hsovf⟩ | ⟨hcomp, herr, hsovf⟩ := he.flags_only_by_compensation
    · exact ⟨hsovf.trans, fun hne => by simp [hovf, hzdiv, hsat, hsovf] at hne⟩
    · exact ⟨fun hset => by simp [hsovf, hset], fun _ => ⟨⟨i, hi, hcomp⟩, herr, hsovf⟩⟩
  · exact ⟨id, fun hne => by simp at hne⟩

/-- Only a write to CMD reports (R27, R28, R33). -/
theorem report_only_by_cmd {s t : State} (h : step s = .next t)
    (hne : t.err ≠ s.err ∨ t.errinfo ≠ s.errinfo ∨ t.cmdLast ≠ s.cmdLast) :
    ∃ w rest, s.host = .write 0x000 32 w :: rest := by
  rcases step_next h with ⟨w, _, rest, hhost, -, -⟩ | ⟨w, _, rest, hhost, -, -⟩ | ⟨_, _, -, rfl⟩ | ⟨_, _, _, -, -, rfl⟩
    | ⟨_, _, _, -, rfl⟩ | ⟨_, _, _, -, rfl⟩
  · exact ⟨w, rest, hhost⟩
  · exact ⟨w, rest, hhost⟩
  all_goals simp at hne

/-- Only a host write to it changes BLK_LEN (R31). -/
theorem blkLen_only_by_write {s t : State} (h : step s = .next t) (hne : t.blkLen ≠ s.blkLen) :
    ∃ v rest, s.host = .write 0x020 32 v :: rest := by
  rcases step_next h with ⟨_, _, _, -, -, he⟩ | ⟨_, _, _, -, -, rfl⟩ | ⟨v, rest, hhost, -⟩ | ⟨_, _, _, -, -, rfl⟩
    | ⟨_, _, _, -, rfl⟩ | ⟨_, _, _, -, rfl⟩
  · exact absurd (exec_effect he).keeps_buffer.1 hne
  · exact absurd rfl hne
  · exact ⟨v, rest, hhost⟩
  all_goals exact absurd rfl hne

/-- Only a host write to one of its bytes changes BLK_BUF (R32). -/
theorem blkBuf_only_by_write {s t : State} (h : step s = .next t) (hne : t.blkBuf ≠ s.blkBuf) :
    ∃ i v rest, i < s.params.blkMax ∧ s.host = .write (0x100 + 4 * i) 32 v :: rest := by
  rcases step_next h with ⟨_, _, _, -, -, he⟩ | ⟨_, _, _, -, -, rfl⟩ | ⟨_, _, -, rfl⟩ | ⟨i, v, rest, hhost, hi, -⟩
    | ⟨_, _, _, -, rfl⟩ | ⟨_, _, _, -, rfl⟩
  · exact absurd (exec_effect he).keeps_buffer.2 hne
  · exact absurd rfl hne
  · exact absurd rfl hne
  · exact ⟨i, v, rest, hi, hhost⟩
  all_goals exact absurd rfl hne

/-- Settles O54: a register of the commands by the end of the command that wrote it, the others by the host action. -/
theorem onlyTheseStepsWriteEachRegister : Obligations.OnlyTheseStepsWriteEachRegister := by
  intro s t h
  have hreport := report_only_by_cmd h
  have hlen := blkLen_only_by_write h
  have hbuf := blkBuf_only_by_write h
  obtain ⟨i, w, rest, hi, he⟩ | ⟨_, _, _, _, _, _, _, rfl⟩ := step_effect h
  · have byLdcal : i = .ldcal → s.issues .ldcal := fun hl => hl ▸ hi
    have byCmpt : (∃ m l x, i = .cmpt m l x) → ∃ m l x, s.issues (.cmpt m l x) :=
      fun ⟨m, l, x, hc⟩ => ⟨m, l, x, hc ▸ hi⟩
    exact ⟨fun hne => byLdcal (he.cal_only_by_ldcal hne),
      fun hne => byCmpt (he.tf_only_by_cmpt hne),
      fun hne => (he.tfValid_only_by_ldcal_cmpt hne).imp byLdcal byCmpt,
      fun hne => ⟨i, hi, he.res_only_by_results hne⟩,
      fun hne => ⟨i, hi, he.resf_only_by_compensation hne⟩,
      fun hne => ⟨i, hi, he.handle_only_by_open_close hne⟩,
      fun hne => ⟨i, hi, (he.handleNumbers_only_by_open hne).1⟩,
      hreport, hlen, hbuf⟩
  · refine ⟨?_, ?_, ?_, ?_, ?_, ?_, ?_, hreport, hlen, hbuf⟩ <;> simp

/-- Settles O48: register by register, from the literal reset state. -/
theorem resetValues : Obligations.ResetValues :=
  ⟨rfl, rfl, rfl, rfl, fun c => by cases c <;> rfl, rfl, rfl, rfl, rfl, rfl, rfl, rfl, rfl, rfl, rfl, rfl, rfl, rfl,
    fun _ => rfl, rfl⟩

end Sys2Proof.Machine
end

section
/-! O55: the bytes of BLK_BUF. In canonical form the list holds exactly the bytes that do not read 0 (10_state.md R32). -/

namespace Sys2Proof.Machine

/-- In canonical form the entries are the indexes that do not read 0, each with what it reads. -/
theorem Memory.mem_iff_read {m : Memory} (hm : Memory.wf m) (i : Nat) (v : Byte) :
    (i, v) ∈ m ↔ v ≠ 0#8 ∧ Memory.read m i = v := by
  induction m with
  | nil => exact ⟨nofun, fun hr => absurd hr.2.symm hr.1⟩
  | cons c rest ih =>
    obtain ⟨a, u⟩ := c
    obtain ⟨hrising, hnonzero⟩ := hm
    obtain ⟨hbelow, hrest⟩ := List.pairwise_cons.1 hrising
    rw [List.mem_cons, Prod.mk.injEq]
    by_cases hia : i = a
    · subst hia
      have hnot : (i, v) ∉ rest := fun hv => lt_irrefl i (hbelow _ hv)
      have hu : u ≠ 0#8 := hnonzero (i, u) List.mem_cons_self
      simp only [Memory.read, if_true, true_and, hnot, or_false]
      exact ⟨fun hvu => ⟨hvu ▸ hu, hvu.symm⟩, fun hr => hr.2.symm⟩
    · rw [Memory.read, if_neg hia, ← ih ⟨hrest, fun d hd => hnonzero d (List.mem_cons_of_mem _ hd)⟩]
      simp [hia]

/-- Contents in canonical form that read alike are the same data. -/
theorem Memory.ext_of_read {m m' : Memory} (hm : Memory.wf m) (hm' : Memory.wf m')
    (h : ∀ i, Memory.read m i = Memory.read m' i) : m = m' := by
  have hirrefl : Std.Irrefl fun c d : Host.Cell => c.1 < d.1 := ⟨fun c => lt_irrefl c.1⟩
  have hantisymm : Std.Antisymm fun c d : Host.Cell => c.1 < d.1 := ⟨fun _ _ hcd hdc => absurd hcd hdc.asymm⟩
  refine hm.1.eq_of_mem_iff hm'.1 fun ⟨i, v⟩ => ?_
  rw [Memory.mem_iff_read hm, Memory.mem_iff_read hm', h]

/-- Settles O55: the laws of a write, and that the reads determine the data. -/
theorem bufferBytesAreCanonical : Obligations.BufferBytesAreCanonical :=
  ⟨fun m i v hm => ⟨Memory.wf_write hm i v, Memory.read_write_same hm i v, fun _ hj => Memory.read_write_ne m v hj⟩,
    fun _ _ => Memory.ext_of_read⟩

end Sys2Proof.Machine
end

section
/-! O52: the block never reads TH (10_state.md R30). Events put before TH pass through every operation unchanged: each operation
below commutes with them. -/

namespace Sys2Proof.Machine

/-- The state with the events `evs` before its TH. -/
def State.precededBy (evs : List Event) (s : State) : State := { s with th := evs ++ s.th }

/-- The same for what a command answers. -/
def precedeResult (evs : List Event) : Result → Result
  | .next s => .next (s.precededBy evs)
  | .fault f => .fault f
  | .refused r => .refused r

/-- The same for what a transport call comes to. -/
def Xfer.precededBy {α : Type} (evs : List Event) : Xfer α → Xfer α
  | .ok a s => .ok a (s.precededBy evs)
  | .fail c s => .fail c (s.precededBy evs)
  | .never => .never

/-- The same for what the calibration reads come to. -/
def CalRead.precededBy (evs : List Event) : CalRead → CalRead
  | .done table s => .done table (s.precededBy evs)
  | .failed reg c s => .failed reg c (s.precededBy evs)
  | .never => .never

/-- `k` does the same with other events before TH. -/
def IgnoresHistory (k : State → Result) : Prop :=
  ∀ (evs : List Event) (s : State), k (s.precededBy evs) = precedeResult evs (k s)

/-! ### Transport calls -/

@[simp] theorem draw_precededBy (evs : List Event) (s : State) (i : Nat) : (s.precededBy evs).draw i = s.draw i := rfl

@[simp] theorem called_precededBy (evs : List Event) (e : Event) (s : State) :
    (s.precededBy evs).called e = (s.called e).precededBy evs := by
  simp [State.called, State.precededBy]

theorem busCall_precededBy (evs : List Event) (event : CallOutcome → Event) (s : State) :
    busCall event (s.precededBy evs) = (busCall event s).precededBy evs := by
  unfold busCall
  rw [draw_precededBy]
  rcases s.draw 0 with a | _
  · rcases hf : answerFailure a with _ | c <;> simp [hf, Xfer.precededBy]
  · rfl

theorem busRead_precededBy (evs : List Event) (n : Nat) (s : State) :
    busRead n (s.precededBy evs) = (busRead n s).precededBy evs := by
  unfold busRead
  rw [draw_precededBy]
  rcases s.draw 0 with a | _
  · rcases hf : answerFailure a with _ | c <;> simp [hf, Xfer.precededBy]
  · rfl

theorem memRead_precededBy (evs : List Event) (reg : Byte) (n : Nat) (s : State) :
    memRead reg n (s.precededBy evs) = (memRead reg n s).precededBy evs := by
  unfold memRead busWrite
  rw [busCall_precededBy]
  rcases busCall (.write [reg]) s with ⟨-, s'⟩ | ⟨c, s'⟩ | _
  · simp only [Xfer.precededBy, busRead_precededBy]
    rcases busRead n s' with _ | _ | _ <;> rfl
  · rfl
  · rfl

theorem readCal_precededBy (evs : List Event) (regs : List Byte) (table : List (Byte × Byte)) (s : State) :
    readCal table (s.precededBy evs) regs = (readCal table s regs).precededBy evs := by
  induction regs generalizing table s with
  | nil => rfl
  | cons reg rest ih =>
    rw [readCal, readCal, memRead_precededBy]
    rcases memRead reg 1 s with ⟨v, s'⟩ | ⟨c, s'⟩ | _
    · exact ih _ _
    · rfl
    · rfl

/-! ### What follows a call or a check -/

theorem complete_ignoresHistory : IgnoresHistory complete := fun _ _ => rfl

theorem raise_ignoresHistory (e : ErrCode) (info : Word) : IgnoresHistory (raise e info) := fun _ _ => rfl

theorem finish_precededBy {α : Type} {onFail : FailCode → State → Result} {k : α → State → Result}
    (hfail : ∀ c, IgnoresHistory (onFail c)) (hk : ∀ a, IgnoresHistory (k a)) (evs : List Event) (x : Xfer α) :
    (x.precededBy evs).finish onFail k = precedeResult evs (x.finish onFail k) := by
  cases x with
  | ok a s => exact hk a evs s
  | fail c s => exact hfail c evs s
  | never => rfl

theorem busClose_precededBy {k : State → Result} (hk : IgnoresHistory k) (evs : List Event) (s : State) :
    busClose (s.precededBy evs) k = precedeResult evs (busClose s k) := by
  unfold busClose
  rw [draw_precededBy, called_precededBy]
  rcases s.draw 0 with a | _
  · exact hk evs _
  · rfl

/-- A check that does not read TH. -/
theorem ite_ignoresHistory {c : State → Prop} [∀ s, Decidable (c s)] {k k' : State → Result}
    (hc : ∀ evs s, c (s.precededBy evs) ↔ c s) (hk : IgnoresHistory k) (hk' : IgnoresHistory k') :
    IgnoresHistory fun s => if c s then k s else k' s := fun evs s => by
  by_cases hs : c s
  · simp only [if_pos hs, if_pos ((hc evs s).2 hs), hk evs s]
  · simp only [if_neg hs, if_neg (mt (hc evs s).1 hs), hk' evs s]

theorem withHandle_ignoresHistory {k : State → Result} (hk : IgnoresHistory k) :
    IgnoresHistory fun s => withHandle s k :=
  ite_ignoresHistory (fun _ _ => Iff.rfl) hk (raise_ignoresHistory _ _)

theorem withCal_ignoresHistory {k : State → Result} (hk : IgnoresHistory k) :
    IgnoresHistory fun s => withCal s k :=
  ite_ignoresHistory (fun _ _ => Iff.rfl) hk (raise_ignoresHistory _ _)

theorem withCalAndTf_ignoresHistory {k : State → Result} (hk : IgnoresHistory k) :
    IgnoresHistory fun s => withCalAndTf s k :=
  ite_ignoresHistory (fun _ _ => Iff.rfl) hk (raise_ignoresHistory _ _)

/-! ### The commands -/

theorem openCleanUp_ignoresHistory (c : FailCode) : IgnoresHistory (openCleanUp c) :=
  busClose_precededBy (raise_ignoresHistory _ _)

theorem execOpen_ignoresHistory (bus addr : Byte) : IgnoresHistory (execOpen bus addr) := by
  have select : IgnoresHistory fun s => (busSelect addr s).finish openCleanUp fun _ => openHandle bus addr :=
    fun evs s => by
      simp only [busSelect, busCall_precededBy]
      exact finish_precededBy openCleanUp_ignoresHistory (fun _ _ _ => rfl) evs _
  refine ite_ignoresHistory (fun _ _ => Iff.rfl) (raise_ignoresHistory _ _) fun evs s => ?_
  simp only [busOpen, busCall_precededBy]
  exact finish_precededBy (fun _ => raise_ignoresHistory _ _) (fun _ => select) evs _

theorem execClose_ignoresHistory : IgnoresHistory execClose :=
  ite_ignoresHistory (fun _ _ => Iff.rfl) (busClose_precededBy fun _ _ => rfl) complete_ignoresHistory

theorem sendBytes_ignoresHistory (bytes : List Byte) : IgnoresHistory (sendBytes bytes) := fun evs s => by
  simp only [sendBytes, busWrite, busCall_precededBy]
  exact finish_precededBy (fun _ => raise_ignoresHistory _ _) (fun _ => complete_ignoresHistory) evs _

theorem readInto_ignoresHistory (reg : Byte) (n : Nat) (f : Nat → Word) : IgnoresHistory (readInto reg n f) :=
  fun evs s => by
    simp only [readInto, memRead_precededBy]
    exact finish_precededBy (fun _ => raise_ignoresHistory _ _) (fun _ _ _ => rfl) evs _

theorem sendBlock_ignoresHistory : IgnoresHistory sendBlock :=
  ite_ignoresHistory (fun _ _ => Iff.rfl) (raise_ignoresHistory _ _) <|
    ite_ignoresHistory (fun _ _ => Iff.rfl) (raise_ignoresHistory _ _) <|
      ite_ignoresHistory (fun _ _ => Iff.rfl) complete_ignoresHistory fun evs s =>
        sendBytes_ignoresHistory (blockBytes s.blkBuf s.blkLen.toNat) evs s

theorem execLdcal_ignoresHistory : IgnoresHistory execLdcal :=
  withHandle_ignoresHistory fun evs s => by
    have hbegin : beginLoad (s.precededBy evs) = (beginLoad s).precededBy evs := rfl
    simp only [hbegin, readCal_precededBy]
    rcases readCal [] (beginLoad s) calAddresses with _ | _ | _ <;> rfl

theorem compensated_precededBy (res : Word) (resf : DWord) (ovf zdiv sat : Bool) (evs : List Event) (s : State) :
    compensated res resf ovf zdiv sat (s.precededBy evs) = precedeResult evs (compensated res resf ovf zdiv sat s) := rfl

theorem execCmpt_ignoresHistory (msb lsb xsb : Byte) : IgnoresHistory (execCmpt msb lsb xsb) :=
  withCal_ignoresHistory fun evs s => compensated_precededBy _ _ _ _ _ evs
    { s with tf := (fineTemperature s.cal (raw20 msb lsb xsb)).bits, tfValid := true }

theorem execCmph_ignoresHistory (msb lsb : Byte) : IgnoresHistory (execCmph msb lsb) :=
  withCalAndTf_ignoresHistory fun evs s => compensated_precededBy _ _ _ _ _ evs s

theorem execCmpp_ignoresHistory (msb lsb xsb : Byte) : IgnoresHistory (execCmpp msb lsb xsb) :=
  withCalAndTf_ignoresHistory <| ite_ignoresHistory (fun _ _ => Iff.rfl)
    (fun evs s => compensated_precededBy _ _ _ _ _ evs s) fun evs s => compensated_precededBy _ _ _ _ _ evs s

/-- No command reads TH. -/
theorem exec_ignoresHistory (i : Instr) : IgnoresHistory (exec i) := by
  cases i with
  | openBus bus addr => exact execOpen_ignoresHistory bus addr
  | close => exact execClose_ignoresHistory
  | rdb _ | rdw _ | rdws _ => exact withHandle_ignoresHistory (readInto_ignoresHistory _ _ _)
  | wrb _ _ | wrw _ _ | wrc _ => exact withHandle_ignoresHistory (sendBytes_ignoresHistory _)
  | wrblk => exact withHandle_ignoresHistory sendBlock_ignoresHistory
  | ldcal => exact execLdcal_ignoresHistory
  | cmpt msb lsb xsb => exact execCmpt_ignoresHistory msb lsb xsb
  | cmph msb lsb => exact execCmph_ignoresHistory msb lsb
  | cmpp msb lsb xsb => exact execCmpp_ignoresHistory msb lsb xsb

/-- Settles O52: the events put before TH stand before it in the answer, and change nothing else. -/
theorem historyIsNeverRead : Obligations.HistoryIsNeverRead := by
  intro i s evs
  have hexec : exec i { s with th := evs ++ s.th } = precedeResult evs (exec i s) := exec_ignoresHistory i evs s
  exact ⟨fun t h => by rw [hexec, h]; rfl, fun f h => by rw [hexec, h]; rfl⟩

end Sys2Proof.Machine
end

section
/-! O9, O10, O11, O12: one host action, by the register it reaches (20_memory.md R57 to R61). The offsets of the map come first,
then what a read and a write of each register do. -/

namespace Sys2Proof.Machine

/-! ### Which offsets the map lists (R58, R59) -/

theorem portMap_lookup_isSome : ∀ k < 64,
    ((portMap.lookup (4 * k)).isSome = true ↔ 4 * k < 0x028 ∨ (0x040 ≤ 4 * k ∧ 4 * k < 0x088)) := by
  decide

/-- The offsets of R58. -/
theorem portRegAt_isSome_iff {blkMax offset : Nat} (haligned : offset % 4 = 0) :
    (portRegAt blkMax offset).isSome = true ↔
      offset < 0x028 ∨ (0x040 ≤ offset ∧ offset < 0x088) ∨ (0x100 ≤ offset ∧ offset < 0x100 + 4 * blkMax) := by
  by_cases hlow : offset < 0x100
  · have hmap := portMap_lookup_isSome (offset / 4) (by omega)
    rw [show 4 * (offset / 4) = offset by omega] at hmap
    rw [portRegAt_low hlow, hmap]
    omega
  · rw [portRegAt, if_pos (by omega)]
    split
    · simp only [Option.isSome_some, true_iff]; omega
    · simp only [Option.isSome_none, Bool.false_eq_true, false_iff]; omega

theorem portAccess_listed {blkMax offset : Nat} (haligned : offset % 4 = 0)
    (hlisted : offset < 0x028 ∨ (0x040 ≤ offset ∧ offset < 0x088) ∨ (0x100 ≤ offset ∧ offset < 0x100 + 4 * blkMax)) :
    ∃ r, portAccess blkMax offset 32 = .ok r := by
  obtain ⟨r, hr⟩ := Option.isSome_iff_exists.1 ((portRegAt_isSome_iff haligned).2 hlisted)
  exact ⟨r, portAccess_ok haligned hr⟩

theorem portAccess_width {blkMax offset width : Nat} (hwidth : width ≠ 32) :
    portAccess blkMax offset width = .error (.accessWidth width) := by
  rw [portAccess, if_pos hwidth]

theorem portAccess_misaligned {blkMax offset : Nat} (hmis : offset % 4 ≠ 0) :
    portAccess blkMax offset 32 = .error (.accessMisaligned offset) := by
  rw [portAccess, if_neg (by decide), if_pos hmis]

theorem portAccess_unmapped {blkMax offset : Nat} (haligned : offset % 4 = 0)
    (hgap : (0x028 ≤ offset ∧ offset < 0x040) ∨ (0x088 ≤ offset ∧ offset < 0x100) ∨ 0x100 + 4 * blkMax ≤ offset) :
    portAccess blkMax offset 32 = .error (.accessUnmapped offset) := by
  have hnone : portRegAt blkMax offset = none := by
    rw [← Option.not_isSome_iff_eq_none, portRegAt_isSome_iff haligned]
    omega
  simp [portAccess, haligned, hnone]

/-- An access reaches a register of the list, or a byte of BLK_BUF above it. -/
theorem portAccess_mem_portMap {blkMax offset width : Nat} {r : PortReg} (h : portAccess blkMax offset width = .ok r) :
    (offset, r) ∈ portMap ∨ (0x100 ≤ offset ∧ ∃ i, r = .blkBuf i) := by
  obtain ⟨-, -, hreg⟩ := portAccess_eq_ok h
  obtain ⟨-, hmap⟩ | ⟨hge, -, hbuf⟩ := portRegAt_eq_some hreg
  · exact .inl hmap
  · exact .inr ⟨hge, _, hbuf⟩

theorem portAccess_cmd {blkMax offset width : Nat} (h : portAccess blkMax offset width = .ok .cmd) : offset = 0x000 :=
  portMap_cmd ((portAccess_mem_portMap h).resolve_right nofun)

theorem portAccess_of_mem_portMap {blkMax : Nat} {p : Nat × PortReg} (hp : p ∈ portMap) :
    portAccess blkMax p.1 32 = .ok p.2 := by
  have hmap : ∀ p ∈ portMap, p.1 % 4 = 0 ∧ p.1 < 0x100 ∧ portMap.lookup p.1 = some p.2 := by decide
  obtain ⟨haligned, hlow, hlookup⟩ := hmap p hp
  exact portAccess_ok haligned (portRegAt_low hlow ▸ hlookup)

theorem portAccess_blkBuf_offset {blkMax i : Nat} (hi : i < blkMax) :
    portAccess blkMax (0x100 + 4 * i) 32 = .ok (.blkBuf i) :=
  portAccess_ok (by omega) (portRegAt_blkBuf hi)

/-! ### The words of the map (R58) -/

theorem zext32_eq_ofNat {w : Nat} (v : BitVec w) : zext32 v = BitVec.ofNat 32 v.toNat := by
  simp [zext32]

theorem sext32_eq_ofInt {w : Nat} (v : BitVec w) : sext32 v = BitVec.ofInt 32 v.toInt := rfl

theorem resfLo_eq_ofNat (v : DWord) : v.extractLsb' 0 32 = BitVec.ofNat 32 v.toNat := by
  simp [BitVec.extractLsb']

theorem resfHi_eq_ofNat (v : DWord) : v.extractLsb' 32 32 = BitVec.ofNat 32 (v.toNat / 2 ^ 32) := by
  rw [BitVec.extractLsb', Nat.shiftRight_eq_div_pow]

theorem handle_toNat (addr bus : Byte) : (addr ++ bus).toNat = bus.toNat + 256 * addr.toNat := by
  rw [BitVec.toNat_append, Nat.shiftLeft_eq, ← Nat.mul_comm (2 ^ 8),
    ← Nat.two_pow_add_eq_or_of_lt bus.isLt, Nat.add_comm]

theorem statWord_eq_ofNat (s : State) :
    statWord s = BitVec.ofNat 32 (s.hOpen.toNat + 2 * s.calValid.toNat + 4 * s.tfValid.toNat + 8 * s.ovf.toNat
      + 16 * s.zdiv.toNat + 32 * s.sat.toNat + 64 * s.sovf.toNat) := by
  have hbits : ∀ hOpen calValid tfValid ovf zdiv sat sovf : Bool,
      (BitVec.ofBool sovf ++ BitVec.ofBool sat ++ BitVec.ofBool zdiv ++ BitVec.ofBool ovf ++ BitVec.ofBool tfValid
        ++ BitVec.ofBool calValid ++ BitVec.ofBool hOpen).setWidth 32 =
      BitVec.ofNat 32 (hOpen.toNat + 2 * calValid.toNat + 4 * tfValid.toNat + 8 * ovf.toNat + 16 * zdiv.toNat
        + 32 * sat.toNat + 64 * sovf.toNat) := by decide
  exact hbits _ _ _ _ _ _ _

/-! ### What a read and a write of a register do (R58 to R60) -/

theorem step_read {offset : Nat} {r : PortReg} {rest : List HostAction} {s : State} (h : s.host = .read offset 32 :: rest)
    (hr : portAccess s.params.blkMax offset 32 = .ok r) :
    step s = .next { s with host := rest, hostReads := s.hostReads ++ [(offset, portWord s r)] } := by
  have hword : portWord { s with host := rest } r = portWord s r := by cases r <;> rfl
  simp only [step, h, perform, hr, hword]

theorem step_write {offset : Nat} {v : Word} {r : PortReg} {rest : List HostAction} {s : State}
    (h : s.host = .write offset 32 v :: rest) (hr : portAccess s.params.blkMax offset 32 = .ok r) :
    step s = portWrite v { s with host := rest } r := by
  simp only [step, h, perform, hr]

/-- A host access that reaches no register is refused, whether it reads or writes (R59). -/
theorem step_refused {offset width : Nat} {v : Word} {a : HostAction} {e : Refusal} {rest : List HostAction} {s : State}
    (ha : a ∈ [HostAction.write offset width v, HostAction.read offset width]) (h : s.host = a :: rest)
    (he : portAccess s.params.blkMax offset width = .error e) : step s = .refused e := by
  obtain rfl | rfl : a = .write offset width v ∨ a = .read offset width := by simpa using ha
  · simp only [step, h, perform, he]
  · simp only [step, h, perform, he]

theorem portWrite_readOnly {r : PortReg} (hcmd : r ≠ .cmd) (hlen : r ≠ .blkLen) (hbuf : ∀ i, r ≠ .blkBuf i) (v : Word)
    (s : State) : portWrite v s r = .next s := by
  cases r with
  | cmd => exact absurd rfl hcmd
  | blkLen => exact absurd rfl hlen
  | blkBuf i => exact absurd rfl (hbuf i)
  | err | errinfo | res | resfLo | resfHi | stat | tf | handle | cal c => rfl

/-- Only a write to CMD may have no next state. -/
theorem portWrite_next {r : PortReg} (hcmd : r ≠ .cmd) (v : Word) (s : State) : ∃ t, portWrite v s r = .next t := by
  cases r with
  | cmd => exact absurd rfl hcmd
  | blkLen | blkBuf i | err | errinfo | res | resfLo | resfHi | stat | tf | handle | cal c => exact ⟨_, rfl⟩

/-- The offsets of the read-only registers (R58, R60). -/
abbrev ReadOnlyOffset (offset : Nat) : Prop :=
  offset ∈ [0x004, 0x008, 0x00C, 0x010, 0x014, 0x018, 0x01C, 0x024] ∨ (0x040 ≤ offset ∧ offset ≤ 0x084 ∧ offset % 4 = 0)

theorem step_write_readOnly {offset : Nat} {v : Word} {rest : List HostAction} {s : State}
    (h : s.host = .write offset 32 v :: rest) (hro : ReadOnlyOffset offset) : step s = .next { s with host := rest } := by
  simp only [ReadOnlyOffset, List.mem_cons, List.not_mem_nil, or_false] at hro
  obtain ⟨r, hr⟩ := portAccess_listed (blkMax := s.params.blkMax) (offset := offset) (by omega) (by omega)
  rw [step_write h hr]
  have hmap := (portAccess_mem_portMap hr).resolve_right fun ⟨hge, _⟩ => by omega
  refine portWrite_readOnly ?_ ?_ ?_ v _
  · rintro rfl
    have := portMap_cmd hmap
    omega
  · rintro rfl
    have := portMap_blkLen hmap
    omega
  · rintro i rfl
    exact portMap_noBuf hmap

/-! ### No command is refused -/

theorem withHandle_ne_refused {s : State} {k : State → Result} {e : Refusal} (hk : k s ≠ .refused e) :
    withHandle s k ≠ .refused e := by
  rcases withHandle_cases s k with ⟨-, he⟩ | ⟨-, he⟩ <;> rw [he]
  · exact nofun
  · exact hk

theorem sendBytes_ne_refused (bytes : List Byte) (s : State) (e : Refusal) : sendBytes bytes s ≠ .refused e := by
  rcases sendBytes_cases bytes s with ⟨-, he⟩ | ⟨_, -, -, he⟩ | ⟨_, _, -, -, he⟩ <;> rw [he] <;> exact nofun

theorem readInto_ne_refused (reg : Byte) (n : Nat) (f : Nat → Word) (s : State) (e : Refusal) :
    readInto reg n f s ≠ .refused e := by
  rcases readInto_cases reg n f s with ⟨-, he⟩ | ⟨_, _, _, -, -, -, he⟩ | ⟨_, _, -, -, he⟩ | ⟨_, _, _, -, -, -, -, he⟩ <;>
    rw [he] <;> exact nofun

theorem sendBlock_ne_refused (s : State) (e : Refusal) : sendBlock s ≠ .refused e := by
  rcases sendBlock_cases s with ⟨-, he⟩ | ⟨-, he⟩ | ⟨-, -, he⟩ <;> rw [he]
  · exact nofun
  · exact nofun
  · exact sendBytes_ne_refused _ s e

theorem execOpen_ne_refused (bus addr : Byte) (s : State) (e : Refusal) : execOpen bus addr s ≠ .refused e := by
  rcases execOpen_cases bus addr s with ⟨-, he⟩ | ⟨-, -, he⟩ | ⟨-, _, _, -, -, he⟩ | ⟨-, _, _, _, _, -, -, -, -, -, he⟩
    | ⟨-, _, _, -, -, -, -, he⟩ <;> rw [he] <;> exact nofun

theorem execClose_ne_refused (s : State) (e : Refusal) : execClose s ≠ .refused e := by
  rcases execClose_cases s with ⟨-, he⟩ | ⟨-, -, he⟩ | ⟨-, _, -, he⟩ <;> rw [he] <;> exact nofun

theorem finishLoad_ne_refused (c : CalRead) (e : Refusal) : finishLoad c ≠ .refused e := by
  cases c <;> exact nofun

theorem execLdcal_ne_refused (s : State) (e : Refusal) : execLdcal s ≠ .refused e := by
  refine withHandle_ne_refused ?_
  exact finishLoad_ne_refused _ e

theorem compensated_ne_refused (res : Word) (resf : DWord) (ovf zdiv sat : Bool) (s : State) (e : Refusal) :
    compensated res resf ovf zdiv sat s ≠ .refused e := nofun

theorem withCal_ne_refused {s : State} {k : State → Result} {e : Refusal} (hk : k s ≠ .refused e) :
    withCal s k ≠ .refused e := by
  rcases withCal_cases s k with ⟨-, he⟩ | ⟨-, he⟩ <;> rw [he]
  · exact nofun
  · exact hk

theorem withCalAndTf_ne_refused {s : State} {k : State → Result} {e : Refusal} (hk : k s ≠ .refused e) :
    withCalAndTf s k ≠ .refused e := by
  rcases withCalAndTf_cases s k with ⟨-, he⟩ | ⟨-, -, he⟩ <;> rw [he]
  · exact nofun
  · exact hk

theorem execCmpt_ne_refused (msb lsb xsb : Byte) (s : State) (e : Refusal) : execCmpt msb lsb xsb s ≠ .refused e := by
  refine withCal_ne_refused ?_
  exact compensated_ne_refused _ _ _ _ _ _ e

theorem execCmph_ne_refused (msb lsb : Byte) (s : State) (e : Refusal) : execCmph msb lsb s ≠ .refused e := by
  refine withCalAndTf_ne_refused ?_
  exact compensated_ne_refused _ _ _ _ _ _ e

theorem execCmpp_ne_refused (msb lsb xsb : Byte) (s : State) (e : Refusal) : execCmpp msb lsb xsb s ≠ .refused e := by
  refine withCalAndTf_ne_refused ?_
  dsimp only
  split <;> exact compensated_ne_refused _ _ _ _ _ _ e

/-- Every command has a meaning. -/
theorem exec_ne_refused (i : Instr) (s : State) (e : Refusal) : exec i s ≠ .refused e := by
  cases i with
  | openBus bus addr => exact execOpen_ne_refused bus addr s e
  | close => exact execClose_ne_refused s e
  | rdb _ | rdw _ | rdws _ => exact withHandle_ne_refused (readInto_ne_refused _ _ _ s e)
  | wrb _ _ | wrw _ _ | wrc _ => exact withHandle_ne_refused (sendBytes_ne_refused _ s e)
  | wrblk => exact withHandle_ne_refused (sendBlock_ne_refused s e)
  | ldcal => exact execLdcal_ne_refused s e
  | cmpt msb lsb xsb => exact execCmpt_ne_refused msb lsb xsb s e
  | cmph msb lsb => exact execCmph_ne_refused msb lsb s e
  | cmpp msb lsb xsb => exact execCmpp_ne_refused msb lsb xsb s e

theorem issue_ne_refused (w : Word) (s : State) (e : Refusal) : issue w s ≠ .refused e := by
  unfold issue
  split
  · exact exec_ne_refused _ _ e
  · exact nofun

theorem portWrite_ne_refused (v : Word) (s : State) (r : PortReg) (e : Refusal) : portWrite v s r ≠ .refused e := by
  by_cases hcmd : r = .cmd
  · exact hcmd ▸ issue_ne_refused v s e
  · obtain ⟨t, ht⟩ := portWrite_next hcmd v s
    rw [ht]
    exact nofun

/-! ### The statements -/

/-- Settles O9: offset 0 is CMD's. -/
theorem stepRunsTheDecodedCommand : Obligations.StepRunsTheDecodedCommand :=
  fun _ _ _ _ => step_command

/-- Settles O10: the list below 0x100 is `portMap`, each register with the word that a read gives. -/
theorem hostReadsGiveTheMap : Obligations.HostReadsGiveTheMap := by
  intro offset rest s h
  refine ⟨fun v hv => ?_, fun i hi hoffset => ?_⟩
  · have hmap : (offset, v) ∈ portMap.map fun p => (p.1, portWord s p.2) := by
      simpa only [portMap, List.cons_append, List.nil_append, List.map_cons, List.map_nil, portWord, calWord,
        zext32_eq_ofNat, handle_toNat, sext32_eq_ofInt, resfLo_eq_ofNat, resfHi_eq_ofNat, statWord_eq_ofNat] using hv
    obtain ⟨p, hp, hpv⟩ := List.mem_map.1 hmap
    obtain ⟨rfl, rfl⟩ := Prod.mk.inj hpv
    exact step_read h (portAccess_of_mem_portMap hp)
  · subst hoffset
    rw [← zext32_eq_ofNat]
    exact step_read h (portAccess_blkBuf_offset hi)

/-- Settles O11: by the register written; the bytes of BLK_BUF by the laws of `Memory.write`. -/
theorem hostWritesDoWhatTheMapSays : Obligations.HostWritesDoWhatTheMapSays := by
  intro offset v rest s h
  refine ⟨fun hoffset => ?_, fun i hi hoffset hwf => ?_, step_write_readOnly h⟩
  · subst hoffset
    exact step_write h (portAccess_of_mem_portMap (p := (0x020, .blkLen)) (by decide))
  · subst hoffset
    refine ⟨_, step_write h (portAccess_blkBuf_offset hi), Memory.wf_write hwf i _, ?_, fun j hj => Memory.read_write_ne _ _ hj⟩
    rw [Memory.read_write_same hwf]
    exact BitVec.toNat_setWidth 8 v

/-- Settles O12: the refusals by `portAccess`; a listed access reaches a register, which a read only reports and a write either
stores to, ignores, or, at CMD, runs as a command. -/
theorem unlistedAccessesAreRefused : Obligations.UnlistedAccessesAreRefused := by
  intro offset width v rest s
  refine ⟨fun a ha h => ⟨fun hwidth => step_refused ha h (portAccess_width hwidth), ?_, ?_, ?_⟩, step_write_readOnly⟩ <;>
    rintro rfl
  · exact fun hmis => step_refused ha h (portAccess_misaligned hmis)
  · exact fun haligned hgap => step_refused ha h (portAccess_unmapped haligned hgap)
  · intro haligned hlisted
    obtain ⟨r, hr⟩ := portAccess_listed haligned hlisted
    obtain rfl | rfl : a = .write offset 32 v ∨ a = .read offset 32 := by simpa using ha
    · rw [step_write h hr]
      refine ⟨fun hnotCmd => portWrite_next ?_ v _, portWrite_ne_refused v _ r⟩
      rintro rfl
      have hpos : 0 < offset := hnotCmd.resolve_left nofun
      exact hpos.ne' (portAccess_cmd hr)
    · rw [step_read h hr]
      exact ⟨fun _ => ⟨_, rfl⟩, nofun⟩

end Sys2Proof.Machine
end

section
/-! O28: the frame of a command that ends by raise (00_scope.md R11, 20_memory.md R62). -/

namespace Sys2Proof.Machine

theorem CommandEffect.raise_frame {i : Instr} {s t : State} (h : CommandEffect s i t) (herr : t.err ≠ 0) :
    (i ≠ .ldcal → t = { s with err := t.err, errinfo := t.errinfo, th := t.th, calls := t.calls }) ∧
    t = { s with
      err := t.err, errinfo := t.errinfo, th := t.th, calls := t.calls, res := t.res, cal := t.cal,
      calValid := t.calValid, tfValid := t.tfValid } := by
  cases h with
  | opened | closed | loaded | compensated => exact absurd rfl herr
  | reported | busOpenFailed | selectFailed => exact ⟨fun _ => rfl, rfl⟩
  | loadFailed => exact ⟨absurd rfl, rfl⟩
  | @moved _ _ res _ _ _ _ _ _ hres =>
    -- a command that moves bytes writes RES only when it succeeds
    obtain rfl : res = s.res := by_contra fun hne => herr (hres hne).1
    exact ⟨fun _ => rfl, rfl⟩

/-- Settles O28: by the ways a command ends with ERR not 0. -/
theorem raiseWritesNothingElse : Obligations.RaiseWritesNothingElse := by
  intro i s t h herr
  obtain ⟨hframe, hload⟩ := (exec_effect h).raise_frame herr
  exact ⟨hframe, fun _ => hload⟩

end Sys2Proof.Machine
end

section
/-! O7, O8: the assembler (30_encoding.md R72, R73). A line assembles exactly when its operands fit; `Instr.line` is the line that
spells a command. -/

namespace Sys2Proof

/-! ### Lines and the commands they stand for (R72) -/

theorem Asm.wf_iff {a : Asm} : a.wf = true ↔ ∀ o ∈ a.operands, o.2 < 2 ^ o.1 := by
  simp only [Asm.wf, List.all_eq_true, decide_eq_true_eq]

theorem Asm.assemble_eq_some_iff {a : Asm} {i : Instr} : a.assemble = some i ↔ a.wf = true ∧ a.expand = i := by
  simp [Asm.assemble]

theorem Asm.assemble_of_fits {a : Asm} (h : ∀ o ∈ a.operands, o.2 < 2 ^ o.1) : a.assemble = some a.expand :=
  Asm.assemble_eq_some_iff.2 ⟨Asm.wf_iff.2 h, rfl⟩

/-- One operand that does not fit its field is an assembly error. -/
theorem Asm.assemble_eq_none_iff {a : Asm} : a.assemble = none ↔ ∃ o ∈ a.operands, 2 ^ o.1 ≤ o.2 := by
  rw [Asm.assemble, ite_eq_right_iff, imp_iff_not (Option.some_ne_none _), Asm.wf_iff]
  simp only [not_forall, not_lt, exists_prop]

/-- The line that spells a command (R72). -/
def Instr.line : Instr → Asm
  | .openBus bus addr => .openBus bus.toNat addr.toNat
  | .close => .close
  | .rdb reg => .rdb reg.toNat
  | .rdw reg => .rdw reg.toNat
  | .rdws reg => .rdws reg.toNat
  | .wrb reg value => .wrb reg.toNat value.toNat
  | .wrw reg value => .wrw reg.toNat value.toNat
  | .wrc cmd => .wrc cmd.toNat
  | .wrblk => .wrblk
  | .ldcal => .ldcal
  | .cmpt msb lsb xsb => .cmpt msb.toNat lsb.toNat xsb.toNat
  | .cmph msb lsb => .cmph msb.toNat lsb.toNat
  | .cmpp msb lsb xsb => .cmpp msb.toNat lsb.toNat xsb.toNat

theorem Instr.line_operands (i : Instr) : i.line.operands = i.operands := by
  cases i <;> rfl

theorem Instr.expand_line (i : Instr) : i.line.expand = i := by
  cases i <;> simp only [Instr.line, Asm.expand, BitVec.ofNat_toNat, BitVec.setWidth_eq]

theorem Instr.assemble_line (i : Instr) : i.line.assemble = some i := by
  have hfits : ∀ o ∈ i.operands, o.2 < 2 ^ o.1 := by
    simpa only [Instr.wf, List.all_eq_true, decide_eq_true_eq] using Laws.EncodesInItsRow.wf i
  rw [Asm.assemble_of_fits (i.line_operands ▸ hfits), i.expand_line]

/-- Operands that fit reach the command as written; a pseudo-instruction's raw count is split over several instead. -/
theorem Asm.operands_of_assemble {a : Asm} {i : Instr}
    (hplain : ∀ raw, a ≠ .cmpt20 raw ∧ a ≠ .cmpp20 raw ∧ a ≠ .cmph16 raw) (h : a.assemble = some i) :
    i.operands = a.operands := by
  obtain ⟨hwf, rfl⟩ := Asm.assemble_eq_some_iff.1 h
  cases a with
  | cmpt20 raw => exact absurd rfl (hplain raw).1
  | cmpp20 raw => exact absurd rfl (hplain raw).2.1
  | cmph16 raw => exact absurd rfl (hplain raw).2.2
  | close | wrblk | ldcal => rfl
  | openBus _ _ | rdb _ | rdw _ | rdws _ | wrb _ _ | wrw _ _ | wrc _ | cmpt _ _ _ | cmph _ _ | cmpp _ _ _ =>
    simp only [Asm.wf, Asm.operands, List.all_cons, List.all_nil, Bool.and_true, Bool.and_eq_true,
      decide_eq_true_eq] at hwf
    simp only [Asm.expand, Instr.operands, Asm.operands, BitVec.toNat_ofNat, Nat.mod_eq_of_lt, hwf]

/-! ### Lines and the host actions they become (R72) -/

theorem AsmLine.action_of_not_wf {l : AsmLine} (h : l.wf = false) : l.action = none :=
  if_neg (Bool.eq_false_iff.1 h)

theorem AsmLine.action_command {a : Asm} {i : Instr} (h : a.assemble = some i) :
    (AsmLine.command a).action = some (.write 0x000 32 (encode i)) := by
  obtain ⟨hwf, rfl⟩ := Asm.assemble_eq_some_iff.1 h
  exact if_pos hwf

theorem AsmLine.action_hw_toNat (offset : Nat) (w : Word) :
    (AsmLine.hw offset w.toNat).action = some (.write offset 32 w) := by
  have hwf : (AsmLine.hw offset w.toNat).wf = true := decide_eq_true w.isLt
  rw [AsmLine.action, if_pos hwf, BitVec.ofNat_toNat, BitVec.setWidth_eq]

/-! ### The statements -/

/-- Settles O8: operands out of their fields by `Asm.assemble_eq_none_iff`, operands in their fields by the command's own line. -/
theorem assemblerNeverTruncates : Obligations.AssemblerNeverTruncates := by
  refine ⟨fun bus addr h => ?_, fun reg h => ⟨?_, ?_, ?_⟩, fun reg value h => ?_, fun reg value h => ?_, fun byte h => ?_,
    fun msb lsb xsb h => ⟨?_, ?_⟩, fun msb lsb h => ?_,
    fun a b c v => ⟨(Instr.openBus a b).assemble_line, Instr.close.assemble_line, (Instr.rdb a).assemble_line,
      (Instr.rdw a).assemble_line, (Instr.rdws a).assemble_line, (Instr.wrb a b).assemble_line, (Instr.wrw a v).assemble_line,
      (Instr.wrc a).assemble_line, Instr.wrblk.assemble_line, Instr.ldcal.assemble_line, (Instr.cmpt a b c).assemble_line,
      (Instr.cmph a b).assemble_line, (Instr.cmpp a b c).assemble_line⟩,
    fun a i hplain h => Asm.operands_of_assemble hplain h,
    fun a hwf => ⟨if_neg (Bool.eq_false_iff.1 hwf), AsmLine.action_of_not_wf hwf⟩,
    fun offset value h => AsmLine.action_of_not_wf (decide_eq_false (Nat.not_lt.2 h)),
    AsmLine.action_hw_toNat, fun _ => rfl,
    fun a i h => ⟨AsmLine.action_command h, (AsmLine.action_command h).trans (AsmLine.action_hw_toNat _ _).symm⟩⟩
  all_goals exact Asm.assemble_eq_none_iff.2 (by simpa [Asm.operands] using h)

end Sys2Proof

namespace Sys2Proof.Machine

/-- A byte's number, from a number that fits. -/
theorem toNat_byte {n : Nat} (h : n < 256) : (BitVec.ofNat 8 n).toNat = n := by
  rw [BitVec.toNat_ofNat, Nat.mod_eq_of_lt h]

/-- Settles O7: the raw count's digits in base 16 and 256 fit their bytes, and the number is the sum of its digits. -/
theorem pseudoInstructionsKeepTheRawCount : Obligations.PseudoInstructionsKeepTheRawCount := by
  refine ⟨fun raw h => ?_, fun raw h => ?_, fun raw h => ?_, fun raw h => ?_, by decide⟩
  · have hm : (BitVec.ofNat 8 (raw / 4096)).toNat = raw / 4096 := toNat_byte (by omega)
    have hl : (BitVec.ofNat 8 (raw / 16 % 256)).toNat = raw / 16 % 256 := toNat_byte (by omega)
    have hx : (BitVec.ofNat 8 (raw % 16 * 16)).toNat = raw % 16 * 16 := toNat_byte (by omega)
    refine ⟨_, _, _, hm, hl, hx, ?_, Asm.assemble_of_fits (List.forall_mem_singleton.2 h),
      Asm.assemble_of_fits (List.forall_mem_singleton.2 h)⟩
    rw [raw20, hm, hl, hx]
    omega
  · have hm : (BitVec.ofNat 8 (raw / 256)).toNat = raw / 256 := toNat_byte (by omega)
    have hl : (BitVec.ofNat 8 (raw % 256)).toNat = raw % 256 := toNat_byte (by omega)
    refine ⟨_, _, hm, hl, ?_, Asm.assemble_of_fits (List.forall_mem_singleton.2 h)⟩
    rw [raw16, hm, hl]
    omega
  · exact ⟨Asm.assemble_eq_none_iff.2 ⟨_, List.mem_singleton.2 rfl, h⟩,
      Asm.assemble_eq_none_iff.2 ⟨_, List.mem_singleton.2 rfl, h⟩⟩
  · exact Asm.assemble_eq_none_iff.2 ⟨_, List.mem_singleton.2 rfl, h⟩

end Sys2Proof.Machine
end

section
/-! O1 to O6: the decoder and the encoding (30_encoding.md R63 to R74). `decode` and `encode` are inverse, and the encodings are
just the words that show the fixed bits of a row of the opcode map; every statement but the decoder's case list follows. -/

namespace Sys2Proof

/-! ### Words by their fields (R64) -/

theorem exists_commandWord (w : Word) : ∃ o a b c, commandWord o a b c = w :=
  ⟨_, _, _, _, commandWord_fields w⟩

theorem word_eq_iff {w v : Word} :
    w = v ↔ Word.opc w = Word.opc v ∧ Word.fieldA w = Word.fieldA v ∧ Word.fieldB w = Word.fieldB v
      ∧ Word.fieldC w = Word.fieldC v := by
  constructor
  · rintro rfl
    exact ⟨rfl, rfl, rfl, rfl⟩
  · rintro ⟨ho, ha, hb, hc⟩
    rw [← commandWord_fields w, ho, ha, hb, hc, commandWord_fields]

theorem byte_eq_ofNat {o : Byte} {n : Nat} (h : o.toNat = n) : o = BitVec.ofNat 8 n := by
  rw [← h, BitVec.ofNat_toNat, BitVec.setWidth_eq]

/-! ### The decoder inverts the encoder (R70, R74) -/

/-- WRW's value is fields B and C. -/
theorem encode_wrw_append (a b c : Byte) : encode (.wrw a (b ++ c)) = commandWord 0x19 a b c := by
  rw [encode, BitVec.extractLsb'_append_eq_left, BitVec.extractLsb'_append_eq_right]

theorem decode_encode (i : Instr) : decode (encode i) = .ok i := by
  cases i with
  | wrw reg value =>
    simp only [decode, encode, opc_commandWord, fieldA_commandWord, fieldB_commandWord, fieldC_commandWord, half_bytes]
    rfl
  | openBus _ _ | close | rdb _ | rdw _ | rdws _ | wrb _ _ | wrc _ | wrblk | ldcal | cmpt _ _ _ | cmph _ _ | cmpp _ _ _ =>
    simp only [decode, encode, opc_commandWord, fieldA_commandWord, fieldB_commandWord, fieldC_commandWord]
    rfl

/-- The opcode and the reserved fields, which the decoder compares, and the operands are all of the word. -/
theorem encode_of_decode {w : Word} {i : Instr} (h : decode w = .ok i) : encode i = w := by
  obtain ⟨o, a, b, c, rfl⟩ := exists_commandWord w
  simp only [decode, opc_commandWord, fieldA_commandWord, fieldB_commandWord, fieldC_commandWord] at h
  split at h
  case h_14 => cases h
  all_goals
    rename_i ho
    obtain rfl := byte_eq_ofNat ho
  case h_7 => cases h; exact encode_wrw_append a b c
  case h_11 | h_13 => cases h; rfl
  -- the rest are the rows with a reserved field
  all_goals
    simp only [decodeReserved_ok, Bool.and_eq_true, beq_iff_eq] at h
    obtain ⟨hzero, rfl⟩ := h
    rw [encode]
    simp only [hzero]
    rfl

/-- The opcodes of the map (R65). -/
abbrev assignedOpcodes : List Byte :=
  [0x01#8, 0x02#8, 0x10#8, 0x11#8, 0x12#8, 0x18#8, 0x19#8, 0x1A#8, 0x1B#8, 0x20#8, 0x30#8, 0x31#8, 0x32#8]

/-- The decoder knows no other opcode (R67). -/
theorem opc_of_decode_ne {w : Word} (h : decode w ≠ .error .unassignedOpcode) : Word.opc w ∈ assignedOpcodes := by
  simp only [decode] at h
  split at h
  case h_14 => exact absurd rfl h
  all_goals
    rename_i ho
    rw [byte_eq_ofNat ho]
    decide

theorem encode_injective : Function.Injective encode :=
  fun i j h => Except.ok.inj (by rw [← decode_encode i, h, decode_encode])

/-! ### The opcode map (R65, R68) -/

theorem encodesInItsRow (i : Instr) : Laws.EncodesInItsRow.Statement i := by
  cases i with
  | openBus bus addr => exact Laws.EncodesInItsRow.openBus bus addr
  | close => exact Laws.EncodesInItsRow.close
  | rdb reg => exact Laws.EncodesInItsRow.rdb reg
  | rdw reg => exact Laws.EncodesInItsRow.rdw reg
  | rdws reg => exact Laws.EncodesInItsRow.rdws reg
  | wrb reg value => exact Laws.EncodesInItsRow.wrb reg value
  | wrw reg value => exact Laws.EncodesInItsRow.wrw reg value
  | wrc cmd => exact Laws.EncodesInItsRow.wrc cmd
  | wrblk => exact Laws.EncodesInItsRow.wrblk
  | ldcal => exact Laws.EncodesInItsRow.ldcal
  | cmpt msb lsb xsb => exact Laws.EncodesInItsRow.cmpt msb lsb xsb
  | cmph msb lsb => exact Laws.EncodesInItsRow.cmph msb lsb
  | cmpp msb lsb xsb => exact Laws.EncodesInItsRow.cmpp msb lsb xsb

/-- The mask and the pattern, field by field. -/
theorem covers_iff_fits {r : OpcodeRow} (hr : r ∈ opcodeMap) {w : Word} : r.covers w = true ↔ r.fits w := by
  have hmask : ∀ r ∈ opcodeMap, Word.opc r.mask = BitVec.allOnes 8 := by decide
  have hopc : Word.opc w &&& Word.opc r.mask = Word.opc w := by rw [hmask r hr, BitVec.and_allOnes]
  rw [OpcodeRow.covers, beq_iff_eq, word_eq_iff, OpcodeRow.fits, ← hopc]
  simp only [Word.opc, Word.fieldA, Word.fieldB, Word.fieldC, BitVec.extractLsb'_and]

/-- No two rows share an opcode. -/
theorem row_eq_of_opc {r r' : OpcodeRow} (hr : r ∈ opcodeMap) (hr' : r' ∈ opcodeMap)
    (h : Word.opc r.pattern = Word.opc r'.pattern) : r = r' := by
  have hrows : ∀ r ∈ opcodeMap, ∀ r' ∈ opcodeMap, Word.opc r.pattern = Word.opc r'.pattern → r = r' := by decide
  exact hrows r hr r' hr' h

theorem opc_of_covers {r : OpcodeRow} (hr : r ∈ opcodeMap) {w : Word} (h : r.covers w = true) :
    Word.opc w = Word.opc r.pattern :=
  ((covers_iff_fits hr).1 h).1

theorem exists_row_of_decode {w : Word} {i : Instr} (h : decode w = .ok i) :
    ∃ r ∈ opcodeMap, r.mnemonic = i.mnemonic ∧ r.covers w = true := by
  obtain ⟨-, r, hr, hname, hfits⟩ := encodesInItsRow i
  exact ⟨r, hr, hname, (covers_iff_fits hr).2 (encode_of_decode h ▸ hfits)⟩

/-- A word that shows a row's fixed bits is the encoding of the row's command with the other fields as operands. -/
theorem exists_encode_of_fits {r : OpcodeRow} (hr : r ∈ opcodeMap) {w : Word} (h : r.fits w) : ∃ i, encode i = w := by
  have hmask : ∀ x : Byte, x &&& 0xFF#8 = x := fun _ => BitVec.and_allOnes
  obtain ⟨o, a, b, c, rfl⟩ := exists_commandWord w
  simp only [OpcodeRow.fits, opc_commandWord, fieldA_commandWord, fieldB_commandWord, fieldC_commandWord] at h
  simp only [opcodeMap, List.mem_cons, List.not_mem_nil, or_false] at hr
  obtain rfl | rfl | rfl | rfl | rfl | rfl | rfl | rfl | rfl | rfl | rfl | rfl | rfl := hr <;>
    simp only [Word.opc, Word.fieldA, Word.fieldB, Word.fieldC, BitVec.ofNat_eq_ofNat, BitVec.reduceExtractLsb', hmask,
      BitVec.and_zero, true_and, and_true] at h
  · exact ⟨.openBus a b, by simp [encode, h]⟩
  · exact ⟨.close, by simp [encode, h]⟩
  · exact ⟨.rdb a, by simp [encode, h]⟩
  · exact ⟨.rdw a, by simp [encode, h]⟩
  · exact ⟨.rdws a, by simp [encode, h]⟩
  · exact ⟨.wrb a b, by simp [encode, h]⟩
  · exact ⟨.wrw a (b ++ c), by rw [h]; exact encode_wrw_append a b c⟩
  · exact ⟨.wrc a, by simp [encode, h]⟩
  · exact ⟨.wrblk, by simp [encode, h]⟩
  · exact ⟨.ldcal, by simp [encode, h]⟩
  · exact ⟨.cmpt a b c, by simp [encode, h]⟩
  · exact ⟨.cmph a b, by simp [encode, h]⟩
  · exact ⟨.cmpp a b c, by simp [encode, h]⟩

theorem exists_decode_of_covers {r : OpcodeRow} (hr : r ∈ opcodeMap) {w : Word} (h : r.covers w = true) :
    ∃ i, decode w = .ok i := by
  obtain ⟨i, rfl⟩ := exists_encode_of_fits hr ((covers_iff_fits hr).1 h)
  exact ⟨i, decode_encode i⟩

/-! ### The statements -/

/-- Settles O1: `decode` inverts `encode`, and `Instr.line` spells each command. -/
theorem decodeOfEncodeIsTheCommand : Obligations.DecodeOfEncodeIsTheCommand := by
  refine ⟨fun w => ?_, fun _ i _ => decode_encode i, fun i => ⟨i.line, i.assemble_line⟩, fun _ _ h => encode_injective h⟩
  cases h : decode w with
  | ok i => exact .inl ⟨i, rfl, fun j hj => (Except.ok.inj hj).symm⟩
  | error e => exact .inr ⟨e, rfl⟩

/-- Settles O2. -/
theorem legalWordIsItsEncoding : Obligations.LegalWordIsItsEncoding :=
  fun _ _ => encode_of_decode

/-- Settles O3: a command's own row covers its word, and rows that cover one word share its opcode. -/
theorem wordMatchesOneRowOrIsIllegal : Obligations.WordMatchesOneRowOrIsIllegal := by
  intro w
  cases h : decode w with
  | ok i =>
    obtain ⟨r, hr, hname, hcovers⟩ := exists_row_of_decode h
    refine .inl ⟨i, r, hr, rfl, hname.symm, hcovers, fun r' hr' hcovers' => ?_⟩
    exact row_eq_of_opc hr' hr ((opc_of_covers hr' hcovers').symm.trans (opc_of_covers hr hcovers))
  | error e =>
    refine .inr ⟨⟨e, rfl⟩, fun r hr => Bool.eq_false_iff.2 fun hcovers => ?_⟩
    obtain ⟨i, hi⟩ := exists_decode_of_covers hr hcovers
    exact nomatch h.symm.trans hi

/-- Settles O4: the decoder runs on the word's fields, which are the ones it is made of. -/
theorem decoderFollowsTheOpcodeMap : Obligations.DecoderFollowsTheOpcodeMap := by
  intro a b c
  have hvalue : BitVec.ofNat 16 (b.toNat * 256 + c.toNat) = b ++ c := by
    rw [Nat.mul_comm, Nat.add_comm, ← Machine.handle_toNat, BitVec.ofNat_toNat, BitVec.setWidth_eq]
  have hother : ∀ o : Byte, o ∉ assignedOpcodes → decode (commandWord o a b c) = .error .unassignedOpcode :=
    fun o ho => by_contra fun hne => ho (opc_commandWord o a b c ▸ opc_of_decode_ne hne)
  rw [hvalue]
  refine ⟨?_, ?_, ?_, ?_, ?_, ?_, ?_, ?_, ?_, ?_, ?_, ?_, ?_, hother⟩ <;>
    simp only [decode, decodeReserved, opc_commandWord, fieldA_commandWord, fieldB_commandWord, fieldC_commandWord,
      Bool.and_eq_true, beq_iff_eq, and_assoc] <;> rfl

/-- Settles O6, by running the decoder on each word. -/
theorem specWordsDecode : Obligations.SpecWordsDecode := by
  unfold Obligations.SpecWordsDecode
  decide

end Sys2Proof

namespace Sys2Proof.Machine

/-- R66, R67: the step of a word that does not decode. -/
theorem step_illegal {w : Word} {e : Reject} {rest : List HostAction} {s : State}
    (h : s.host = .write 0x000 32 w :: rest) (hd : decode w = .error e) :
    step s = .next { s with host := rest, cmdLast := w, err := 8, errinfo := 0 } := by
  rw [step_write h (portAccess_of_mem_portMap (p := (0x000, .cmd)) (by decide))]
  simp only [portWrite, issue, hd]
  rfl

/-- Settles O5: a word that decoded would show the fixed bits of a row with its opcode, its only one. -/
theorem illegalCommandOnlyReports : Obligations.IllegalCommandOnlyReports := by
  intro w rest s h
  rcases hd : decode w with e | i
  · exact ⟨fun _ _ _ _ => step_illegal h hd, fun _ => step_illegal h hd⟩
  · obtain ⟨r, hr, -, hcovers⟩ := exists_row_of_decode hd
    have hopc := opc_of_covers hr hcovers
    refine ⟨fun r' hr' hopc' hnot => ?_, fun hnone => absurd hopc (hnone r hr)⟩
    obtain rfl := row_eq_of_opc hr hr' (hopc.symm.trans hopc')
    exact absurd hcovers (Bool.eq_false_iff.1 hnot)

end Sys2Proof.Machine
end

section
/-! O14 to O24: the transaction commands (40_transaction.md R75 to R86). A write command is a handle check before one BusWrite, a
read command a handle check before one MemRead; the clauses their statements share are proved once for each of the two shapes. -/

namespace Sys2Proof.Machine

/-! ### The handle check, a write and a read (R75, R76) -/

section
variable {s : State} {c : FailCode} {bytes : List Byte}

theorem sendBytes_fails (h : s.callFails 0 c) :
    sendBytes bytes s = .next { s.after [.write bytes (.fail c)] with err := 4, errinfo := c.code } := by
  rw [sendBytes, busWrite, busCall_fails h]
  rfl

theorem sendBytes_ok (h : s.callOk 0) :
    sendBytes bytes s = .next { s.after [.write bytes .ok] with err := 0, errinfo := 0 } := by
  rw [sendBytes, busWrite, busCall_ok h]
  rfl

variable {reg : Byte} {n : Nat} {f : Nat → Word}

theorem readInto_writeFails (h : s.callFails 0 c) :
    readInto reg n f s = .next { s.after [.write [reg] (.fail c)] with err := 4, errinfo := c.code } := by
  rw [readInto, memRead_writeFails h]
  rfl

theorem readInto_readFails (h0 : s.callOk 0) (h : s.callFails 1 c) :
    readInto reg n f s =
      .next { s.after [.write [reg] .ok, .read n (.fail c)] with err := 4, errinfo := c.code } := by
  rw [readInto, memRead_readFails h0 h, called_eq_after, called_eq_after, after_after]
  rfl

theorem readInto_ok {b0 b1 : Byte} (h0 : s.callOk 0) (h : s.draw 1 = .returns (.ok b0 b1)) :
    readInto reg n f s =
      .next { s.after [.write [reg] .ok, .read n (.ok ([b0, b1].take n))] with
        res := f (bigEndian ([b0, b1].take n)), err := 0, errinfo := 0 } := by
  rw [readInto, memRead_ok h0 h, called_eq_after, called_eq_after, after_after]
  rfl

/-- The handle check's report (R75). -/
theorem withHandle_reports (h : s.hOpen = false) (k : State → Result) :
    withHandle s k = .next { s with err := 1, errinfo := 0 } :=
  withHandle_closed h k

end

/-- A transfer of fewer bytes than asked fails with SHORT_CODE (R4, R10). -/
theorem callFails_short {s : State} {i : Nat} (h : s.draw i = .returns .short) : s.callFails i Config.shortCode :=
  .inr ⟨h, rfl⟩

/-- The cases of a write command that sends `bytes` (R83 to R85). -/
theorem writeCommand_cases (bytes : List Byte) (s : State) :
    (s.hOpen = false → withHandle s (sendBytes bytes) = .next { s with err := 1, errinfo := 0 }) ∧
    (∀ c, s.hOpen = true → s.callFails 0 c →
      withHandle s (sendBytes bytes) = .next { s.after [.write bytes (.fail c)] with err := 4, errinfo := c.code }) ∧
    (s.hOpen = true → s.callOk 0 →
      withHandle s (sendBytes bytes) = .next { s.after [.write bytes .ok] with err := 0, errinfo := 0 }) :=
  ⟨fun h => withHandle_reports h _,
    fun _ h hfail => (withHandle_open h _).trans (sendBytes_fails hfail),
    fun h hok => (withHandle_open h _).trans (sendBytes_ok hok)⟩

/-- The error cases of a read command (R80 to R82). -/
theorem readCommand_errors (reg : Byte) (n : Nat) (f : Nat → Word) (s : State) :
    (s.hOpen = false → withHandle s (readInto reg n f) = .next { s with err := 1, errinfo := 0 }) ∧
    (∀ c, s.hOpen = true → s.callFails 0 c →
      withHandle s (readInto reg n f) =
        .next { s.after [.write [reg] (.fail c)] with err := 4, errinfo := c.code }) ∧
    (∀ c, s.hOpen = true → s.callOk 0 → s.callFails 1 c →
      withHandle s (readInto reg n f) =
        .next { s.after [.write [reg] .ok, .read n (.fail c)] with err := 4, errinfo := c.code }) :=
  ⟨fun h => withHandle_reports h _,
    fun _ h hfail => (withHandle_open h _).trans (readInto_writeFails hfail),
    fun _ h hok hfail => (withHandle_open h _).trans (readInto_readFails hok hfail)⟩

/-- A short reply is one of those error cases: TransportError(SHORT_CODE), RES unchanged (R81). -/
theorem readCommand_short {reg : Byte} {n : Nat} {f : Nat → Word} {s : State} (hopen : s.hOpen = true)
    (h0 : s.callOk 0) (h : s.draw 1 = .returns .short) :
    ∃ t, withHandle s (readInto reg n f) = .next t ∧ t.err = 4 ∧ t.errinfo = 0xFFFFFFFF ∧ t.res = s.res :=
  ⟨_, (withHandle_open hopen _).trans (readInto_readFails h0 (callFails_short h)), rfl, rfl, rfl⟩

/-! ### Bytes and words (R7, R46, R47) -/

theorem bigEndian_one (b : Byte) : bigEndian [b] = b.toNat := by simp [bigEndian]

theorem bigEndian_two (b0 b1 : Byte) : bigEndian [b0, b1] = b0.toNat * 256 + b1.toNat := by simp [bigEndian]

theorem zext32_ofNat {w n : Nat} (h : n < 2 ^ w) : zext32 (BitVec.ofNat w n) = BitVec.ofNat 32 n := by
  rw [zext32, ← BitVec.ofNat_toNat, BitVec.toNat_ofNat, Nat.mod_eq_of_lt h]

/-- The sign of a big-endian word is the top bit of its first byte (R82). -/
theorem toInt_bigEndian_two (b0 b1 : Byte) :
    (BitVec.ofNat 16 (b0.toNat * 256 + b1.toNat)).toInt =
      if b0.toNat < 128 then (b0.toNat * 256 + b1.toNat : Int) else (b0.toNat * 256 + b1.toNat : Int) - 65536 := by
  have h0 := b0.isLt
  have h1 := b1.isLt
  rw [BitVec.toInt_eq_toNat_cond, BitVec.toNat_ofNat, Nat.mod_eq_of_lt (by omega)]
  split <;> split <;> omega

theorem eq_append_of_toNat {v : Half} {hi lo : Byte} (h : v.toNat = hi.toNat * 256 + lo.toNat) : v = hi ++ lo := by
  apply BitVec.eq_of_toNat_eq
  rw [h, handle_toNat, Nat.mul_comm, Nat.add_comm]

theorem wordWriteBytes_append (reg hi lo : Byte) : wordWriteBytes reg (hi ++ lo) = [reg, hi, lo] := by
  rw [wordWriteBytes, highByte, lowByte, BitVec.extractLsb'_append_eq_left, BitVec.extractLsb'_append_eq_right]

/-! ### OPEN (R78) -/

section
variable {s : State} {c : FailCode} {bus addr : Byte}

theorem execOpen_whenOpen (h : s.hOpen = true) :
    execOpen bus addr s = .next { s with err := 1, errinfo := 0 } := by
  rw [execOpen, if_pos h]
  rfl

theorem execOpen_busFails (hclosed : s.hOpen = false) (h : s.callFails 0 c) :
    execOpen bus addr s = .next { s.after [.open_ bus (.fail c)] with err := 2, errinfo := c.code } := by
  simp only [execOpen, hclosed, busOpen, busCall_fails h]
  rfl

/-- After a BusOpen that succeeds, the rest of OPEN is the select. -/
theorem execOpen_selects (hclosed : s.hOpen = false) (h : s.callOk 0) :
    execOpen bus addr s =
      (busSelect addr (s.called (.open_ bus .ok))).finish openCleanUp fun _ s' => openHandle bus addr s' := by
  simp only [execOpen, hclosed, busOpen, busCall_ok h]
  rfl

theorem execOpen_selectFails {a : Answer} (hclosed : s.hOpen = false) (h0 : s.callOk 0) (h1 : s.callFails 1 c)
    (h2 : s.draw 2 = .returns a) :
    execOpen bus addr s =
      .next { s.after [.open_ bus .ok, .select addr (.fail c), .close] with err := 3, errinfo := c.code } := by
  have hselect : (s.called (.open_ bus .ok)).callFails 0 c := (callFails_called ..).2 h1
  have hclose : ((s.called (.open_ bus .ok)).called (.select addr (.fail c))).draw 0 = .returns a := by simpa using h2
  rw [execOpen_selects hclosed h0, busSelect, busCall_fails hselect, finish_fail, openCleanUp, busClose, hclose]
  simp only [called_eq_after, after_after]
  rfl

theorem execOpen_ok (hclosed : s.hOpen = false) (h0 : s.callOk 0) (h1 : s.callOk 1) :
    execOpen bus addr s =
      .next { s.after [.open_ bus .ok, .select addr .ok] with
        hOpen := true, hBus := bus, hAddr := addr, hTx := .live, err := 0, errinfo := 0 } := by
  have hselect : (s.called (.open_ bus .ok)).callOk 0 := (callOk_called ..).2 h1
  rw [execOpen_selects hclosed h0, busSelect, busCall_ok hselect, finish_ok, called_eq_after, called_eq_after, after_after]
  rfl

/-- The code by which OPEN refuses an open handle is that of no other end of it (R75, R78). -/
theorem execOpen_err_eq_one_iff {t : State} (h : execOpen bus addr s = .next t) : t.err = 1 ↔ s.hOpen = true := by
  rcases execOpen_cases bus addr s with ⟨hopen, he⟩ | ⟨-, -, he⟩ | ⟨hclosed, _, _, -, -, he⟩
    | ⟨hclosed, _, _, _, _, -, -, -, -, -, he⟩ | ⟨hclosed, _, _, -, -, -, -, he⟩ <;> rw [he] at h <;> cases h
  · exact iff_of_true rfl hopen
  all_goals exact iff_of_false (by simp [ErrCode.code]) (by simp [hclosed])

end

/-! ### CLOSE (R79) -/

theorem execClose_whenClosed {s : State} (h : s.hOpen = false) :
    execClose s = .next { s with err := 0, errinfo := 0 } := by
  rw [execClose, if_neg (by simp [h])]
  rfl

theorem execClose_releases {s : State} {a : Answer} (hopen : s.hOpen = true) (h : s.draw 0 = .returns a) :
    execClose s =
      .next { s.after [.close] with hOpen := false, hTx := .none, err := 0, errinfo := 0 } := by
  simp only [execClose, hopen, busClose, h]
  rfl

/-! ### The length of WRBLK (R86) -/

theorem sendBlock_badLength {s : State} (h : s.blkLen.toInt < 0 ∨ (s.params.blkMax : Int) < s.blkLen.toInt) :
    sendBlock s = .next { s with err := 1, errinfo := 0 } := by
  rcases sendBlock_cases s with ⟨-, he⟩ | ⟨h0, he⟩ | ⟨hpos, hmax, -⟩
  · exact he
  · omega
  · omega

theorem sendBlock_empty {s : State} (h : s.blkLen.toInt = 0) :
    sendBlock s = .next { s with err := 0, errinfo := 0 } := by
  rcases sendBlock_cases s with ⟨hbad, -⟩ | ⟨-, he⟩ | ⟨hpos, -, -⟩
  · omega
  · exact he
  · omega

theorem sendBlock_eq_sendBytes {s : State} {n : Nat} (h : s.blkLen.toInt = n) (hpos : 0 < n) (hmax : n ≤ s.params.blkMax) :
    sendBlock s = sendBytes ((List.range n).map (Memory.read s.blkBuf)) s := by
  have hn : s.blkLen.toNat = n := by
    rw [BitVec.toInt_eq_toNat_cond] at h
    split at h <;> omega
  rcases sendBlock_cases s with ⟨hbad, -⟩ | ⟨h0, -⟩ | ⟨-, -, he⟩
  · omega
  · omega
  · rw [he, hn, blockBytes]

/-! ### What a transaction command writes (R75, R77) -/

theorem exec_transfer_closed {i : Instr} {s : State}
    (hi : i.mnemonic ∈ ["RDB", "RDW", "RDWS", "WRB", "WRW", "WRC", "WRBLK"]) (h : s.hOpen = false) :
    exec i s = .next { s with err := 1, errinfo := 0 } := by
  cases i with
  | rdb _ | rdw _ | rdws _ | wrb _ _ | wrw _ _ | wrc _ | wrblk => exact withHandle_reports h _
  | openBus _ _ | close | ldcal | cmpt _ _ _ | cmph _ _ | cmpp _ _ _ => simp [Instr.mnemonic] at hi

/-- The commands of 40_transaction.md (R77). -/
abbrev transactions : List String := ["OPEN", "CLOSE", "RDB", "RDW", "RDWS", "WRB", "WRW", "WRC", "WRBLK"]

theorem not_compensation_of_transaction {m : String} (h : m ∈ transactions) : m ∉ ["CMPT", "CMPH", "CMPP"] := by
  revert h; revert m; decide

/-- Of the commands that write RES (R25), only the reads are transactions. -/
theorem read_of_transaction {m : String} (h : m ∈ transactions)
    (hres : m ∈ ["RDB", "RDW", "RDWS", "LDCAL", "CMPT", "CMPH", "CMPP"]) : m ∈ ["RDB", "RDW", "RDWS"] := by
  revert hres; revert h; revert m; decide

namespace CommandEffect

variable {i : Instr} {s t : State}

theorem transaction_frame (h : CommandEffect s i t)
    (hi : i.mnemonic ∈ transactions) :
    t = { s with
      err := t.err, errinfo := t.errinfo, th := t.th, calls := t.calls, res := t.res,
      hOpen := t.hOpen, hBus := t.hBus, hAddr := t.hAddr, hTx := t.hTx } := by
  cases h with
  | loaded | loadFailed => simp [Instr.mnemonic] at hi
  | compensated hcomp =>
    exact absurd hcomp (not_compensation_of_transaction hi)
  | _ => rfl

/-- A report with no error carries no code (R28). -/
theorem errinfo_of_ok (h : CommandEffect s i t) (hok : t.err = 0) : t.errinfo = 0 := by
  cases h with
  | busOpenFailed | selectFailed | loadFailed => exact absurd hok (by simp [ErrCode.code])
  | moved _ _ _ hrep =>
    obtain rfl := hok
    obtain ⟨-, hcarries⟩ := hrep
    exact not_not.1 fun hne => absurd (hcarries.1 hne) (by decide)
  | _ => rfl

theorem transaction_res (h : CommandEffect s i t) (hi : i.mnemonic ∈ transactions)
    (hread : i.mnemonic ∉ ["RDB", "RDW", "RDWS"]) : t.res = s.res :=
  by_contra fun hne => hread (read_of_transaction hi (h.res_only_by_results hne))

theorem keeps_handle (h : CommandEffect s i t) (hi : i.mnemonic ∉ ["OPEN", "CLOSE"]) :
    t.hOpen = s.hOpen ∧ t.hBus = s.hBus ∧ t.hAddr = s.hAddr ∧ t.hTx = s.hTx := by
  have hlive : t.hOpen = s.hOpen ∧ t.hTx = s.hTx :=
    by_contra fun hne => hi (h.handle_only_by_open_close (not_and_or.1 hne))
  have hnumbers : t.hBus = s.hBus ∧ t.hAddr = s.hAddr :=
    by_contra fun hne => hi (List.mem_append_left ["CLOSE"] (h.handleNumbers_only_by_open (not_and_or.1 hne)).1)
  exact ⟨hlive.1, hnumbers.1, hnumbers.2, hlive.2⟩

end CommandEffect

/-! ### The statements -/

/-- Settles O14: one lemma for each way OPEN ends. -/
theorem openSelectsTheSlave : Obligations.OpenSelectsTheSlave :=
  fun _ _ _ => ⟨rfl, execOpen_whenOpen, fun _ => execOpen_busFails, fun _ _ => execOpen_selectFails, execOpen_ok⟩

/-- Settles O15: whatever BusClose answers, CLOSE goes on. -/
theorem closeReleasesOnce : Obligations.CloseReleasesOnce :=
  fun _ => ⟨rfl, execClose_whenClosed, fun _ => execClose_releases⟩

/-- Settles O16: RES is the reply's first byte, which fits in 8 bits. -/
theorem readByteCommand : Obligations.ReadByteCommand := by
  intro reg s
  obtain ⟨hclosed, hwrite, hread⟩ := readCommand_errors reg 1 (fun v => zext32 (BitVec.ofNat 8 v)) s
  refine ⟨rfl, hclosed, hwrite, hread, fun b0 b1 hopen h0 h1 => ?_⟩
  rw [← zext32_ofNat b0.isLt, ← bigEndian_one b0]
  exact (withHandle_open hopen _).trans (readInto_ok h0 h1)

/-- Settles O17: RES is the reply's big-endian word, which fits in 16 bits. -/
theorem readWordCommand : Obligations.ReadWordCommand := by
  intro reg s
  obtain ⟨hclosed, hwrite, hread⟩ := readCommand_errors reg 2 (fun v => zext32 (BitVec.ofNat 16 v)) s
  refine ⟨rfl, hclosed, hwrite, hread, readCommand_short, fun b0 b1 hopen h0 h1 => ?_⟩
  have hfits : b0.toNat * 256 + b1.toNat < 2 ^ 16 := by
    have hb0 := b0.isLt
    have hb1 := b1.isLt
    omega
  rw [← zext32_ofNat hfits, ← bigEndian_two]
  exact (withHandle_open hopen _).trans (readInto_ok h0 h1)

/-- Settles O18: RES is the sign extension of the reply's big-endian word. -/
theorem readSignedWordCommand : Obligations.ReadSignedWordCommand := by
  intro reg s
  obtain ⟨hclosed, hwrite, hread⟩ := readCommand_errors reg 2 (fun v => sext32 (BitVec.ofNat 16 v)) s
  refine ⟨rfl, hclosed, hwrite, hread, readCommand_short, fun b0 b1 hopen h0 h1 => ?_⟩
  rw [← toInt_bigEndian_two, ← bigEndian_two]
  exact (withHandle_open hopen _).trans (readInto_ok h0 h1)

/-- Settles O19. -/
theorem writeByteCommand : Obligations.WriteByteCommand :=
  fun reg value s => ⟨rfl, writeCommand_cases [reg, value] s⟩

/-- Settles O20: the value is its high byte in front of its low byte. -/
theorem writeWordCommand : Obligations.WriteWordCommand := by
  intro reg hi lo value s hvalue
  obtain rfl := eq_append_of_toNat hvalue
  refine ⟨encode_wrw_append reg hi lo, ?_⟩
  rw [← wordWriteBytes_append]
  exact writeCommand_cases (wordWriteBytes reg (hi ++ lo)) s

/-- Settles O21. -/
theorem writeCommandCommand : Obligations.WriteCommandCommand :=
  fun cmd s => ⟨rfl, writeCommand_cases [cmd] s⟩

/-- Settles O22: by the length. -/
theorem writeBlockCommand : Obligations.WriteBlockCommand := by
  intro s
  have hopened (hopen : s.hOpen = true) : exec .wrblk s = sendBlock s := withHandle_open hopen _
  refine ⟨rfl, fun h => withHandle_reports h _, fun hopen hbad => (hopened hopen).trans (sendBlock_badLength hbad),
    fun hopen h0 => (hopened hopen).trans (sendBlock_empty h0), fun n hopen hn hpos hmax => ?_⟩
  rw [hopened hopen, sendBlock_eq_sendBytes hn hpos hmax]
  exact ⟨fun _ => sendBytes_fails, fun h => ⟨_, sendBytes_fails (callFails_short h), rfl, rfl⟩, sendBytes_ok⟩

/-- Settles O23. -/
theorem handleCheckComesFirst : Obligations.HandleCheckComesFirst := by
  refine fun s => ⟨fun hclosed => ⟨fun i hi => exec_transfer_closed ?_ hclosed, execClose_whenClosed hclosed⟩,
    fun _ _ _ => execOpen_err_eq_one_iff⟩
  rcases hi with ⟨r, rfl | rfl | rfl | rfl⟩ | ⟨r, v, rfl⟩ | ⟨r, v, rfl⟩ | rfl <;> simp [Instr.mnemonic]

/-- Settles O24: by the ways a command ends, and which commands write RES and the handle. -/
theorem transactionsLeaveTheEngineAlone : Obligations.TransactionsLeaveTheEngineAlone := by
  intro i s t h hi
  have he := exec_effect h
  exact ⟨he.transaction_frame hi, he.errinfo_of_ok, he.transaction_res hi, he.keeps_handle⟩

end Sys2Proof.Machine
end

section
/-! O31 to O33: the calibration store and LDCAL (41_calibration.md R89 to R94). An LDCAL is a handle check before the reads of the 32
addresses, which end at the last one, where the store is assembled, or at the first call that fails. -/

namespace Sys2Proof.Machine

/-! ### The assembled constants as numbers (R90, R92) -/

theorem toNat_pair (r : Byte → Byte) (a : Byte) : (pair r a).toNat = (r (a + 1)).toNat * 256 + (r a).toNat := by
  rw [pair, handle_toNat, Nat.add_comm, Nat.mul_comm]

/-- The sign of a pair is that of its high byte. -/
theorem toInt_pair (r : Byte → Byte) (a : Byte) : (pair r a).toInt = (r (a + 1)).toInt * 256 + (r a).toNat := by
  have hlow := (r a).isLt
  rw [BitVec.toInt_eq_toNat_cond, BitVec.toInt_eq_toNat_cond, toNat_pair]
  split <;> split <;> omega

/-- Twelve unsigned bits are not negative as an S16. -/
theorem toInt_ofNat_half {n : Nat} (h : n < 2 ^ 12) : (BitVec.ofNat 16 n).toInt = n := by
  rw [BitVec.toInt_ofNat', Int.bmod_eq_of_le] <;> omega

theorem toInt_packNibbleByte (nibbleOf low : Byte) :
    (packNibbleByte nibbleOf low).toInt = nibbleOf.toNat % 16 * 256 + low.toNat := by
  have hlow := low.isLt
  rw [packNibbleByte, toInt_ofNat_half (by omega)]
  rfl

theorem toInt_packByteNibble (high : Byte) {nibble : Nat} (h : nibble < 16) :
    (packByteNibble high nibble).toInt = high.toNat * 16 + nibble := by
  have hhigh := high.isLt
  rw [packByteNibble, toInt_ofNat_half (by omega)]
  rfl

theorem toInt_packSignedByteNibble (high : Byte) {nibble : Nat} (h : nibble < 16) :
    (packSignedByteNibble high nibble).toInt = high.toInt * 16 + nibble := by
  have hlo := high.le_toInt
  have hhi := high.toInt_lt
  rw [packSignedByteNibble, BitVec.toInt_ofInt, Int.bmod_eq_of_le] <;> omega

/-! ### The ways an LDCAL ends (R75, R93, R94) -/

@[simp] theorem callOk_after (s : State) (evs : List Event) (i : Nat) :
    (s.after evs).callOk i ↔ s.callOk (evs.length + i) := by
  simp [State.callOk]

@[simp] theorem callFails_after (s : State) (evs : List Event) (i : Nat) (c : FailCode) :
    (s.after evs).callFails i c ↔ s.callFails (evs.length + i) c := by
  simp [State.callFails]

@[simp] theorem callOk_beginLoad (s : State) (i : Nat) : (beginLoad s).callOk i ↔ s.callOk i := Iff.rfl

@[simp] theorem callFails_beginLoad (s : State) (i : Nat) (c : FailCode) :
    (beginLoad s).callFails i c ↔ s.callFails i c := Iff.rfl

section
variable {r : Byte → Byte} {front rest : List Byte} {reg : Byte} {c : FailCode} {s : State}

theorem execLdcal_closed (hclosed : s.hOpen = false) : execLdcal s = .next { s with err := 1, errinfo := 0 } :=
  withHandle_reports hclosed _

theorem execLdcal_eq_finishLoad (hopen : s.hOpen = true) :
    execLdcal s = finishLoad (readCal [] (beginLoad s) calAddresses) :=
  withHandle_open hopen _

/-- Every read succeeds: the store is assembled from the bytes read (R93). -/
theorem execLdcal_loads (hopen : s.hOpen = true) (h : s.callsRead calAddresses r) :
    execLdcal s = .next { s.after (readsOf calAddresses r) with
      cal := assembleCal s.params.humPack r, calValid := true, tfValid := false, err := 0, errinfo := 0 } := by
  have hstore : assembleCal s.params.humPack r =
      assembleCal s.params.humPack (tableByte (calAddresses.map fun a => (a, r a))) :=
    assembleCal_congr _ fun _ ha => (tableByte_map ha).symm
  rw [execLdcal_eq_finishLoad hopen, readCal_done (r := r) calAddresses [] (beginLoad s) h, afterReads_eq_after, hstore]
  rfl

/-- The MemRead of `reg` fails, after events `evs` of its own: the later addresses are not read (R94). -/
theorem execLdcal_stops {evs : List Event} (hsplit : calAddresses = front ++ reg :: rest) (hopen : s.hOpen = true)
    (h : s.callsRead front r)
    (hfail : memRead reg 1 ((beginLoad s).after (readsOf front r)) =
      .fail c (((beginLoad s).after (readsOf front r)).after evs)) :
    ∃ cal, execLdcal s = .next { s.after (readsOf front r ++ evs) with
      res := BitVec.ofNat 32 reg.toNat, cal := cal, calValid := false, tfValid := false, err := 7, errinfo := c.code } := by
  rw [← afterReads_eq_after] at hfail
  rw [execLdcal_eq_finishLoad hopen, hsplit, readCal_failed front reg rest c _ [] (beginLoad s) h hfail,
    afterReads_eq_after, after_after, ← zext32_eq_ofNat]
  exact ⟨_, rfl⟩

end

/-! ### The statements -/

/-- Settles O31: a pair is its high byte times 256 plus its low byte, H4 and H5 are packed in the two ways of R92. -/
theorem calibrationAssembly : Obligations.CalibrationAssembly := by
  intro pack r
  have hlower : (r 0xE5).toNat % 16 < 16 := Nat.mod_lt _ (by decide)
  have hupper : (r 0xE5).toNat / 16 < 16 := by
    have hbyte := (r 0xE5).isLt
    omega
  refine ⟨toNat_pair r, toNat_pair r 0x88, toNat_pair r 0x8E, ?pairs, rfl, rfl, rfl, ?source, ?datasheet,
    twelveBit_packH4 pack r, twelveBit_packH5 pack r⟩
  case pairs =>
    simp only [List.forall_mem_cons, List.not_mem_nil, false_implies, implies_true, and_true]
    exact ⟨toInt_pair r 0x8A, toInt_pair r 0x8C, toInt_pair r 0x90, toInt_pair r 0x92, toInt_pair r 0x94, toInt_pair r 0x96,
      toInt_pair r 0x98, toInt_pair r 0x9A, toInt_pair r 0x9C, toInt_pair r 0x9E, toInt_pair r 0xE1⟩
  case source =>
    rintro rfl
    exact ⟨toInt_packNibbleByte (r 0xE5) (r 0xE4), toInt_packByteNibble (r 0xE6) hupper⟩
  case datasheet =>
    rintro rfl
    exact ⟨toInt_packSignedByteNibble (r 0xE4) hlower, toInt_packSignedByteNibble (r 0xE6) hupper⟩

/-- Settles O33: the failing MemRead ends at its write or at its read. -/
theorem loadCalibrationStopsAtTheFirstFailure : Obligations.LoadCalibrationStopsAtTheFirstFailure := by
  refine fun r front rest reg c s hsplit hopen hreads => ⟨fun hfail => ?write, fun hok hfail => ?read⟩
  case write => exact execLdcal_stops hsplit hopen hreads (memRead_writeFails (by simpa using hfail) reg 1)
  case read =>
    refine execLdcal_stops hsplit hopen hreads ?_
    rw [memRead_readFails (by simpa using hok) (by simpa using hfail), called_eq_after, called_eq_after, after_after]
    rfl

/-- Settles O32: its failure clause is O33 with less said of the next state. -/
theorem loadCalibrationCommand : Obligations.LoadCalibrationCommand := by
  refine ⟨rfl, by decide, fun r s => ⟨execLdcal_closed, execLdcal_loads,
    fun front reg rest c hsplit hopen hreads hfail => ?_⟩⟩
  obtain ⟨hwrite, hread⟩ := loadCalibrationStopsAtTheFirstFailure r front rest reg c s hsplit hopen hreads
  obtain hfail | ⟨hok, hfail⟩ := hfail
  · obtain ⟨cal, hexec⟩ := hwrite hfail
    exact ⟨_, hexec, rfl, rfl, rfl, rfl⟩
  · obtain ⟨cal, hexec⟩ := hread hok hfail
    exact ⟨_, hexec, rfl, rfl, rfl, rfl⟩

end Sys2Proof.Machine
end

section
/-! O35, O36: the 32-bit datapath of the compensation engine as integer arithmetic (42_compensation.md R99 to R102). A value of a
formula is followed by `Computes`: the integer it stands for, and the exact results its overflow indicator answers for. There is
one rule for each operation, so that a formula's value and its indicator are read off it operation by operation. -/

namespace Sys2Proof.Machine

/-! ### Which exact results fit (R99) -/

theorem fits32_iff {r : Int} : fits32 r = true ↔ -2147483648 ≤ r ∧ r ≤ 2147483647 := by
  simp [fits32]

theorem someOverflow_append (rs rs' : List Int) : someOverflow (rs ++ rs') = (someOverflow rs || someOverflow rs') :=
  List.any_append

/-- Neither the order nor a repetition of the exact results matters. -/
theorem someOverflow_congr {rs rs' : List Int}
    (same : rs ⊆ rs' ∧ rs' ⊆ rs := by
      simp only [List.append_assoc, List.append_subset, List.subset_append_left, List.cons_subset, List.nil_subset,
        List.mem_append, List.mem_cons, true_or, or_true, and_true, and_self]) :
    someOverflow rs = someOverflow rs' := by
  rw [Bool.eq_iff_iff, someOverflow, someOverflow, List.any_eq_true, List.any_eq_true]
  exact ⟨fun ⟨r, hr, hov⟩ => ⟨r, same.1 hr, hov⟩, fun ⟨r, hr, hov⟩ => ⟨r, same.2 hr, hov⟩⟩

theorem wrap32_emod (r : Int) : wrap32 r % 2 ^ 32 = r % 2 ^ 32 := Int.bmod_emod

theorem toInt_ofInt32 {r : Int} (h : fits32 r = true) : (BitVec.ofInt 32 r).toInt = r := S32.int_lit h

/-! ### Values that enter a formula, and the S32 operations (R99, R100, R102) -/

/-- `a` stands for the integer `z`, and its indicator is set exactly if some of the exact results `rs` does not fit. -/
structure S32.Computes (a : S32) (z : Int) (rs : List Int) : Prop where
  int : a.int = z
  ovf : a.ovf = someOverflow rs

namespace S32

theorem computes_lit {z : Int} (h : fits32 z = true) : (lit z).Computes z [] := ⟨int_lit h, rfl⟩

theorem computes_ofSigned {w : Nat} (v : BitVec w) (hw : w ≤ 32 := by decide) : (ofSigned v).Computes v.toInt [] :=
  ⟨int_ofSigned hw v, rfl⟩

theorem computes_ofUnsigned {w : Nat} (v : BitVec w) (hw : w ≤ 31 := by decide) : (ofUnsigned v).Computes v.toNat [] :=
  ⟨int_ofUnsigned hw v, rfl⟩

namespace Computes

variable {a b : S32} {z w r : Int} {rs rs' : List Int}

theorem add (ha : a.Computes z rs) (hb : b.Computes w rs') : (a.add b).Computes (wrap32 (z + w)) (rs ++ rs' ++ [z + w]) :=
  ⟨by rw [int_add, ha.int, hb.int], by simp [ha.int, hb.int, ha.ovf, hb.ovf, someOverflow_append, Bool.or_assoc]⟩

theorem sub (ha : a.Computes z rs) (hb : b.Computes w rs') : (a.sub b).Computes (wrap32 (z - w)) (rs ++ rs' ++ [z - w]) :=
  ⟨by rw [int_sub, ha.int, hb.int], by simp [ha.int, hb.int, ha.ovf, hb.ovf, someOverflow_append, Bool.or_assoc]⟩

theorem mul (ha : a.Computes z rs) (hb : b.Computes w rs') : (a.mul b).Computes (wrap32 (z * w)) (rs ++ rs' ++ [z * w]) :=
  ⟨by rw [int_mul, ha.int, hb.int], by simp [ha.int, hb.int, ha.ovf, hb.ovf, someOverflow_append, Bool.or_assoc]⟩

theorem shl (ha : a.Computes z rs) (k : Nat) : (a.shl k).Computes (wrap32 (z * 2 ^ k)) (rs ++ [z * 2 ^ k]) :=
  ⟨by rw [int_shl, ha.int], by simp [ha.int, ha.ovf, someOverflow_append]⟩

theorem shr (ha : a.Computes z rs) (k : Nat) : (a.shr k).Computes (z / 2 ^ k) rs :=
  ⟨by rw [int_shr, ha.int], ha.ovf⟩

/-- The last operation cannot overflow: nothing is wrapped, and the indicator does not answer for it. -/
theorem of_fits (ha : a.Computes (wrap32 r) (rs ++ [r])) (h : fits32 r = true) : a.Computes r rs :=
  ⟨by rw [ha.int, wrap32_of_fits h], by simp [ha.ovf, someOverflow_append, h]⟩

theorem congr (ha : a.Computes z rs) (same : someOverflow rs = someOverflow rs') : a.Computes z rs' :=
  ⟨ha.int, ha.ovf.trans same⟩

theorem bits_eq (ha : a.Computes z rs) : a.bits = BitVec.ofInt 32 z := by rw [S32.bits_eq, ha.int]

theorem bits_eq_zero_iff (ha : a.Computes z rs) : a.bits = 0 ↔ z = 0 := by
  rw [← ha.int, S32.int, ← BitVec.toInt_inj]
  exact Iff.rfl

end Computes
end S32

/-! ### The U32 operations and the conversions (R101) -/

/-- As `S32.Computes`: the number `a` stands for, and the exact S32 results its indicator answers for. -/
structure U32.Computes (a : U32) (z : Int) (rs : List Int) : Prop where
  num : (a.bits.toNat : Int) = z
  ovf : a.ovf = someOverflow rs

namespace U32

theorem num_add (a b : U32) : ((a.add b).bits.toNat : Int) = (a.bits.toNat + b.bits.toNat : Int) % 2 ^ 32 := by
  rw [add, BitVec.toNat_add]; push_cast; rfl

theorem num_sub (a b : U32) : ((a.sub b).bits.toNat : Int) = (a.bits.toNat - b.bits.toNat : Int) % 2 ^ 32 := by
  have ha := a.bits.isLt
  have hb := b.bits.isLt
  rw [sub, BitVec.toNat_sub]
  omega

theorem num_mul (a b : U32) : ((a.mul b).bits.toNat : Int) = (a.bits.toNat * b.bits.toNat : Int) % 2 ^ 32 := by
  rw [mul, BitVec.toNat_mul]; push_cast; rfl

theorem toNat_shl (a : U32) (k : Nat) : (a.shl k).bits.toNat = a.bits.toNat * 2 ^ k % 2 ^ 32 := by
  rw [shl, BitVec.toNat_shiftLeft, Nat.shiftLeft_eq]

theorem toNat_shr (a : U32) (k : Nat) : (a.shr k).bits.toNat = a.bits.toNat / 2 ^ k := by
  rw [shr, BitVec.toNat_ushiftRight, Nat.shiftRight_eq_div_pow]

theorem toNat_div (a b : U32) : (a.div b).bits.toNat = a.bits.toNat / b.bits.toNat := BitVec.toNat_udiv

theorem lt_iff (a b : U32) : a.lt b = true ↔ a.bits.toNat < b.bits.toNat := by
  simp [lt, BitVec.ult]

theorem computes_lit {n : Nat} (h : n < 2 ^ 32) : (lit n).Computes n [] :=
  ⟨by rw [lit, BitVec.toNat_ofNat, Nat.mod_eq_of_lt h], rfl⟩

namespace Computes

variable {a b : U32} {z w r : Int} {rs rs' : List Int}

theorem congr (ha : a.Computes z rs) (same : someOverflow rs = someOverflow rs') : a.Computes z rs' :=
  ⟨ha.num, ha.ovf.trans same⟩

theorem bits_eq (ha : a.Computes (r % 2 ^ 32) rs) : a.bits = BitVec.ofInt 32 r := by
  refine BitVec.eq_of_toNat_eq ?_
  rw [BitVec.toNat_ofInt, ← Int.toNat_natCast a.bits.toNat, ha.num]
  rfl

theorem num_range (ha : a.Computes z rs) : 0 ≤ z ∧ z < 2 ^ 32 := by
  have hlt := a.bits.isLt
  have hnum := ha.num
  omega

theorem sub (ha : a.Computes z rs) (hb : b.Computes w rs') : (a.sub b).Computes ((z - w) % 2 ^ 32) (rs ++ rs') :=
  ⟨by rw [num_sub, ha.num, hb.num], by simp [U32.sub, ha.ovf, hb.ovf, someOverflow_append]⟩

theorem mul (ha : a.Computes z rs) (hb : b.Computes w rs') : (a.mul b).Computes (z * w % 2 ^ 32) (rs ++ rs') :=
  ⟨by rw [num_mul, ha.num, hb.num], by simp [U32.mul, ha.ovf, hb.ovf, someOverflow_append]⟩

theorem div (ha : a.Computes z rs) (hb : b.Computes w rs') : (a.div b).Computes (z / w) (rs ++ rs') :=
  ⟨by rw [toNat_div, Int.natCast_ediv, ha.num, hb.num], by simp [U32.div, ha.ovf, hb.ovf, someOverflow_append]⟩

theorem shl (ha : a.Computes z rs) (k : Nat) : (a.shl k).Computes (z * 2 ^ k % 2 ^ 32) rs :=
  ⟨by rw [toNat_shl, ← ha.num]; push_cast; rfl, ha.ovf⟩

theorem shr (ha : a.Computes z rs) (k : Nat) : (a.shr k).Computes (z / 2 ^ k) rs :=
  ⟨by rw [toNat_shr, ← ha.num]; push_cast; rfl, ha.ovf⟩

theorem toS32 (ha : a.Computes z rs) : a.toS32.Computes (wrap32 z) rs :=
  ⟨by rw [S32.int, U32.toS32, BitVec.toInt_eq_toNat_bmod, ha.num]; rfl, ha.ovf⟩

/-- A number below 2^31 is the same integer. -/
theorem toS32_of_lt (ha : a.Computes z rs) (h : z < 2 ^ 31) : a.toS32.Computes z rs := by
  have hfits : fits32 z = true := fits32_iff.2 (by have := ha.num_range; omega)
  simpa [wrap32_of_fits hfits] using ha.toS32

end Computes
end U32

theorem S32.num_toU32 (a : S32) : (a.toU32.bits.toNat : Int) = a.int % 2 ^ 32 := by
  rw [S32.int, BitVec.toInt_eq_toNat_bmod]
  have := a.bits.isLt
  exact (Int.bmod_emod.trans (Int.emod_eq_of_lt (by omega) (by exact_mod_cast this))).symm

theorem S32.Computes.toU32 {a : S32} {z : Int} {rs : List Int} (ha : a.Computes z rs) : a.toU32.Computes (z % 2 ^ 32) rs :=
  ⟨by rw [S32.num_toU32, ha.int], ha.ovf⟩

/-! ### The statements -/

/-- Settles O35: each operation's rule, with the bounds of S32 written out. -/
theorem signedOperationsWrapAndFlag : Obligations.SignedOperationsWrapAndFlag := by
  intro a b k
  have flagged (o : Bool) (r : Int) : (o || !fits32 r) = true ↔ o = true ∨ r < -2 ^ 31 ∨ 2 ^ 31 - 1 < r := by
    rw [← overflows_eq]; simp [overflows]
  refine ⟨?operations, S32.int_shl a k, by rw [S32.ovf_shl, flagged], ?floor, S32.ovf_shr a k⟩
  case operations =>
    simp only [List.forall_mem_cons, List.not_mem_nil, false_implies, implies_true, and_true]
    refine ⟨⟨S32.int_add a b, ?_⟩, ⟨S32.int_sub a b, ?_⟩, S32.int_mul a b, ?_⟩
    · rw [S32.ovf_add, flagged, Bool.or_eq_true, or_assoc]
    · rw [S32.ovf_sub, flagged, Bool.or_eq_true, or_assoc]
    · rw [S32.ovf_mul, flagged, Bool.or_eq_true, or_assoc]
  case floor =>
    rw [S32.int_shr]
    exact_mod_cast (Rat.floor_intCast_div_natCast a.int (2 ^ k)).symm

/-- Settles O36: the U32 operations' rules, and the two conversions by the sign bit. -/
theorem unsignedOperationsWrap : Obligations.UnsignedOperationsWrap := by
  intro a b k
  refine ⟨U32.num_add a b, U32.num_sub a b, U32.num_mul a b, U32.toNat_shl a k, U32.toNat_shr a k, fun _ => U32.toNat_div a b,
    U32.lt_iff a b, ?carried, rfl, rfl, ?signed, S32.num_toU32⟩
  case carried =>
    simp only [List.forall_mem_cons, List.not_mem_nil, false_implies, implies_true, and_true]
    exact ⟨rfl, rfl, rfl, rfl⟩
  case signed =>
    change a.bits.toInt = _
    rw [BitVec.toInt_eq_toNat_cond]
    split <;> split <;> omega

end Sys2Proof.Machine
end

section
/-! O37, O45, O46: a compensation command as a whole (42_compensation.md R96, R103, R105, R109). It either reports that an input is
missing, or writes an output that is a function of the store, fine-temperature and the raw count alone. -/

namespace Sys2Proof.Machine

/-! ### What a compensation command writes (R103) -/

/-- The result and the flags of a compensation command that succeeds (R103). -/
structure CompOutput where
  res : Word
  resf : DWord
  ovf : Bool
  zdiv : Bool
  sat : Bool

/-- The state with an output written to it, SOVF collecting OVF, and ERR and ERRINFO of a success (R103). -/
def CompOutput.writtenTo (o : CompOutput) (s : State) : State :=
  setErr .ok 0 (setFlags o.ovf o.zdiv o.sat { s with res := o.res, resf := o.resf })

theorem CompOutput.writtenTo_eq (o : CompOutput) (s : State) : o.writtenTo s = { s with
    res := o.res, resf := o.resf, ovf := o.ovf, zdiv := o.zdiv, sat := o.sat, sovf := s.sovf || o.ovf, err := 0, errinfo := 0 } :=
  rfl

/-- The output of CMPT (R106). -/
def temperatureOutput (cal : Cal) (raw : Nat) : CompOutput :=
  let t := temperature (fineTemperature cal raw)
  { res := t.bits, resf := bits64 t.int 100, ovf := t.ovf, zdiv := false, sat := false }

/-- The output of CMPH (R107). -/
def humidityOutput (cal : Cal) (tf : Word) (raw : Nat) : CompOutput :=
  let y := humidity cal tf raw
  let h := clampHumidity y.int
  { res := BitVec.ofInt 32 h, resf := bits64 h 4194304, ovf := y.ovf, zdiv := false, sat := h != y.int }

/-- The output of CMPP (R108), on the zero guard and past it. -/
def pressureOutput (cal : Cal) (tf : Word) (raw : Nat) : CompOutput :=
  let den := pressureDenominator cal tf
  if den.bits = 0 then
    { res := 0, resf := bits64 0 100, ovf := den.ovf || (pressureV2 cal tf).ovf, zdiv := true, sat := false }
  else
    let p := pressure cal tf raw
    { res := p.bits, resf := bits64 p.bits.toNat 100, ovf := p.ovf, zdiv := false, sat := false }

/-! ### The commands by their inputs (R105 to R108) -/

section
variable {m l x : Byte} {s : State}

theorem compensated_eq_writtenTo (res : Word) (resf : DWord) (ovf zdiv sat : Bool) (s : State) :
    compensated res resf ovf zdiv sat s = .next (CompOutput.writtenTo ⟨res, resf, ovf, zdiv, sat⟩ s) := rfl

theorem exec_cmpt_eq_withCal : exec (.cmpt m l x) s = withCal s fun s =>
    .next ((temperatureOutput s.cal (raw20 m l x)).writtenTo
      { s with tf := (fineTemperature s.cal (raw20 m l x)).bits, tfValid := true }) := by
  simp only [exec, execCmpt, compensated_eq_writtenTo, temperatureOutput]

theorem exec_cmph_eq_withCalAndTf : exec (.cmph m l) s = withCalAndTf s fun s =>
    .next ((humidityOutput s.cal s.tf (raw16 m l)).writtenTo s) := by
  simp only [exec, execCmph, compensated_eq_writtenTo, humidityOutput]

theorem exec_cmpp_eq_withCalAndTf : exec (.cmpp m l x) s = withCalAndTf s fun s =>
    .next ((pressureOutput s.cal s.tf (raw20 m l x)).writtenTo s) := by
  simp only [exec, execCmpp, compensated_eq_writtenTo, pressureOutput, apply_ite CompOutput.writtenTo, ite_apply,
    apply_ite Host.Outcome.next]

theorem withCal_missing (h : s.calValid = false) (k : State → Result) :
    withCal s k = .next { s with err := 6, errinfo := 0 } := by
  obtain ⟨-, he⟩ | ⟨hcal, -⟩ := withCal_cases s k
  · exact he
  · simp [hcal] at h

theorem withCalAndTf_missing (h : s.calValid = false ∨ s.tfValid = false) (k : State → Result) :
    withCalAndTf s k = .next { s with err := 6, errinfo := 0 } := by
  obtain ⟨-, he⟩ | ⟨hcal, htf, -⟩ := withCalAndTf_cases s k
  · exact he
  · simp [hcal, htf] at h

theorem exec_cmpt_missing (h : s.calValid = false) : exec (.cmpt m l x) s = .next { s with err := 6, errinfo := 0 } := by
  rw [exec_cmpt_eq_withCal, withCal_missing h]

theorem exec_cmph_missing (h : s.calValid = false ∨ s.tfValid = false) :
    exec (.cmph m l) s = .next { s with err := 6, errinfo := 0 } := by
  rw [exec_cmph_eq_withCalAndTf, withCalAndTf_missing h]

theorem exec_cmpp_missing (h : s.calValid = false ∨ s.tfValid = false) :
    exec (.cmpp m l x) s = .next { s with err := 6, errinfo := 0 } := by
  rw [exec_cmpp_eq_withCalAndTf, withCalAndTf_missing h]

theorem exec_cmpt_valid (hcal : s.calValid = true) :
    exec (.cmpt m l x) s = .next ((temperatureOutput s.cal (raw20 m l x)).writtenTo
      { s with tf := (fineTemperature s.cal (raw20 m l x)).bits, tfValid := true }) := by
  rw [exec_cmpt_eq_withCal, withCal, if_pos hcal]

theorem exec_cmph_valid (hcal : s.calValid = true) (htf : s.tfValid = true) :
    exec (.cmph m l) s = .next ((humidityOutput s.cal s.tf (raw16 m l)).writtenTo s) := by
  rw [exec_cmph_eq_withCalAndTf, withCalAndTf, if_pos (by rw [hcal, htf]; rfl)]

theorem exec_cmpp_valid (hcal : s.calValid = true) (htf : s.tfValid = true) :
    exec (.cmpp m l x) s = .next ((pressureOutput s.cal s.tf (raw20 m l x)).writtenTo s) := by
  rw [exec_cmpp_eq_withCalAndTf, withCalAndTf, if_pos (by rw [hcal, htf]; rfl)]

end

/-! ### What a compensation command reads (R96) -/

/-- Two states agree on everything a compensation command reads (R96). -/
structure SameInputs (s s' : State) : Prop where
  cal : s'.cal = s.cal
  calValid : s'.calValid = s.calValid
  tf : s'.tf = s.tf
  tfValid : s'.tfValid = s.tfValid

/-- No compensation output writes an input. -/
theorem sameInputs_writtenTo (o : CompOutput) (s : State) : SameInputs s (o.writtenTo s) := ⟨rfl, rfl, rfl, rfl⟩

theorem exec_cmph_sameInputs {s : State} (hcal : s.calValid = true) (htf : s.tfValid = true) (m l : Byte) :
    ∃ out : CompOutput, ∀ s', SameInputs s s' → exec (.cmph m l) s' = .next (out.writtenTo s') := by
  refine ⟨humidityOutput s.cal s.tf (raw16 m l), fun s' same => ?_⟩
  rw [exec_cmph_valid (same.calValid.trans hcal) (same.tfValid.trans htf), same.cal, same.tf]

theorem exec_cmpp_sameInputs {s : State} (hcal : s.calValid = true) (htf : s.tfValid = true) (m l x : Byte) :
    ∃ out : CompOutput, ∀ s', SameInputs s s' → exec (.cmpp m l x) s' = .next (out.writtenTo s') := by
  refine ⟨pressureOutput s.cal s.tf (raw20 m l x), fun s' same => ?_⟩
  rw [exec_cmpp_valid (same.calValid.trans hcal) (same.tfValid.trans htf), same.cal, same.tf]

/-- From all states that agree with `s` on the inputs, the command reports that one is missing, or writes the same values; only
CMPT writes TF and TF_VALID. -/
theorem exec_compensation_sameInputs {i : Instr} (hi : i.mnemonic ∈ ["CMPT", "CMPH", "CMPP"]) (s : State) :
    (∀ s', SameInputs s s' → exec i s' = .next { s' with err := 6, errinfo := 0 }) ∨
    ∃ (tf : Word) (tfValid : Bool) (out : CompOutput),
      (i.mnemonic ∉ ["CMPT"] → tf = s.tf ∧ tfValid = s.tfValid) ∧
      ∀ s', SameInputs s s' → exec i s' = .next (out.writtenTo { s' with tf := tf, tfValid := tfValid }) := by
  have keepsTf {j : Instr} {out : CompOutput} (hout : ∀ s', SameInputs s s' → exec j s' = .next (out.writtenTo s')) :
      ∀ s', SameInputs s s' → exec j s' = .next (out.writtenTo { s' with tf := s.tf, tfValid := s.tfValid }) :=
    fun s' same => by rw [hout s' same, ← same.tf, ← same.tfValid]
  cases i with
  | cmpt m l x =>
    cases hcal : s.calValid with
    | false => exact .inl fun _ same => exec_cmpt_missing (same.calValid.trans hcal)
    | true =>
      refine .inr ⟨(fineTemperature s.cal (raw20 m l x)).bits, true, temperatureOutput s.cal (raw20 m l x),
        fun hne => absurd (List.mem_singleton.2 rfl) hne, fun s' same => ?_⟩
      rw [exec_cmpt_valid (same.calValid.trans hcal), same.cal]
  | cmph m l =>
    by_cases missing : s.calValid = false ∨ s.tfValid = false
    · exact .inl fun _ same => exec_cmph_missing (by rwa [same.calValid, same.tfValid])
    · simp only [not_or, Bool.not_eq_false] at missing
      obtain ⟨out, hout⟩ := exec_cmph_sameInputs missing.1 missing.2 m l
      exact .inr ⟨s.tf, s.tfValid, out, fun _ => ⟨rfl, rfl⟩, keepsTf hout⟩
  | cmpp m l x =>
    by_cases missing : s.calValid = false ∨ s.tfValid = false
    · exact .inl fun _ same => exec_cmpp_missing (by rwa [same.calValid, same.tfValid])
    · simp only [not_or, Bool.not_eq_false] at missing
      obtain ⟨out, hout⟩ := exec_cmpp_sameInputs missing.1 missing.2 m l x
      exact .inr ⟨s.tf, s.tfValid, out, fun _ => ⟨rfl, rfl⟩, keepsTf hout⟩
  | openBus _ _ | close | ldcal | rdb _ | rdw _ | rdws _ | wrb _ _ | wrw _ _ | wrc _ | wrblk =>
    simp [Instr.mnemonic] at hi

/-! ### The statements -/

/-- Settles O37: the precondition of each command, not met. -/
theorem compensationNeedsItsInputs : Obligations.CompensationNeedsItsInputs :=
  fun _ => ⟨fun hcal _ _ _ => exec_cmpt_missing hcal,
    fun missing => ⟨fun _ _ => exec_cmph_missing missing, fun _ _ _ => exec_cmpp_missing missing⟩⟩

/-- Settles O45: the state itself is one of those that agree with it on the inputs. -/
theorem compensationReadsOnlyItsInputs : Obligations.CompensationReadsOnlyItsInputs := by
  intro i s hi
  obtain hreports | ⟨tf, tfValid, out, htf, hwrites⟩ := exec_compensation_sameInputs hi s
  · refine ⟨_, hreports s ⟨rfl, rfl, rfl, rfl⟩, rfl, fun _ => ⟨rfl, rfl⟩, fun s' hcal hcalValid htf htfValid => ?_⟩
    exact ⟨_, hreports s' ⟨hcal, hcalValid, htf, htfValid⟩, rfl, rfl, htf, htfValid, fun hok => by simp at hok⟩
  · refine ⟨_, hwrites s ⟨rfl, rfl, rfl, rfl⟩, rfl, htf, fun s' hcal hcalValid htf htfValid => ?_⟩
    exact ⟨_, hwrites s' ⟨hcal, hcalValid, htf, htfValid⟩, rfl, rfl, rfl, rfl, fun _ => ⟨rfl, rfl, rfl, rfl, rfl⟩⟩

/-- Settles O46: neither command writes an input of the other, so each writes the same output in either order. -/
theorem humidityAndPressureCommute : Obligations.HumidityAndPressureCommute := by
  intro m l m' l' x' s hcal htf
  obtain ⟨hum, hhum⟩ := exec_cmph_sameInputs hcal htf m l
  obtain ⟨pres, hpres⟩ := exec_cmpp_sameInputs hcal htf m' l' x'
  have itself : SameInputs s s := ⟨rfl, rfl, rfl, rfl⟩
  exact ⟨_, _, _, _, hhum s itself, hpres s itself, hpres _ (sameInputs_writtenTo hum s), hhum _ (sameInputs_writtenTo pres s),
    rfl, rfl, rfl, rfl, rfl, rfl, htf, htf, Bool.or_right_comm _ _ _⟩

end Sys2Proof.Machine
end

section
/-! O38 to O40: the formulas of CMPT, CMPH and CMPP (42_compensation.md R106 to R108), each followed operation by operation with the
rules of `Computes`. The last lemma before each statement is the command whose formula has been followed. -/

namespace Sys2Proof.Machine

/-! ### What enters a formula (R97, R98, R102) -/

theorem natCast_toNat_range {w : Nat} (v : BitVec w) : 0 ≤ (v.toNat : Int) ∧ (v.toNat : Int) < 2 ^ w :=
  ⟨Int.natCast_nonneg _, by exact_mod_cast v.isLt⟩

theorem raw20_range (m l x : Byte) :
    0 ≤ (m.toNat * 4096 + l.toNat * 16 + x.toNat / 16 : Int) ∧
    (m.toNat * 4096 + l.toNat * 16 + x.toNat / 16 : Int) < 2 ^ 20 := by
  omega

theorem computes_raw20 (m l x : Byte) :
    (S32.lit (raw20 m l x)).Computes (m.toNat * 4096 + l.toNat * 16 + x.toNat / 16) [] := by
  have hraw : (raw20 m l x : Int) = m.toNat * 4096 + l.toNat * 16 + x.toNat / 16 := by simp [raw20]
  have range := raw20_range m l x
  rw [hraw]
  exact S32.computes_lit (fits32_iff.2 (by omega))

theorem computes_raw16 (m l : Byte) : (S32.lit (raw16 m l)).Computes (m.toNat * 256 + l.toNat) [] := by
  have hraw : (raw16 m l : Int) = m.toNat * 256 + l.toNat := by simp [raw16]
  rw [hraw]
  exact S32.computes_lit (fits32_iff.2 (by omega))

/-! ### Temperature (R106) -/

theorem exec_cmpt_computes {m l x : Byte} {s : State} {tf t : Int} {rs rs' : List Int} (hcal : s.calValid = true)
    (htf : (fineTemperature s.cal (raw20 m l x)).Computes tf rs)
    (ht : (temperature (fineTemperature s.cal (raw20 m l x))).Computes t rs') :
    exec (.cmpt m l x) s = .next { s with
      tf := BitVec.ofInt 32 tf, tfValid := true, res := BitVec.ofInt 32 t, resf := bits64 t 100,
      ovf := someOverflow rs', zdiv := false, sat := false, sovf := s.sovf || someOverflow rs', err := 0, errinfo := 0 } := by
  rw [exec_cmpt_valid hcal, CompOutput.writtenTo_eq]
  simp only [temperatureOutput, ht.bits_eq, ht.int, ht.ovf, htf.bits_eq]

/-- Settles O38: what stands before the products cannot overflow, and `ovf` answers for every other result. -/
theorem temperatureFormula : Obligations.TemperatureFormula := by
  refine fun m l x s => ⟨rfl, exec_cmpt_missing, fun hcal => ?_⟩
  intro raw t1 r1 d r2 r3 r4 tf r5 r6 t o
  obtain ⟨raw_nonneg, raw_lt⟩ : 0 ≤ raw ∧ raw < 2 ^ 20 := raw20_range m l x
  obtain ⟨t1_nonneg, t1_lt⟩ : 0 ≤ t1 ∧ t1 < 2 ^ 16 := natCast_toNat_range s.cal.t1
  have hraw : S32.Computes _ raw [] := computes_raw20 m l x
  have ht1 : S32.Computes _ t1 [] := S32.computes_ofUnsigned s.cal.t1
  have hscaled : S32.Computes _ (t1 * 2) [] := (ht1.shl 1).of_fits (fits32_iff.2 (by omega))
  have hdiff : S32.Computes _ (raw / 8 - t1 * 2) [] := ((hraw.shr 3).sub hscaled).of_fits (fits32_iff.2 (by omega))
  have hv1 : S32.Computes _ (wrap32 r1 / 2 ^ 11) [r1] := (hdiff.mul (S32.computes_ofSigned s.cal.t2)).shr 11
  have hd : S32.Computes _ d [] := ((hraw.shr 4).sub ht1).of_fits (fits32_iff.2 (by omega))
  have hv2 : S32.Computes _ (wrap32 r3 / 2 ^ 14) [r2, r3] :=
    (((hd.mul hd).shr 12).mul (S32.computes_ofSigned s.cal.t3)).shr 14
  have htf : S32.Computes (fineTemperature s.cal (raw20 m l x)) tf [r1, r2, r3, r4] := hv1.add hv2
  have ht : S32.Computes (temperature (fineTemperature s.cal (raw20 m l x))) t [r1, r2, r3, r4, r5, r6] :=
    ((htf.mul (S32.computes_lit rfl)).add (S32.computes_lit rfl)).shr 8
  exact exec_cmpt_computes hcal htf ht

/-! ### Humidity (R107) -/

theorem clamp_ne_iff (y : Int) : (max 0 (min y 419430400) != y) = decide (y < 0 ∨ 419430400 < y) := by
  rw [Bool.eq_iff_iff, bne_iff_ne, decide_eq_true_eq]
  omega

theorem exec_cmph_computes {m l : Byte} {s : State} {y : Int} {rs : List Int} (hcal : s.calValid = true)
    (htf : s.tfValid = true) (hy : (humidity s.cal s.tf (raw16 m l)).Computes y rs) :
    exec (.cmph m l) s = .next { s with
      res := BitVec.ofInt 32 (max 0 (min y 419430400)), resf := bits64 (max 0 (min y 419430400)) 4194304,
      ovf := someOverflow rs, zdiv := false, sat := decide (y < 0 ∨ 419430400 < y), sovf := s.sovf || someOverflow rs,
      err := 0, errinfo := 0 } := by
  rw [exec_cmph_valid hcal htf, CompOutput.writtenTo_eq]
  simp only [humidityOutput, hy.int, hy.ovf, clampHumidity_eq, clamp_ne_iff]

/-- Settles O39: `ovf` answers for every result of the formula, for those it reuses too, once each. -/
theorem humidityFormula : Obligations.HumidityFormula := by
  refine fun m l s => ⟨rfl, exec_cmph_missing, fun hcal htfValid => ?_⟩
  intro raw x0 x a1 a2 a3 a4 a5 a6 a b1 b c1 c2 d1 d2 e1 e2 y1 q q1 q2 y2 y h o
  have hraw : S32.Computes _ raw [] := computes_raw16 m l
  have hx : S32.Computes _ x [x0] := (S32.computes_ofSigned s.tf).sub (S32.computes_lit rfl)
  have ha : S32.Computes _ a [a1, a2, a4, x0, a3, a5, a6] :=
    ((((hraw.shl 14).sub ((S32.computes_ofSigned s.cal.h4).shl 20)).sub
      ((S32.computes_ofSigned s.cal.h5).mul hx)).add (S32.computes_lit rfl)).shr 15
  have hb : S32.Computes _ b [x0, b1] := (hx.mul (S32.computes_ofSigned s.cal.h6)).shr 10
  have hc : S32.Computes _ (wrap32 c2) [x0, c1, c2] :=
    ((hx.mul (S32.computes_ofUnsigned s.cal.h3)).shr 11).add (S32.computes_lit rfl)
  have hd : S32.Computes _ (wrap32 d2) [x0, b1, x0, c1, c2, d1, d2] := ((hb.mul hc).shr 10).add (S32.computes_lit rfl)
  have he : S32.Computes _ (wrap32 e2 / 2 ^ 14) [x0, b1, x0, c1, c2, d1, d2, e1, e2] :=
    ((hd.mul (S32.computes_ofSigned s.cal.h2)).add (S32.computes_lit rfl)).shr 14
  have hproduct : S32.Computes _ (wrap32 y1) [a1, a2, a4, x0, a3, a5, a6, x0, b1, x0, c1, c2, d1, d2, e1, e2, y1] := ha.mul he
  have hy1 : S32.Computes _ (wrap32 y1) [x0, a1, a2, a3, a4, a5, a6, b1, c1, c2, d1, d2, e1, e2, y1] :=
    hproduct.congr someOverflow_congr
  generalize hrs : [x0, a1, a2, a3, a4, a5, a6, b1, c1, c2, d1, d2, e1, e2, y1] = rs at hy1
  have hq : S32.Computes _ q rs := hy1.shr 15
  have hdifference : S32.Computes (humidity s.cal s.tf (raw16 m l)) y (rs ++ (rs ++ rs ++ [q1] ++ [] ++ [q2]) ++ [y2]) :=
    hy1.sub ((((hq.mul hq).shr 7).mul (S32.computes_ofUnsigned s.cal.h1)).shr 4)
  have hy : S32.Computes (humidity s.cal s.tf (raw16 m l)) y (rs ++ [q1, q2, y2]) := hdifference.congr someOverflow_congr
  subst hrs
  exact exec_cmph_computes hcal htfValid hy

/-! ### Pressure (R108) -/

theorem computes_pressureV1 (tf : Word) : (pressureV1 tf).Computes (tf.toInt / 2 - 64000) [] := by
  have lower := tf.le_toInt
  have upper := tf.toInt_lt
  exact (((S32.computes_ofSigned tf).shr 1).sub (S32.computes_lit rfl)).of_fits (fits32_iff.2 (by omega))

theorem computes_pressureNumerator {v2 : S32} {z : Int} {rs : List Int} (hv2 : v2.Computes z rs) (m l x : Byte) :
    (pressureNumerator v2 (raw20 m l x)).Computes
      ((1048576 - (m.toNat * 4096 + l.toNat * 16 + x.toNat / 16) - z / 2 ^ 12) * 3125 % 2 ^ 32) rs := by
  have range := raw20_range m l x
  have hcount := ((S32.computes_lit (z := 1048576) rfl).sub (computes_raw20 m l x)).of_fits (fits32_iff.2 (by omega))
  have hnum := (hcount.toU32.sub (hv2.shr 12).toU32).mul (U32.computes_lit (n := 3125) (by decide))
  rw [List.append_nil] at hnum
  exact ⟨hnum.num.trans (by omega), hnum.ovf⟩

/-- The division, in the branch the numerator selects. -/
theorem computes_pressureQuotient {p : U32} {den : S32} {n d : Int} {rs rs' : List Int} (hp : p.Computes n rs)
    (hden : den.Computes d rs') :
    (pressureQuotient p den).Computes
      (if n < 2 ^ 31 then n * 2 / (d % 2 ^ 32) else n / (d % 2 ^ 32) * 2 % 2 ^ 32) (rs ++ rs') := by
  have hlt : p.lt (U32.lit 0x80000000) = true ↔ n < 2 ^ 31 := by
    rw [U32.lt_iff, ← hp.num]
    exact_mod_cast Iff.rfl
  obtain ⟨n_nonneg, -⟩ := hp.num_range
  unfold pressureQuotient
  by_cases hn : n < 2 ^ 31
  · have hdouble : n * 2 ^ 1 % 2 ^ 32 = n * 2 := by omega
    rw [if_pos (hlt.2 hn), if_pos hn, ← hdouble]
    exact (hp.shl 1).div hden.toU32
  · rw [if_neg (mt hlt.1 hn), if_neg hn]
    simpa using (hp.div hden.toU32).mul (U32.computes_lit (n := 2) (by decide))

/-- The correction: its shifted terms are small, so that only its two products and its last sum can overflow. -/
theorem computes_pressureCorrected (cal : Cal) {u : U32} {p : Int} {rs : List Int} (hu : u.Computes p rs) :
    let w1 := cal.p9.toInt * (p / 8 * (p / 8) % 2 ^ 32 / 2 ^ 13)
    let w2 := p / 4 * cal.p8.toInt
    let w3 := wrap32 w1 / 2 ^ 12 + wrap32 w2 / 2 ^ 13 + cal.p7.toInt
    let r := wrap32 p + w3 / 2 ^ 4
    (pressureCorrected cal u).Computes (r % 2 ^ 32) (rs ++ [w1, w2, r]) := by
  intro w1 w2 w3 r
  obtain ⟨p_nonneg, p_lt⟩ := hu.num_range
  have w1_fits := fits32_iff.1 (fits_wrap32 w1)
  have w2_fits := fits32_iff.1 (fits_wrap32 w2)
  have p7_lower := cal.p7.le_toInt
  have p7_upper := cal.p7.toInt_lt
  have hsquare := (((hu.shr 3).mul (hu.shr 3)).shr 13).toS32_of_lt (by omega)
  have hw1 : S32.Computes _ (wrap32 w1 / 2 ^ 12) (rs ++ rs ++ [w1]) := ((S32.computes_ofSigned cal.p9).mul hsquare).shr 12
  have hw2 : S32.Computes _ (wrap32 w2 / 2 ^ 13) (rs ++ [] ++ [w2]) :=
    (((hu.shr 2).toS32_of_lt (by omega)).mul (S32.computes_ofSigned cal.p8)).shr 13
  have hsum := (hw1.add hw2).of_fits (fits32_iff.2 (by omega))
  have hw3 := (hsum.add (S32.computes_ofSigned cal.p7)).of_fits (fits32_iff.2 (by omega))
  have hr : U32.Computes _ (wrap32 r % 2 ^ 32) (rs ++ (rs ++ rs ++ [w1] ++ (rs ++ [] ++ [w2]) ++ []) ++ [r]) :=
    (hu.toS32.add (hw3.shr 4)).toU32
  rw [wrap32_emod] at hr
  exact hr.congr someOverflow_congr

section
variable {m l x : Byte} {s : State} {den r : Int} {rs rs' : List Int}

theorem exec_cmpp_guard_computes (hcal : s.calValid = true) (htf : s.tfValid = true)
    (hden : (pressureDenominator s.cal s.tf).Computes 0 rs) (hv2 : (pressureV2 s.cal s.tf).ovf = someOverflow rs') :
    exec (.cmpp m l x) s = .next { s with
      res := 0, resf := 0, ovf := someOverflow (rs ++ rs'), zdiv := true, sat := false,
      sovf := s.sovf || someOverflow (rs ++ rs'), err := 0, errinfo := 0 } := by
  rw [exec_cmpp_valid hcal htf, CompOutput.writtenTo_eq]
  simp only [pressureOutput, if_pos (hden.bits_eq_zero_iff.2 rfl), hden.ovf, hv2, someOverflow_append, bits64_zero]

theorem exec_cmpp_divided_computes (hcal : s.calValid = true) (htf : s.tfValid = true)
    (hden : (pressureDenominator s.cal s.tf).Computes den rs) (hne : den ≠ 0)
    (hp : (pressure s.cal s.tf (raw20 m l x)).Computes (r % 2 ^ 32) rs') :
    exec (.cmpp m l x) s = .next { s with
      res := BitVec.ofInt 32 r, resf := bits64 (r % 2 ^ 32) 100, ovf := someOverflow rs', zdiv := false, sat := false,
      sovf := s.sovf || someOverflow rs', err := 0, errinfo := 0 } := by
  rw [exec_cmpp_valid hcal htf, CompOutput.writtenTo_eq, pressureOutput, if_neg (mt hden.bits_eq_zero_iff.1 hne)]
  simp only [hp.num, hp.ovf]
  rw [hp.bits_eq]

end

/-- Settles O40: both sides of the guard share the two terms of the division. -/
theorem pressureFormula : Obligations.PressureFormula := by
  refine fun m l x s => ⟨rfl, exec_cmpp_missing, fun hcal htfValid => ?_⟩
  intro raw v1 sq b1 b2 b3 b4 b5 v2 c1 c2 c3 c4 den o
  have hv1 : S32.Computes _ v1 [] := computes_pressureV1 s.tf
  have hsq : S32.Computes _ (wrap32 sq) [sq] := (hv1.shr 2).mul (hv1.shr 2)
  have p4_lower := s.cal.p4.le_toInt
  have p4_upper := s.cal.p4.toInt_lt
  have c3_fits := fits32_iff.1 (fits_wrap32 c3)
  have hp4 : S32.Computes _ (s.cal.p4.toInt * 2 ^ 16) [] :=
    ((S32.computes_ofSigned s.cal.p4).shl 16).of_fits (fits32_iff.2 (by omega))
  have hv2 : S32.Computes (pressureV2 s.cal s.tf) v2 [sq, b1, b2, b3, b4, b5] :=
    ((((hsq.shr 11).mul (S32.computes_ofSigned s.cal.p6)).add
      ((hv1.mul (S32.computes_ofSigned s.cal.p5)).shl 1)).shr 2).add hp4
  have hscale : S32.Computes _ (wrap32 c3 / 2 ^ 18) [sq, c1, c2, c3] :=
    ((((S32.computes_ofSigned s.cal.p3).mul (hsq.shr 13)).shr 3).add
      (((S32.computes_ofSigned s.cal.p2).mul hv1).shr 1)).shr 18
  have hone : S32.Computes _ (32768 + wrap32 c3 / 2 ^ 18) [sq, c1, c2, c3] :=
    ((S32.computes_lit rfl).add hscale).of_fits (fits32_iff.2 (by omega))
  have hden : S32.Computes (pressureDenominator s.cal s.tf) den [sq, c1, c2, c3, c4] :=
    (hone.mul (S32.computes_ofUnsigned s.cal.p1)).shr 15
  refine ⟨fun hzero => ?guard, fun hne => ?divided⟩
  case guard =>
    have hovf : someOverflow ([sq, c1, c2, c3, c4] ++ [sq, b1, b2, b3, b4, b5]) = o := someOverflow_congr
    rw [exec_cmpp_guard_computes hcal htfValid (hzero ▸ hden) hv2.ovf, hovf]
  case divided =>
    intro num d p w1 w2 w3 r o'
    have hnum : U32.Computes _ num _ := computes_pressureNumerator hv2 m l x
    have hquotient : U32.Computes _ p _ := (computes_pressureQuotient hnum hden).congr
      (rs' := [sq, b1, b2, b3, b4, b5, c1, c2, c3, c4]) someOverflow_congr
    have hpressure : (pressure s.cal s.tf (raw20 m l x)).Computes (r % 2 ^ 32) _ := computes_pressureCorrected s.cal hquotient
    rw [exec_cmpp_divided_computes hcal htfValid hden hne hpressure, someOverflow_append]

end Sys2Proof.Machine
end

section
/-! O41 to O44: what the formulas guarantee. Without overflow they are exact (42_compensation.md R99); the humidity stays in its
range, and its RESF is exact (R104, R107); with CAL.P1 = 0 the pressure is 0 (R108). -/

namespace Sys2Proof.Machine

/-! ### Exact as long as nothing overflows (R99) -/

/-- `a` stands for `z`, unless its indicator is set. -/
def S32.Exact (a : S32) (z : Int) : Prop := a.ovf = false → a.int = z

namespace S32

theorem exact_int (a : S32) : a.Exact a.int := fun _ => rfl

theorem exact_lit {z : Int} (h : fits32 z = true) : (lit z).Exact z := fun _ => int_lit h

theorem exact_ofSigned {w : Nat} (v : BitVec w) (hw : w ≤ 32 := by decide) : (ofSigned v).Exact v.toInt :=
  fun _ => int_ofSigned hw v

theorem exact_ofUnsigned {w : Nat} (v : BitVec w) (hw : w ≤ 31 := by decide) : (ofUnsigned v).Exact v.toNat :=
  fun _ => int_ofUnsigned hw v

namespace Exact

variable {a b : S32} {z w : Int}

/-- A wrapped result is exact if the result of what the operands carried is. -/
theorem narrow {r z : Int} {o : Bool} (h : o = false → r = z) : (S32.narrow r o).Exact z := by
  intro hovf
  rw [ovf_narrow, Bool.or_eq_false_iff, Bool.not_eq_false'] at hovf
  rw [int_narrow, wrap32_of_fits hovf.2, h hovf.1]

theorem add (ha : a.Exact z) (hb : b.Exact w) : (a.add b).Exact (z + w) :=
  narrow fun h => by rw [ha (Bool.or_eq_false_iff.1 h).1, hb (Bool.or_eq_false_iff.1 h).2]

theorem sub (ha : a.Exact z) (hb : b.Exact w) : (a.sub b).Exact (z - w) :=
  narrow fun h => by rw [ha (Bool.or_eq_false_iff.1 h).1, hb (Bool.or_eq_false_iff.1 h).2]

theorem mul (ha : a.Exact z) (hb : b.Exact w) : (a.mul b).Exact (z * w) :=
  narrow fun h => by rw [ha (Bool.or_eq_false_iff.1 h).1, hb (Bool.or_eq_false_iff.1 h).2]

theorem shl (ha : a.Exact z) (k : Nat) : (a.shl k).Exact (z * 2 ^ k) := narrow fun h => by rw [ha h]

theorem shr (ha : a.Exact z) (k : Nat) : (a.shr k).Exact (z / 2 ^ k) := fun h => by rw [int_shr, ha h]

end Exact
end S32

theorem fineTemperature_exact (cal : Cal) {raw : Nat} (h : raw < 2 ^ 20) :
    (fineTemperature cal raw).Exact (exactFineTemperature raw cal.t1.toNat cal.t2.toInt cal.t3.toInt) := by
  have hraw : S32.Exact _ _ := S32.exact_lit (z := raw) (fits32_iff.2 (by omega))
  have ht1 := S32.exact_ofUnsigned cal.t1
  have hd := (hraw.shr 4).sub ht1
  exact ((((hraw.shr 3).sub (ht1.shl 1)).mul (S32.exact_ofSigned cal.t2)).shr 11).add
    ((((hd.mul hd).shr 12).mul (S32.exact_ofSigned cal.t3)).shr 14)

theorem temperature_exact (tf : S32) : (temperature tf).Exact (exactTemperature tf.int) :=
  ((tf.exact_int.mul (S32.exact_lit rfl)).add (S32.exact_lit rfl)).shr 8

theorem ovf_of_temperature {tf : S32} (h : (temperature tf).ovf = false) : tf.ovf = false := by
  rw [← Bool.not_eq_true] at h ⊢
  exact mt (fun htf => by simp [temperature, htf]) h

theorem humidity_exact (cal : Cal) (tf : Word) {raw : Nat} (h : raw < 2 ^ 16) :
    (humidity cal tf raw).Exact (exactHumidity tf.toInt raw cal.h1.toNat cal.h2.toInt cal.h3.toNat cal.h4.toInt cal.h5.toInt
      cal.h6.toInt) := by
  have hraw : S32.Exact _ _ := S32.exact_lit (z := raw) (fits32_iff.2 (by omega))
  have hx := (S32.exact_ofSigned tf).sub (S32.exact_lit (z := 76800) rfl)
  have ha := ((((hraw.shl 14).sub ((S32.exact_ofSigned cal.h4).shl 20)).sub ((S32.exact_ofSigned cal.h5).mul hx)).add
    (S32.exact_lit (z := 16384) rfl)).shr 15
  have hb := (hx.mul (S32.exact_ofSigned cal.h6)).shr 10
  have hc := ((hx.mul (S32.exact_ofUnsigned cal.h3)).shr 11).add (S32.exact_lit (z := 32768) rfl)
  have hd := ((hb.mul hc).shr 10).add (S32.exact_lit (z := 2097152) rfl)
  have he := ((hd.mul (S32.exact_ofSigned cal.h2)).add (S32.exact_lit (z := 8192) rfl)).shr 14
  have hy := ha.mul he
  have hq := hy.shr 15
  exact hy.sub ((((hq.mul hq).shr 7).mul (S32.exact_ofUnsigned cal.h1)).shr 4)

/-! ### The range of humidity, and its pattern (R104, R107) -/

theorem clampHumidity_range (y : Int) : 0 ≤ clampHumidity y ∧ clampHumidity y ≤ 419430400 := by
  rw [clampHumidity_eq]
  omega

theorem toInt_clampHumidity (y : Int) : (BitVec.ofInt 32 (clampHumidity y)).toInt = clampHumidity y := by
  have range := clampHumidity_range y
  exact toInt_ofInt32 (fits32_iff.2 (by omega))

theorem roundHalfEven_of_dvd {n d : ℕ} (hd : 0 < d) (h : d ∣ n) : roundHalfEven n d = n / d := by
  simp [roundHalfEven, Nat.mod_eq_zero_of_dvd h, hd]

/-- An exponent this small leaves room for all bits of the numerator. -/
theorem significand64_of_dyadic {n k : ℕ} {e : ℤ} (he : e ≤ 52 - k) :
    (significand64 n (2 ^ k) e : ℚ) = n / (2 ^ k : ℕ) / 2 ^ (e - 52) := by
  have hdvd : 2 ^ k * 2 ^ (e - 52).toNat ∣ n * 2 ^ (52 - e).toNat := by
    rw [← pow_add]
    exact (pow_dvd_pow 2 (by omega)).mul_left n
  rw [significand64, roundHalfEven_of_dvd (by positivity) hdvd, Nat.cast_div hdvd (by positivity), significand64_ratio]

/-- A quotient by a power of two is a binary64 value itself (R104). -/
theorem value64_bits64_dyadic {n : ℤ} {k : ℕ} (hn : n.natAbs ≤ 2 ^ 32) (hk : k ≤ 32) :
    value64 (bits64 n (2 ^ k)) = n / 2 ^ k := by
  obtain rfl | hne := eq_or_ne n 0
  · simp [bits64_zero, value64, magnitudeValue]
  have hpos := Int.natAbs_pos.2 hne
  have hden : 0 < 2 ^ k := by positivity
  obtain ⟨lo, hi⟩ := floorLog2_range hpos hden hn (Nat.pow_le_pow_right (by decide) hk)
  obtain ⟨-, hvalue, -⟩ := bits64_normal hne hden (by omega) (by omega)
  have hle : (2 : ℚ) ^ floorLog2 n.natAbs (2 ^ k) ≤ 2 ^ ((32 : ℤ) - k) := by
    refine (floorLog2_spec hpos hden).1.trans ?_
    rw [zpow_sub₀ two_ne_zero, zpow_natCast]
    push_cast
    gcongr
    exact_mod_cast hn
  have he : floorLog2 n.natAbs (2 ^ k) ≤ 32 - k := (zpow_le_zpow_iff_right₀ one_lt_two).1 hle
  have hsign : (n.sign : ℚ) * n.natAbs = n := by
    rw [← Int.cast_natCast, ← Int.cast_mul, Int.sign_mul_natAbs]
  rw [hvalue, significand64_of_dyadic (by omega), div_mul_cancel₀ _ (by positivity), ← mul_div_assoc, hsign]
  push_cast
  rfl

/-- RES and RESF of a value in the clamped interval, 4194304 being 2^22 (R104). -/
theorem clamped_result {h : ℤ} (h_nonneg : 0 ≤ h) (h_le : h ≤ 419430400) :
    (BitVec.ofInt 32 h).toNat ≤ 419430400 ∧
    value64 (bits64 h 4194304) = ((BitVec.ofInt 32 h).toNat : ℚ) / 4194304 ∧
    0 ≤ value64 (bits64 h 4194304) ∧ value64 (bits64 h 4194304) ≤ 100 := by
  obtain ⟨n, rfl⟩ := Int.eq_ofNat_of_zero_le h_nonneg
  have n_le : n ≤ 419430400 := by omega
  have hres : (BitVec.ofInt 32 n).toNat = n := by
    rw [BitVec.ofInt_natCast, BitVec.toNat_ofNat, Nat.mod_eq_of_lt (by omega)]
  have hresf : value64 (bits64 n 4194304) = (n : ℚ) / 4194304 := by
    have hvalue := value64_bits64_dyadic (n := n) (k := 22) (by omega) (by decide)
    norm_num at hvalue
    exact hvalue
  have n_le' : (n : ℚ) ≤ 419430400 := by exact_mod_cast n_le
  rw [hres, hresf]
  exact ⟨n_le, rfl, by positivity, (div_le_iff₀ (by norm_num)).2 (by linarith)⟩

/-! ### The statements -/

/-- Settles O41: the flag of CMPT answers for both stages of the formula. -/
theorem temperatureIsExactWithoutOverflow : Obligations.TemperatureIsExactWithoutOverflow := by
  intro m l x s hcal
  refine ⟨_, exec_cmpt_valid hcal, fun hovf => ?_⟩
  exact ⟨fineTemperature_exact s.cal (raw20_lt m l x) (ovf_of_temperature hovf), temperature_exact _ hovf⟩

/-- Settles O42: the clamp is of the exact value. -/
theorem humidityIsExactWithoutOverflow : Obligations.HumidityIsExactWithoutOverflow := by
  intro m l s hcal htf
  refine ⟨_, exec_cmph_valid hcal htf, fun hovf => ?_⟩
  refine (toInt_clampHumidity _).trans ?_
  rw [humidity_exact s.cal s.tf (raw16_lt m l) hovf, clampHumidity_eq, min_comm]

/-- Settles O43: the clamp bounds RES, and 4194304 is a power of two. -/
theorem humidityStaysInRange : Obligations.HumidityStaysInRange := by
  intro m l s hcal htf
  obtain ⟨h_nonneg, h_le⟩ := clampHumidity_range (humidity s.cal s.tf (raw16 m l)).int
  exact ⟨_, exec_cmph_valid hcal htf, clamped_result h_nonneg h_le⟩

/-- Settles O44: the denominator term is a multiple of CAL.P1. -/
theorem zeroDenominatorGivesZeroPressure : Obligations.ZeroDenominatorGivesZeroPressure := by
  intro m l x s hcal htf hp1
  exact ⟨_, ((pressureFormula m l x s).2.2 hcal htf).1 (by simp [hp1, wrap32]), rfl, rfl, rfl, rfl⟩

end Sys2Proof.Machine
end

section
/-! O26, O13: which calls a command makes, and how they decide whether it completes or is stuck (60_exceptions.md R119 to R122). -/

namespace Sys2Proof.Machine

/-- How the calls `made` decide an answer: the command completes after making them, each having returned, or is stuck in one. -/
inductive DecidedByCalls (s : State) (made : Nat → Prop) : Result → Prop
  | completes {t : State} (n : Nat) (hcount : t.calls = s.calls + n) (hmade : ∀ k, made k ↔ k < n)
      (hreturn : ∀ k < n, s.draw k ≠ .never) : DecidedByCalls s made (.next t)
  | sticks {k : Nat} (hmade : made k) (hnever : s.draw k = .never) : DecidedByCalls s made (.fault .transportNeverReturns)

/-! ### One call's outcome excludes the others -/

theorem callOk_returns {s : State} {k : Nat} (h : s.callOk k) : s.draw k ≠ .never := by
  obtain ⟨b0, b1, hd⟩ := h
  simp [hd]

theorem callFails_returns {s : State} {k : Nat} {c : FailCode} (h : s.callFails k c) : s.draw k ≠ .never := by
  obtain ⟨a, hd, -⟩ := callFails_iff.1 h
  simp [hd]

theorem not_callOk_of_callFails {s : State} {k : Nat} {c : FailCode} (h : s.callFails k c) : ¬ s.callOk k := by
  obtain ⟨a, hd, hf⟩ := callFails_iff.1 h
  rintro ⟨b0, b1, hd'⟩
  obtain rfl : a = .ok b0 b1 := Draw.returns.inj (hd.symm.trans hd')
  simp at hf

theorem not_callFails_of_callOk {s : State} {k : Nat} {c : FailCode} (h : s.callOk k) : ¬ s.callFails k c :=
  fun hfail => not_callOk_of_callFails hfail h

/-! ### The shared operations -/

section
variable {s t : State} {made : Nat → Prop}

theorem DecidedByCalls.noCall (hcount : t.calls = s.calls) (hmade : ∀ k, ¬ made k) : DecidedByCalls s made (.next t) :=
  .completes 0 hcount (fun k => iff_of_false (hmade k) (Nat.not_lt_zero k)) fun k hk => absurd hk (Nat.not_lt_zero k)

theorem withHandle_decidedByCalls {k : State → Result} (hk : DecidedByCalls s made (k s)) :
    DecidedByCalls s (fun j => s.hOpen = true ∧ made j) (withHandle s k) := by
  rcases withHandle_cases s k with ⟨hclosed, he⟩ | ⟨hopen, he⟩ <;> rw [he]
  · exact .noCall rfl (by simp [hclosed])
  · simpa [hopen] using hk

theorem sendBytes_decidedByCalls (bytes : List Byte) (s : State) : DecidedByCalls s (· = 0) (sendBytes bytes s) := by
  rcases sendBytes_cases bytes s with ⟨hd, he⟩ | ⟨a, hd, -, he⟩ | ⟨a, c, hd, -, he⟩ <;> rw [he]
  · exact .sticks rfl hd
  · exact .completes 1 rfl (by omega) (by simp [hd])
  · exact .completes 1 rfl (by omega) (by simp [hd])

theorem readInto_decidedByCalls (reg : Byte) (n : Nat) (f : Nat → Word) (s : State) :
    DecidedByCalls s (fun k => k = 0 ∨ (k = 1 ∧ s.callOk 0)) (readInto reg n f s) := by
  rcases readInto_cases reg n f s with ⟨hd | ⟨h0, hd⟩, he⟩ | ⟨a, b0, b1, hd, hf, hd1, he⟩ | ⟨a, c, hd, hf, he⟩
    | ⟨a, a', c, hd, hf, hd1, hf1, he⟩ <;> rw [he]
  · exact .sticks (.inl rfl) hd
  · exact .sticks (.inr ⟨rfl, h0⟩) hd
  · have h0 : s.callOk 0 := callOk_iff.2 ⟨a, hd, hf⟩
    exact .completes 2 rfl (by simp [h0]; omega) fun k hk => by interval_cases k <;> simp [hd, hd1]
  · have h0 : ¬ s.callOk 0 := not_callOk_of_callFails (callFails_iff.2 ⟨a, hd, hf⟩)
    exact .completes 1 rfl (by simp [h0]) (by simp [hd])
  · have h0 : s.callOk 0 := callOk_iff.2 ⟨a, hd, hf⟩
    exact .completes 2 rfl (by simp [h0]; omega) fun k hk => by interval_cases k <;> simp [hd, hd1]

theorem sendBlock_decidedByCalls (s : State) :
    DecidedByCalls s (fun k => 0 < s.blkLen.toInt ∧ s.blkLen.toInt ≤ s.params.blkMax ∧ k = 0) (sendBlock s) := by
  rcases sendBlock_cases s with ⟨hbad, he⟩ | ⟨h0, he⟩ | ⟨hpos, hmax, he⟩ <;> rw [he]
  · exact .noCall rfl (by omega)
  · exact .noCall rfl (by omega)
  · simpa [hpos, hmax] using sendBytes_decidedByCalls _ s

end

/-! ### The commands -/

theorem execOpen_decidedByCalls (bus addr : Byte) (s : State) :
    DecidedByCalls s (s.makesCall (.openBus bus addr)) (execOpen bus addr s) := by
  rcases execOpen_cases bus addr s with ⟨hopen, he⟩ | ⟨hclosed, hstuck, he⟩ | ⟨hclosed, a, c, hd, hf, he⟩
    | ⟨hclosed, a, a', a'', c, hd, hf, hd1, hf1, hd2, he⟩ | ⟨hclosed, a, a', hd, hf, hd1, hf1, he⟩ <;> rw [he]
  · exact .noCall rfl (by simp [State.makesCall, hopen])
  · rcases hstuck with hd | ⟨h0, hd⟩ | ⟨h0, h1, hd⟩
    · exact .sticks ⟨hclosed, .inl rfl⟩ hd
    · exact .sticks ⟨hclosed, .inr (.inl ⟨rfl, h0⟩)⟩ hd
    · exact .sticks ⟨hclosed, .inr (.inr ⟨rfl, h0, h1⟩)⟩ hd
  · have h0 : ¬ s.callOk 0 := not_callOk_of_callFails (callFails_iff.2 ⟨a, hd, hf⟩)
    exact .completes 1 rfl (by simp [State.makesCall, hclosed, h0]) (by simp [hd])
  · have h0 : s.callOk 0 := callOk_iff.2 ⟨a, hd, hf⟩
    have h1 : ∃ c, s.callFails 1 c := ⟨c, callFails_iff.2 ⟨a', hd1, hf1⟩⟩
    exact .completes 3 rfl (by simp [State.makesCall, hclosed, h0, h1]; omega)
      fun k hk => by interval_cases k <;> simp [hd, hd1, hd2]
  · have h0 : s.callOk 0 := callOk_iff.2 ⟨a, hd, hf⟩
    have h1 (c : FailCode) : ¬ s.callFails 1 c := not_callFails_of_callOk (callOk_iff.2 ⟨a', hd1, hf1⟩)
    exact .completes 2 rfl (by simp [State.makesCall, hclosed, h0, h1]; omega)
      fun k hk => by interval_cases k <;> simp [hd, hd1]

theorem execClose_decidedByCalls (s : State) : DecidedByCalls s (s.makesCall .close) (execClose s) := by
  rcases execClose_cases s with ⟨hclosed, he⟩ | ⟨hopen, hd, he⟩ | ⟨hopen, a, hd, he⟩ <;> rw [he]
  · exact .noCall rfl (by simp [State.makesCall, hclosed])
  · exact .sticks ⟨hopen, rfl⟩ hd
  · exact .completes 1 rfl (by simp [State.makesCall, hopen]) (by simp [hd])

/-- The reads make their calls in order, up to the last or to the first that does not succeed (R93). -/
theorem finishLoad_decidedByCalls (s : State) :
    DecidedByCalls s (fun k => k < 64 ∧ ∀ j, j < k → s.callOk j) (finishLoad (readCal [] (beginLoad s) calAddresses)) := by
  have hreads := readCal_calls calAddresses [] (beginLoad s)
  rcases hr : readCal [] (beginLoad s) calAddresses with ⟨table, s'⟩ | ⟨reg, c, s'⟩ | _ <;> rw [hr] at hreads
  · obtain ⟨hcount, hok⟩ := hreads
    exact .completes 64 hcount (fun k => and_iff_left_of_imp fun hk j hj => hok j (hj.trans hk))
      fun k hk => callOk_returns (hok k hk)
  · obtain ⟨n, d, hn, hcount, hfail, hok⟩ := hreads
    change n < 64 at hn
    refine .completes (n + 1) hcount (fun k => ⟨fun ⟨_, hbefore⟩ => ?_, fun hk => ⟨by omega, fun j hj => hok j (by omega)⟩⟩)
      fun k hk => ?_
    · exact Nat.lt_succ_of_le (not_lt.1 fun hlt => not_callOk_of_callFails hfail (hbefore n hlt))
    · rcases Nat.lt_succ_iff_lt_or_eq.1 hk with hlt | rfl
      · exact callOk_returns (hok k hlt)
      · exact callFails_returns hfail
  · obtain ⟨k, hk, hnever, hok⟩ := hreads
    exact .sticks ⟨hk, hok⟩ hnever

/-- The compensation commands make no call. -/
theorem exec_compensation_decidedByCalls {i : Instr} (hi : i.mnemonic ∈ ["CMPT", "CMPH", "CMPP"]) (s : State) :
    DecidedByCalls s (fun _ => False) (exec i s) := by
  rcases exec_compensation_sameInputs hi s with hexec | ⟨_, _, _, -, hexec⟩ <;> rw [hexec s ⟨rfl, rfl, rfl, rfl⟩]
  · exact .noCall rfl fun _ => id
  · exact .noCall rfl fun _ => id

/-- Every command completes after the calls `makesCall` names, or is stuck in one of them. -/
theorem exec_decidedByCalls (i : Instr) (s : State) : DecidedByCalls s (s.makesCall i) (exec i s) := by
  cases i with
  | openBus bus addr => exact execOpen_decidedByCalls bus addr s
  | close => exact execClose_decidedByCalls s
  | rdb _ | rdw _ | rdws _ => exact withHandle_decidedByCalls (readInto_decidedByCalls _ _ _ s)
  | wrb _ _ | wrw _ _ | wrc _ => exact withHandle_decidedByCalls (sendBytes_decidedByCalls _ s)
  | wrblk => exact withHandle_decidedByCalls (sendBlock_decidedByCalls s)
  | ldcal => exact withHandle_decidedByCalls (k := fun s => finishLoad _) (finishLoad_decidedByCalls s)
  | cmpt _ _ _ | cmph _ _ | cmpp _ _ _ => exact exec_compensation_decidedByCalls (by simp [Instr.mnemonic]) s

theorem exec_fault {i : Instr} {s : State} {f : Fault} (h : exec i s = .fault f) :
    f = .transportNeverReturns ∧ ∃ k, s.makesCall i k ∧ s.draw k = .never := by
  have hcalls := exec_decidedByCalls i s
  rw [h] at hcalls
  cases hcalls with
  | sticks hmade hnever => exact ⟨rfl, _, hmade, hnever⟩

theorem exec_stuck {i : Instr} {s : State} {k : Nat} (hmade : s.makesCall i k) (hnever : s.draw k = .never) :
    exec i s = .fault .transportNeverReturns := by
  have hcalls := exec_decidedByCalls i s
  generalize exec i s = r at hcalls ⊢
  cases hcalls with
  | completes n _ hn hreturn => exact absurd hnever (hreturn k ((hn k).1 hmade))
  | sticks => rfl

/-- A host action faults only by the command it issues. -/
theorem perform_fault {a : HostAction} {s : State} {f : Fault} (h : perform a s = .fault f) : f = .transportNeverReturns := by
  cases a with
  | read offset width =>
    rw [perform] at h
    split at h <;> cases h
  | write offset width v =>
    rw [perform] at h
    split at h
    · rename_i r _
      by_cases hcmd : r = .cmd
      · subst hcmd
        rw [portWrite, issue] at h
        split at h
        · exact (exec_fault h).1
        · cases h
      · obtain ⟨t, ht⟩ := portWrite_next hcmd v s
        cases ht.symm.trans h
    · cases h

/-! ### The statements -/

/-- Settles O26: its last clause is the second at the first call. -/
theorem onlyNeverReturningCallsStick : Obligations.OnlyNeverReturningCallsStick := by
  refine ⟨fun _ _ _ => exec_fault, fun _ _ _ => exec_stuck, exec_ne_refused, fun s hnever =>
    ⟨fun _ _ hclosed => exec_stuck ⟨hclosed, .inl rfl⟩ hnever, fun i hopen hi => exec_stuck (k := 0) ?_ hnever⟩⟩
  rcases hi with ⟨r, rfl | rfl | rfl | rfl⟩ | ⟨r, v, rfl⟩ | ⟨r, v, rfl⟩ | rfl | rfl | ⟨rfl, hpos, hmax⟩ <;>
    simp [State.makesCall, *]

/-- Settles O13: an action still to come ends the run in no case, since it faults with no other name than the transport's. -/
theorem runEndsWithTheHostsActions : Obligations.RunEndsWithTheHostsActions := by
  refine fun s => ⟨fun h => ?_, fun hnone => by rw [step, hnone]⟩
  rw [step] at h
  split at h
  · assumption
  · cases perform_fault h

end Sys2Proof.Machine
end

section
/-! O30: no command reads ERR or ERRINFO, and every command overwrites both (60_exceptions.md R115). A command ends by `complete` or
`raise`, which overwrite the report; a transport call or a check before such an end does not read it. -/

namespace Sys2Proof.Machine

/-- The state with another ERR and ERRINFO. -/
def State.reporting (err : BitVec 4) (info : Word) (s : State) : State := { s with err := err, errinfo := info }

/-- `k` answers the same whatever ERR and ERRINFO were. -/
def OverwritesReport (k : State → Result) : Prop :=
  ∀ (err : BitVec 4) (info : Word) (s : State), k (s.reporting err info) = k s

/-! ### What ends a command, and what comes before -/

@[simp] theorem draw_reporting (err : BitVec 4) (info : Word) (s : State) (i : Nat) :
    (s.reporting err info).draw i = s.draw i := rfl

@[simp] theorem called_reporting (err : BitVec 4) (info : Word) (e : Event) (s : State) :
    (s.reporting err info).called e = (s.called e).reporting err info := rfl

theorem complete_overwritesReport : OverwritesReport complete := fun _ _ _ => rfl

theorem raise_overwritesReport (e : ErrCode) (info : Word) : OverwritesReport (raise e info) := fun _ _ _ => rfl

theorem ite_overwritesReport {c : State → Prop} [∀ s, Decidable (c s)] {k k' : State → Result}
    (hc : ∀ err info s, c (s.reporting err info) ↔ c s) (hk : OverwritesReport k) (hk' : OverwritesReport k') :
    OverwritesReport fun s => if c s then k s else k' s :=
  fun err info s => if_congr (hc err info s) (hk err info s) (hk' err info s)

theorem withHandle_overwritesReport {k : State → Result} (hk : OverwritesReport k) :
    OverwritesReport fun s => withHandle s k :=
  ite_overwritesReport (fun _ _ _ => Iff.rfl) hk (raise_overwritesReport _ _)

theorem busClose_overwritesReport {k : State → Result} (hk : OverwritesReport k) :
    OverwritesReport fun s => busClose s k := fun err info s => by
  simp only [busClose, draw_reporting, called_reporting, hk err info]

section
variable {onFail : FailCode → State → Result} (hfail : ∀ c, OverwritesReport (onFail c))
include hfail

theorem busCall_overwritesReport {k : Unit → State → Result} (hk : ∀ a, OverwritesReport (k a))
    (event : CallOutcome → Event) : OverwritesReport fun s => (busCall event s).finish onFail k := fun err info s => by
  simp only [busCall, draw_reporting, called_reporting]
  rcases s.draw 0 with a | _
  · rcases hf : answerFailure a with _ | c
    · simpa [hf] using hk () err info _
    · simpa [hf] using hfail c err info _
  · rfl

theorem busRead_overwritesReport {k : List Byte → State → Result} (hk : ∀ bytes, OverwritesReport (k bytes)) (n : Nat) :
    OverwritesReport fun s => (busRead n s).finish onFail k := fun err info s => by
  simp only [busRead, draw_reporting, called_reporting]
  rcases s.draw 0 with a | _
  · rcases hf : answerFailure a with _ | c
    · simpa [hf] using hk _ err info _
    · simpa [hf] using hfail c err info _
  · rfl

omit hfail in
/-- A MemRead is its address write before its read (R10). -/
theorem memRead_finish (reg : Byte) (n : Nat) (k : Nat → State → Result) (s : State) :
    (memRead reg n s).finish onFail k =
      (busWrite [reg] s).finish onFail fun _ s' => (busRead n s').finish onFail fun bytes => k (bigEndian bytes) := by
  unfold memRead
  rcases busWrite [reg] s with ⟨_, s'⟩ | _ | _
  · simp only [finish_ok]
    rcases busRead n s' with _ | _ | _ <;> rfl
  · rfl
  · rfl

theorem memRead_overwritesReport {k : Nat → State → Result} (hk : ∀ v, OverwritesReport (k v)) (reg : Byte) (n : Nat) :
    OverwritesReport fun s => (memRead reg n s).finish onFail k := by
  simp only [memRead_finish]
  exact busCall_overwritesReport hfail (fun _ => busRead_overwritesReport hfail (fun _ => hk _) n) _

end

/-! ### The commands -/

theorem execOpen_overwritesReport (bus addr : Byte) : OverwritesReport (execOpen bus addr) :=
  ite_overwritesReport (fun _ _ _ => Iff.rfl) (raise_overwritesReport _ _) <|
    busCall_overwritesReport (fun _ => raise_overwritesReport _ _)
      (fun _ => busCall_overwritesReport (fun _ => busClose_overwritesReport (raise_overwritesReport _ _))
        (fun _ _ _ _ => rfl) _) _

theorem execClose_overwritesReport : OverwritesReport execClose :=
  ite_overwritesReport (fun _ _ _ => Iff.rfl) (busClose_overwritesReport fun _ _ _ => rfl) complete_overwritesReport

theorem sendBytes_overwritesReport (bytes : List Byte) : OverwritesReport (sendBytes bytes) :=
  busCall_overwritesReport (fun _ => raise_overwritesReport _ _) (fun _ => complete_overwritesReport) _

theorem readInto_overwritesReport (reg : Byte) (n : Nat) (f : Nat → Word) : OverwritesReport (readInto reg n f) :=
  memRead_overwritesReport (fun _ => raise_overwritesReport _ _) (fun _ _ _ _ => rfl) reg n

theorem sendBlock_overwritesReport : OverwritesReport sendBlock :=
  ite_overwritesReport (fun _ _ _ => Iff.rfl) (raise_overwritesReport _ _) <|
    ite_overwritesReport (fun _ _ _ => Iff.rfl) (raise_overwritesReport _ _) <|
      ite_overwritesReport (fun _ _ _ => Iff.rfl) complete_overwritesReport fun err info s =>
        sendBytes_overwritesReport (blockBytes s.blkBuf s.blkLen.toNat) err info s

/-- An LDCAL with an address left to read is one MemRead before the rest of it (R93). -/
theorem finishLoad_readCal_cons (table : List (Byte × Byte)) (s : State) (reg : Byte) (rest : List Byte) :
    finishLoad (readCal table s (reg :: rest)) =
      (memRead reg 1 s).finish (failCal reg) fun v s' => finishLoad (readCal (table ++ [(reg, BitVec.ofNat 8 v)]) s' rest) := by
  rw [readCal]
  rcases memRead reg 1 s with _ | _ | _ <;> rfl

theorem finishLoad_overwritesReport (regs : List Byte) (table : List (Byte × Byte)) :
    OverwritesReport fun s => finishLoad (readCal table s regs) := by
  induction regs generalizing table with
  | nil => exact fun _ _ _ => rfl
  | cons reg rest ih =>
    simp only [finishLoad_readCal_cons]
    exact memRead_overwritesReport (fun _ _ _ _ => rfl) (fun _ => ih _) reg 1

theorem execLdcal_overwritesReport : OverwritesReport execLdcal :=
  withHandle_overwritesReport fun err info s => finishLoad_overwritesReport calAddresses [] err info (beginLoad s)

/-- A compensation command reads only its inputs, and its output overwrites the report (R96, R103). -/
theorem exec_compensation_overwritesReport {i : Instr} (hi : i.mnemonic ∈ ["CMPT", "CMPH", "CMPP"]) :
    OverwritesReport (exec i) := fun err info s => by
  have same : SameInputs s (s.reporting err info) := ⟨rfl, rfl, rfl, rfl⟩
  have itself : SameInputs s s := ⟨rfl, rfl, rfl, rfl⟩
  obtain hexec | ⟨tf, tfValid, out, -, hexec⟩ := exec_compensation_sameInputs hi s <;>
    exact (hexec _ same).trans (hexec s itself).symm

theorem exec_overwritesReport (i : Instr) : OverwritesReport (exec i) := by
  cases i with
  | openBus bus addr => exact execOpen_overwritesReport bus addr
  | close => exact execClose_overwritesReport
  | rdb _ | rdw _ | rdws _ => exact withHandle_overwritesReport (readInto_overwritesReport _ _ _)
  | wrb _ _ | wrw _ _ | wrc _ => exact withHandle_overwritesReport (sendBytes_overwritesReport _)
  | wrblk => exact withHandle_overwritesReport sendBlock_overwritesReport
  | ldcal => exact execLdcal_overwritesReport
  | cmpt _ _ _ | cmph _ _ | cmpp _ _ _ => exact exec_compensation_overwritesReport (by simp [Instr.mnemonic])

/-- Settles O30: the state with any other report answers as the state itself. -/
theorem errorsAreNotSticky : Obligations.ErrorsAreNotSticky :=
  fun i s err info => exec_overwritesReport i err info s

end Sys2Proof.Machine
end

section
/-! O29: the completion codes (60_exceptions.md R111). `Completion` is the table, with the cause of each code; every command that
completes does so by one of its rows, and the two checks that make no call report whenever they are not met. -/

namespace Sys2Proof.Machine

/-- The causes of InvalidArgument (R111). -/
def InvalidArgument (s : State) (i : Instr) : Prop :=
  (s.hOpen = false ∧ i.mnemonic ∈ ["RDB", "RDW", "RDWS", "WRB", "WRW", "WRC", "WRBLK", "LDCAL"]) ∨
  (s.hOpen = true ∧ i.mnemonic ∈ ["OPEN"]) ∨
  (s.hOpen = true ∧ i.mnemonic ∈ ["WRBLK"] ∧ (s.blkLen.toInt < 0 ∨ (s.params.blkMax : Int) < s.blkLen.toInt))

/-- The causes of PreconditionViolation (R105, R111). -/
def MissingInput (s : State) (i : Instr) : Prop :=
  (s.calValid = false ∧ i.mnemonic ∈ ["CMPT", "CMPH", "CMPP"]) ∨ (s.tfValid = false ∧ i.mnemonic ∈ ["CMPH", "CMPP"])

/-- The rows of R111 for the command `i` in the state `s`: a code, with its cause, ERRINFO, and RES where the row fixes it. -/
inductive Completion (s : State) (i : Instr) : ErrCode → Word → Word → Prop
  | ok {res : Word} : Completion s i .ok 0 res
  | invalidArgument {res : Word} (hcause : InvalidArgument s i) : Completion s i .invalidArgument 0 res
  | busUnavailable {c : FailCode} {res : Word} (hi : i.mnemonic ∈ ["OPEN"]) (hfail : s.callFails 0 c) :
      Completion s i .busUnavailable c.code res
  | addressSelectFailed {c : FailCode} {res : Word} (hi : i.mnemonic ∈ ["OPEN"]) (hok : s.callOk 0)
      (hfail : s.callFails 1 c) : Completion s i .addressSelectFailed c.code res
  | transportError {k : Nat} {c : FailCode} {res : Word}
      (hi : i.mnemonic ∈ ["RDB", "RDW", "RDWS", "WRB", "WRW", "WRC", "WRBLK"]) (hk : k < 2) (hfail : s.callFails k c) :
      Completion s i .transportError c.code res
  | preconditionViolation {res : Word} (hcause : MissingInput s i) : Completion s i .preconditionViolation 0 res
  | calibrationReadFailed {k : Nat} {c : FailCode} {reg : Byte} (hi : i.mnemonic ∈ ["LDCAL"])
      (hreg : calAddresses[k / 2]? = some reg) (hfail : s.callFails k c) :
      Completion s i .calibrationReadFailed c.code (zext32 reg)

/-- An answer that, if it is a next state, reports by a row of R111. -/
def Completes (s : State) (i : Instr) (r : Result) : Prop :=
  ∀ t, r = .next t → ∃ e, t.err = e.code ∧ Completion s i e t.errinfo t.res

section
variable {s s' : State} {i : Instr}

theorem Completes.raise {e : ErrCode} {info : Word} (h : Completion s i e info s'.res) :
    Completes s i (raise e info s') := by
  rintro t ⟨⟩
  exact ⟨e, rfl, h⟩

theorem Completes.complete : Completes s i (complete s') := Completes.raise .ok

theorem Completes.fault {f : Fault} : Completes s i (.fault f) := nofun

/-! ### The checks (R75, R86, R105) -/

theorem withHandle_completes {k : State → Result}
    (hi : i.mnemonic ∈ ["RDB", "RDW", "RDWS", "WRB", "WRW", "WRC", "WRBLK", "LDCAL"])
    (hk : s.hOpen = true → Completes s i (k s)) : Completes s i (withHandle s k) := by
  rcases withHandle_cases s k with ⟨hclosed, he⟩ | ⟨hopen, he⟩ <;> rw [he]
  · exact .raise (.invalidArgument (.inl ⟨hclosed, hi⟩))
  · exact hk hopen

theorem exec_invalidArgument (h : InvalidArgument s i) : exec i s = .next { s with err := 1, errinfo := 0 } := by
  obtain ⟨hclosed, hi⟩ | ⟨hopen, hi⟩ | ⟨hopen, hi, hbad⟩ := h
  · cases i with
    | rdb _ | rdw _ | rdws _ | wrb _ _ | wrw _ _ | wrc _ | wrblk => exact withHandle_reports hclosed _
    | ldcal => exact execLdcal_closed hclosed
    | openBus _ _ | close | cmpt _ _ _ | cmph _ _ | cmpp _ _ _ => simp [Instr.mnemonic] at hi
  · cases i with
    | openBus _ _ => exact execOpen_whenOpen hopen
    | _ => simp [Instr.mnemonic] at hi
  · cases i with
    | wrblk => exact (withHandle_open hopen _).trans (sendBlock_badLength hbad)
    | _ => simp [Instr.mnemonic] at hi

theorem missingInput_cmpt {m l x : Byte} : MissingInput s (.cmpt m l x) ↔ s.calValid = false := by
  simp [MissingInput, Instr.mnemonic]

theorem missingInput_cmph {m l : Byte} : MissingInput s (.cmph m l) ↔ s.calValid = false ∨ s.tfValid = false := by
  simp [MissingInput, Instr.mnemonic]

theorem missingInput_cmpp {m l x : Byte} : MissingInput s (.cmpp m l x) ↔ s.calValid = false ∨ s.tfValid = false := by
  simp [MissingInput, Instr.mnemonic]

theorem exec_missingInput (h : MissingInput s i) : exec i s = .next { s with err := 6, errinfo := 0 } := by
  cases i with
  | cmpt _ _ _ => exact exec_cmpt_missing (missingInput_cmpt.1 h)
  | cmph _ _ => exact exec_cmph_missing (missingInput_cmph.1 h)
  | cmpp _ _ _ => exact exec_cmpp_missing (missingInput_cmpp.1 h)
  | _ => simp [MissingInput, Instr.mnemonic] at h

theorem withCal_completes {k : State → Result} (hi : s.calValid = false → MissingInput s i) (hk : Completes s i (k s)) :
    Completes s i (withCal s k) := by
  rcases withCal_cases s k with ⟨hcal, he⟩ | ⟨-, he⟩ <;> rw [he]
  · exact .raise (.preconditionViolation (hi hcal))
  · exact hk

theorem withCalAndTf_completes {k : State → Result} (hi : s.calValid = false ∨ s.tfValid = false → MissingInput s i)
    (hk : Completes s i (k s)) : Completes s i (withCalAndTf s k) := by
  rcases withCalAndTf_cases s k with ⟨hmissing, he⟩ | ⟨-, -, he⟩ <;> rw [he]
  · exact .raise (.preconditionViolation (hi hmissing))
  · exact hk

/-! ### The transfers (R76) -/

theorem sendBytes_completes (hi : i.mnemonic ∈ ["RDB", "RDW", "RDWS", "WRB", "WRW", "WRC", "WRBLK"]) (bytes : List Byte) :
    Completes s i (sendBytes bytes s) := by
  rcases sendBytes_cases bytes s with ⟨-, he⟩ | ⟨a, -, -, he⟩ | ⟨a, c, hd, hf, he⟩ <;> rw [he]
  · exact .fault
  · exact .complete
  · exact .raise (.transportError hi (by decide) (callFails_iff.2 ⟨a, hd, hf⟩))

theorem readInto_completes (hi : i.mnemonic ∈ ["RDB", "RDW", "RDWS", "WRB", "WRW", "WRC", "WRBLK"]) (reg : Byte) (n : Nat)
    (f : Nat → Word) : Completes s i (readInto reg n f s) := by
  rcases readInto_cases reg n f s with ⟨-, he⟩ | ⟨a, b0, b1, -, -, -, he⟩ | ⟨a, c, hd, hf, he⟩
    | ⟨a, a', c, -, -, hd, hf, he⟩ <;> rw [he]
  · exact .fault
  · exact .complete
  · exact .raise (.transportError hi (by decide) (callFails_iff.2 ⟨a, hd, hf⟩))
  · exact .raise (.transportError hi (by decide) (callFails_iff.2 ⟨a', hd, hf⟩))

theorem sendBlock_completes (hopen : s.hOpen = true) : Completes s .wrblk (sendBlock s) := by
  rcases sendBlock_cases s with ⟨hbad, he⟩ | ⟨-, he⟩ | ⟨-, -, he⟩ <;> rw [he]
  · exact .raise (.invalidArgument (.inr (.inr ⟨hopen, by simp [Instr.mnemonic], hbad⟩)))
  · exact .complete
  · exact sendBytes_completes (by simp [Instr.mnemonic]) _

/-! ### The handle, the calibration and the compensation (R78, R79, R93, R103) -/

theorem execOpen_completes (bus addr : Byte) (s : State) : Completes s (.openBus bus addr) (execOpen bus addr s) := by
  have hi : (Instr.openBus bus addr).mnemonic ∈ ["OPEN"] := by simp [Instr.mnemonic]
  rcases execOpen_cases bus addr s with ⟨hopen, he⟩ | ⟨-, -, he⟩ | ⟨-, a, c, hd, hf, he⟩
    | ⟨-, a, a', a'', c, hd, hf, hd1, hf1, -, he⟩ | ⟨-, a, a', -, -, -, -, he⟩ <;> rw [he]
  · exact .raise (.invalidArgument (.inr (.inl ⟨hopen, hi⟩)))
  · exact .fault
  · exact .raise (.busUnavailable hi (callFails_iff.2 ⟨a, hd, hf⟩))
  · exact .raise (.addressSelectFailed hi (callOk_iff.2 ⟨a, hd, hf⟩) (callFails_iff.2 ⟨a', hd1, hf1⟩))
  · exact .complete

theorem execClose_completes (s : State) : Completes s .close (execClose s) := by
  rcases execClose_cases s with ⟨-, he⟩ | ⟨-, -, he⟩ | ⟨-, a, -, he⟩ <;> rw [he]
  · exact .complete
  · exact .fault
  · exact .complete

/-- A call `k` of the calibration reads is one of the two that read the register number `k / 2` (R38, R93): the register and the code
reported are those of the call that failed. -/
theorem readCal_failed_call {regs : List Byte} {table : List (Byte × Byte)} {s s' : State} {reg : Byte} {c : FailCode}
    (h : readCal table s regs = .failed reg c s') : ∃ k, regs[k / 2]? = some reg ∧ s.callFails k c := by
  induction regs generalizing table s with
  | nil => cases h
  | cons a rest ih =>
    rcases memRead_cases a 1 s with ⟨-, he⟩ | ⟨x, b0, b1, -, -, -, he⟩ | ⟨x, d, hd, hf, he⟩ | ⟨x, x', d, -, -, hd, hf, he⟩ <;>
      simp only [readCal, he] at h
    · cases h
    · obtain ⟨k, hreg, hfail⟩ := ih h
      simp only [callFails_called] at hfail
      exact ⟨k + 2, by simpa using hreg, hfail⟩
    · cases h
      exact ⟨0, rfl, callFails_iff.2 ⟨x, hd, hf⟩⟩
    · cases h
      exact ⟨1, rfl, callFails_iff.2 ⟨x', hd, hf⟩⟩

theorem finishLoad_completes (s : State) :
    Completes s .ldcal (finishLoad (readCal [] (beginLoad s) calAddresses)) := by
  rcases hr : readCal [] (beginLoad s) calAddresses with ⟨table, s'⟩ | ⟨reg, c, s'⟩ | _
  · exact .complete
  · obtain ⟨k, hreg, hfail⟩ := readCal_failed_call hr
    exact .raise (.calibrationReadFailed (by simp [Instr.mnemonic]) hreg hfail)
  · exact .fault

theorem exec_compensation_completes (hi : i.mnemonic ∈ ["CMPT", "CMPH", "CMPP"]) (s : State) : Completes s i (exec i s) := by
  cases i with
  | cmpt _ _ _ =>
    rw [exec_cmpt_eq_withCal]
    exact withCal_completes missingInput_cmpt.2 .complete
  | cmph _ _ =>
    rw [exec_cmph_eq_withCalAndTf]
    exact withCalAndTf_completes missingInput_cmph.2 .complete
  | cmpp _ _ _ =>
    rw [exec_cmpp_eq_withCalAndTf]
    exact withCalAndTf_completes missingInput_cmpp.2 .complete
  | _ => simp [Instr.mnemonic] at hi

/-- Every command that completes does so by a row of R111. -/
theorem exec_completes (i : Instr) (s : State) : Completes s i (exec i s) := by
  cases i with
  | openBus bus addr => exact execOpen_completes bus addr s
  | close => exact execClose_completes s
  | rdb _ | rdw _ | rdws _ =>
    exact withHandle_completes (by simp [Instr.mnemonic]) fun _ => readInto_completes (by simp [Instr.mnemonic]) _ _ _
  | wrb _ _ | wrw _ _ | wrc _ =>
    exact withHandle_completes (by simp [Instr.mnemonic]) fun _ => sendBytes_completes (by simp [Instr.mnemonic]) _
  | wrblk => exact withHandle_completes (by simp [Instr.mnemonic]) sendBlock_completes
  | ldcal =>
    exact withHandle_completes (i := .ldcal) (k := fun s => finishLoad _) (by simp [Instr.mnemonic]) fun _ => finishLoad_completes s
  | cmpt _ _ _ | cmph _ _ | cmpp _ _ _ => exact exec_compensation_completes (by simp [Instr.mnemonic]) s

end

/-! ### Reading the table by its codes -/

theorem ErrCode.code_injective : Function.Injective ErrCode.code := fun e e' h => by
  cases e <;> cases e' <;> simp_all [ErrCode.code]

namespace Completion

variable {s : State} {i : Instr} {e : ErrCode} {info res : Word}

theorem invalidArgument_cause (h : Completion s i .invalidArgument info res) : InvalidArgument s i := by
  cases h with
  | invalidArgument hcause => exact hcause

theorem missingInput_cause (h : Completion s i .preconditionViolation info res) : MissingInput s i := by
  cases h with
  | preconditionViolation hcause => exact hcause

theorem busUnavailable_cause (h : Completion s i .busUnavailable info res) :
    i.mnemonic ∈ ["OPEN"] ∧ ∃ c, s.callFails 0 c ∧ info = c.code := by
  cases h with
  | busUnavailable hi hfail => exact ⟨hi, _, hfail, rfl⟩

theorem addressSelectFailed_cause (h : Completion s i .addressSelectFailed info res) :
    i.mnemonic ∈ ["OPEN"] ∧ s.callOk 0 ∧ ∃ c, s.callFails 1 c ∧ info = c.code := by
  cases h with
  | addressSelectFailed hi hok hfail => exact ⟨hi, hok, _, hfail, rfl⟩

theorem transportError_cause (h : Completion s i .transportError info res) :
    i.mnemonic ∈ ["RDB", "RDW", "RDWS", "WRB", "WRW", "WRC", "WRBLK"] ∧
      ∃ k c, k < 2 ∧ s.callFails k c ∧ info = c.code := by
  cases h with
  | transportError hi hk hfail => exact ⟨hi, _, _, hk, hfail, rfl⟩

theorem calibrationReadFailed_cause (h : Completion s i .calibrationReadFailed info res) :
    i.mnemonic ∈ ["LDCAL"] ∧
      ∃ k c reg, calAddresses[k / 2]? = some reg ∧ s.callFails k c ∧ info = c.code ∧ res = zext32 reg := by
  cases h with
  | calibrationReadFailed hi hreg hfail => exact ⟨hi, _, _, _, hreg, hfail, rfl, rfl⟩

theorem info_eq_zero (h : Completion s i e info res) (he : e.code ∈ [(0 : BitVec 4), 1, 6]) : info = 0 := by
  cases h with
  | ok | invalidArgument | preconditionViolation => rfl
  | busUnavailable | addressSelectFailed | transportError | calibrationReadFailed => exact absurd he (by decide)

theorem code_mem (h : Completion s i e info res) : e.code ∈ [(0 : BitVec 4), 1, 2, 3, 4, 6, 7] := by
  cases h <;> decide

end Completion

/-- Settles O29: a completion's code names its row of the table, and the checks report their own codes whenever they are not met. -/
theorem completionCodesFollowTheTable : Obligations.CompletionCodesFollowTheTable := by
  refine ⟨fun w e s hd => by rw [issue, hd]; rfl, fun i s t h => ?_⟩
  obtain ⟨e, herr, hcomp⟩ := exec_completes i s t h
  have row {e' : ErrCode} (hcode : t.err = e'.code) : Completion s i e' t.errinfo t.res :=
    ErrCode.code_injective (herr.symm.trans hcode) ▸ hcomp
  have reports {u : State} (hu : exec i s = .next u) : t.err = u.err := by
    rw [h] at hu
    cases hu
    rfl
  refine ⟨⟨fun h1 => (row (e' := .invalidArgument) h1).invalidArgument_cause, fun hc => reports (exec_invalidArgument hc)⟩,
    ⟨fun h6 => (row (e' := .preconditionViolation) h6).missingInput_cause, fun hc => reports (exec_missingInput hc)⟩,
    fun h2 => (row (e' := .busUnavailable) h2).busUnavailable_cause,
    fun h3 => (row (e' := .addressSelectFailed) h3).addressSelectFailed_cause,
    fun h4 => (row (e' := .transportError) h4).transportError_cause,
    fun h7 => (row (e' := .calibrationReadFailed) h7).calibrationReadFailed_cause,
    fun hplain => hcomp.info_eq_zero (herr ▸ hplain), herr ▸ hcomp.code_mem⟩

end Sys2Proof.Machine
end

section
/-! O27, O34: every command completes when its calls return (70_reset_and_hazards.md R142), and no LDCAL that passed its handle check
leaves a fine temperature for CMPH and CMPP (R137). -/

namespace Sys2Proof.Machine

/-- R142: the only thing that keeps a command from completing is a call of its own. -/
theorem exec_completes_of_calls_return {i : Instr} {s : State} (hreturn : ∀ k, s.makesCall i k → s.draw k ≠ .never) :
    ∃ t, exec i s = .next t := by
  have hcalls := exec_decidedByCalls i s
  generalize exec i s = r at hcalls ⊢
  cases hcalls with
  | completes => exact ⟨_, rfl⟩
  | sticks hmade hnever => exact absurd hnever (hreturn _ hmade)

/-- The model's count of calls (log 3) grows by the calls of the command. -/
theorem makesCall_iff_counted {i : Instr} {s t : State} (h : exec i s = .next t) (k : Nat) :
    s.makesCall i k ↔ s.calls + k < t.calls := by
  have hcalls := exec_decidedByCalls i s
  rw [h] at hcalls
  cases hcalls with
  | completes n hcount hmade _ => rw [hmade, hcount, Nat.add_lt_add_iff_left]

/-- Settles O27: the calls that decide whether a command completes are the calls it is counted to have made. -/
theorem everyCommandCompletesIfItsCallsReturn : Obligations.EveryCommandCompletesIfItsCallsReturn :=
  ⟨fun _ _ => exec_completes_of_calls_return, fun _ _ _ => makesCall_iff_counted⟩

/-- R93: an LDCAL past its handle check unsets TF_VALID before its first read, and no way it ends writes TF. -/
theorem exec_ldcal_unsets_tfValid {s t : State} (hopen : s.hOpen = true) (h : exec .ldcal s = .next t) :
    t.tfValid = false ∧ t.tf = s.tf := by
  obtain ⟨hclosed, -⟩ | ⟨-, evs, r, -, -, rfl | ⟨reg, c, rfl⟩⟩ := exec_ldcal_next h
  · simp [hopen] at hclosed
  · exact ⟨rfl, rfl⟩
  · exact ⟨rfl, rfl⟩

/-- Settles O34: TF_VALID = 0 is a missing input of CMPH and CMPP, whether LDCAL left a valid store or not. -/
theorem ldcalUnsetsFineTemperature : Obligations.LdcalUnsetsFineTemperature := by
  intro s t hopen h
  obtain ⟨hunset, htf⟩ := exec_ldcal_unsets_tfValid hopen h
  exact ⟨hunset, htf, fun _ _ => exec_cmph_missing (.inr hunset), fun _ _ _ => exec_cmpp_missing (.inr hunset)⟩

end Sys2Proof.Machine
end
